-- ==== Sys2Proof/Word.lean ====
section
/-! DEFINITION. The word types of the hart: 64-bit words (spec/00_scope.md R12, R20), bytes, register numbers. -/

namespace Sys2Proof

/-- A 64-bit value: a general register, the `pc`, an address, a CSR as software reads it (MXLEN = 64, R12). -/
abbrev Word := BitVec 64

/-- A memory byte (R49). -/
abbrev Byte := BitVec 8

/-- The number of a general register, `x0` to `x31` (R41). -/
abbrev Reg := BitVec 5

/-- A three-bit register field of a compressed instruction; it names `x8` to `x15` (R42, R454). -/
abbrev CReg := BitVec 3

/-- A CSR address (R47). -/
abbrev CsrAddr := BitVec 12

end Sys2Proof
end

