-- ==== Sys2Proof/Syntax.lean ====
section
/-! DEFINITION. The instructions of the hart: one constructor per row of spec/opcode_table.json, in the table's groups.
An immediate holds exactly the bits its encoding holds; the zero bits an encoding appends are added by the operand
forms (Machine/Operands.lean). Register fields are named as the spec names them (spec/30_encoding.md R253). -/

namespace Sys2Proof

/-- The 107 instructions: 59 of R266, 15 of R580, 33 of R633. -/
inductive Instr where
  -- register-register, R266
  | add (xd xs1 xs2 : Reg)
  | sub (xd xs1 xs2 : Reg)
  | sll (xd xs1 xs2 : Reg)
  | slt (xd xs1 xs2 : Reg)
  | sltu (xd xs1 xs2 : Reg)
  | xor (xd xs1 xs2 : Reg)
  | srl (xd xs1 xs2 : Reg)
  | sra (xd xs1 xs2 : Reg)
  | or (xd xs1 xs2 : Reg)
  | and (xd xs1 xs2 : Reg)
  -- register-immediate; `imm` is `ins[31:20]` (R255), `shamt` is `ins[25:20]` (R261)
  | addi (xd xs1 : Reg) (imm : BitVec 12)
  | slti (xd xs1 : Reg) (imm : BitVec 12)
  | sltiu (xd xs1 : Reg) (imm : BitVec 12)
  | xori (xd xs1 : Reg) (imm : BitVec 12)
  | ori (xd xs1 : Reg) (imm : BitVec 12)
  | andi (xd xs1 : Reg) (imm : BitVec 12)
  | slli (xd xs1 : Reg) (shamt : BitVec 6)
  | srli (xd xs1 : Reg) (shamt : BitVec 6)
  | srai (xd xs1 : Reg) (shamt : BitVec 6)
  -- upper immediate; `imm` is `ins[31:12]` (R258)
  | lui (xd : Reg) (imm : BitVec 20)
  | auipc (xd : Reg) (imm : BitVec 20)
  -- jumps and branches; `imm` is the offset without its bit 0 (R257, R259)
  | jal (xd : Reg) (imm : BitVec 20)
  | jalr (xd xs1 : Reg) (imm : BitVec 12)
  | beq (xs1 xs2 : Reg) (imm : BitVec 12)
  | bne (xs1 xs2 : Reg) (imm : BitVec 12)
  | blt (xs1 xs2 : Reg) (imm : BitVec 12)
  | bge (xs1 xs2 : Reg) (imm : BitVec 12)
  | bltu (xs1 xs2 : Reg) (imm : BitVec 12)
  | bgeu (xs1 xs2 : Reg) (imm : BitVec 12)
  -- loads and stores (R255, R256)
  | lb (xd xs1 : Reg) (imm : BitVec 12)
  | lh (xd xs1 : Reg) (imm : BitVec 12)
  | lw (xd xs1 : Reg) (imm : BitVec 12)
  | ld (xd xs1 : Reg) (imm : BitVec 12)
  | lbu (xd xs1 : Reg) (imm : BitVec 12)
  | lhu (xd xs1 : Reg) (imm : BitVec 12)
  | sb (xs1 xs2 : Reg) (imm : BitVec 12)
  | sh (xs1 xs2 : Reg) (imm : BitVec 12)
  | sw (xs1 xs2 : Reg) (imm : BitVec 12)
  | sd (xs1 xs2 : Reg) (imm : BitVec 12)
  -- ordering (R262)
  | fence (fm pred succ : BitVec 4) (xs1 xd : Reg)
  | fenceTso (xs1 xd : Reg)
  -- fixed words (R264)
  | ecall
  | ebreak
  | mret
  | wfi
  -- CSR access (R263)
  | csrrw (xd : Reg) (csr : CsrAddr) (xs1 : Reg)
  | csrrs (xd : Reg) (csr : CsrAddr) (xs1 : Reg)
  | csrrc (xd : Reg) (csr : CsrAddr) (xs1 : Reg)
  | csrrwi (xd : Reg) (csr : CsrAddr) (uimm : BitVec 5)
  | csrrsi (xd : Reg) (csr : CsrAddr) (uimm : BitVec 5)
  | csrrci (xd : Reg) (csr : CsrAddr) (uimm : BitVec 5)
  -- multiply and divide
  | mul (xd xs1 xs2 : Reg)
  | mulh (xd xs1 xs2 : Reg)
  | mulhsu (xd xs1 xs2 : Reg)
  | mulhu (xd xs1 xs2 : Reg)
  | div (xd xs1 xs2 : Reg)
  | divu (xd xs1 xs2 : Reg)
  | rem (xd xs1 xs2 : Reg)
  | remu (xd xs1 xs2 : Reg)
  -- RV64 word instructions, R580
  | addiw (xd xs1 : Reg) (imm : BitVec 12)
  | slliw (xd xs1 : Reg) (shamt : BitVec 5)
  | srliw (xd xs1 : Reg) (shamt : BitVec 5)
  | sraiw (xd xs1 : Reg) (shamt : BitVec 5)
  | addw (xd xs1 xs2 : Reg)
  | subw (xd xs1 xs2 : Reg)
  | sllw (xd xs1 xs2 : Reg)
  | srlw (xd xs1 xs2 : Reg)
  | sraw (xd xs1 xs2 : Reg)
  | lwu (xd xs1 : Reg) (imm : BitVec 12)
  | mulw (xd xs1 xs2 : Reg)
  | divw (xd xs1 xs2 : Reg)
  | divuw (xd xs1 xs2 : Reg)
  | remw (xd xs1 xs2 : Reg)
  | remuw (xd xs1 xs2 : Reg)
  -- compressed, quadrant 0
  /-- `imm` is `nzuimm[9:2]` (R600). -/
  | cAddi4spn (xd : CReg) (imm : BitVec 8)
  /-- `imm` is `uimm[6:2]` (R601). -/
  | cLw (xd xs1 : CReg) (imm : BitVec 5)
  /-- `imm` is `uimm[7:3]` (R602). -/
  | cLd (xd xs1 : CReg) (imm : BitVec 5)
  /-- `imm` is `uimm[6:2]` (R603). -/
  | cSw (xs1 xs2 : CReg) (imm : BitVec 5)
  /-- `imm` is `uimm[7:3]` (R604). -/
  | cSd (xs1 xs2 : CReg) (imm : BitVec 5)
  -- compressed, quadrant 1
  | cNop (imm : BitVec 6)
  | cAddi (xd : Reg) (imm : BitVec 6)
  | cAddiw (xd : Reg) (imm : BitVec 6)
  | cLi (xd : Reg) (imm : BitVec 6)
  /-- `imm` is `nzimm[9:4]` (R609). -/
  | cAddi16sp (imm : BitVec 6)
  /-- `imm` is `nzimm[17:12]` (R610). -/
  | cLui (xd : Reg) (imm : BitVec 6)
  | cSrli (xd : CReg) (shamt : BitVec 6)
  | cSrai (xd : CReg) (shamt : BitVec 6)
  | cAndi (xd : CReg) (imm : BitVec 6)
  | cSub (xd xs2 : CReg)
  | cXor (xd xs2 : CReg)
  | cOr (xd xs2 : CReg)
  | cAnd (xd xs2 : CReg)
  | cSubw (xd xs2 : CReg)
  | cAddw (xd xs2 : CReg)
  /-- `imm` is `offset[11:1]` (R620). -/
  | cJ (imm : BitVec 11)
  /-- `imm` is `offset[8:1]` (R621). -/
  | cBeqz (xs1 : CReg) (imm : BitVec 8)
  /-- `imm` is `offset[8:1]` (R622). -/
  | cBnez (xs1 : CReg) (imm : BitVec 8)
  -- compressed, quadrant 2
  | cSlli (xd : Reg) (shamt : BitVec 6)
  /-- `imm` is `uimm[7:2]` (R624). -/
  | cLwsp (xd : Reg) (imm : BitVec 6)
  | cEbreak
  /-- `imm` is `uimm[8:3]` (R626). -/
  | cLdsp (xd : Reg) (imm : BitVec 6)
  | cJr (xs1 : Reg)
  | cMv (xd xs2 : Reg)
  | cJalr (xs1 : Reg)
  | cAdd (xd xs2 : Reg)
  /-- `imm` is `uimm[7:2]` (R631). -/
  | cSwsp (xs2 : Reg) (imm : BitVec 6)
  /-- `imm` is `uimm[8:3]` (R632). -/
  | cSdsp (xs2 : Reg) (imm : BitVec 6)
  deriving DecidableEq, Repr

end Sys2Proof
end

