-- ==== Sys2Proof/Config.lean ====
section
/-! DEFINITION. What one implementation fixes (spec/00_scope.md R9 to R15): the parameters of the hart as one record of
plain data, and the free values, opaque constants with no body. The six parameters the certificate fixes (R12) are
constants of the model and have no field: MXLEN 64, little-endian, sequential_bytes, precise exceptions, and both
`ecall` and `ebreak` trap. -/

namespace Sys2Proof

/-- `MISALIGNED_LDST_EXCEPTION_PRIORITY` (R11, R211). -/
inductive MisalignedPriority where
  | low
  | high
  deriving DecidableEq, Repr

/-- `mtvec.MODE` (R130): 0 Direct, 1 Vectored. -/
inductive VecMode where
  | direct
  | vectored
  deriving DecidableEq, Repr

/-- `MTVEC_ACCESS` (R13, R133). -/
inductive MtvecAccess where
  | ro
  | rw
  deriving DecidableEq, Repr

/-- `MTVEC_ILLEGAL_WRITE_BEHAVIOR` (R13, R131). -/
inductive MtvecIllegalWrite where
  | retain
  | custom
  deriving DecidableEq, Repr

/-- What `C_DECODE` gives a halfword that its changes do not name: the row of R633, or nothing. -/
inductive CTable where
  | standard
  | nothing
  deriving DecidableEq, Repr

/-- `C_DECODE` (R450), a function from halfwords to an instruction or nothing, as plain data: a table, and the halfwords
whose value differs from it, of which the first entry decides. The halfwords are finitely many, so every function can be
written so (notes/assumptions/6.md). -/
structure CDecode where
  table   : CTable
  changes : List (BitVec 16 × Option Instr)
  deriving DecidableEq, Repr

/-- `HALT_PREDICATE` (R560): never; the spec's default, a jump to itself that no interrupt leaves; or any other predicate
on the state, the `n`-th of the opaque family `Config.haltPredicate` (notes/assumptions/7.md). -/
inductive HaltRule where
  | never
  | selfLoop
  | other (n : Nat)
  deriving DecidableEq, Repr

/-- Where the inputs of a step come from that the list in the state does not give: the spec's defaults (R175, R186, R490),
or the `n`-th of the opaque families `Config.laterWire`, `Config.laterMtime`, `Config.laterCycles`, any sequences at all
(notes/assumptions/8.md). -/
inductive LaterInputs where
  | defaults
  | source (n : Nat)
  deriving DecidableEq, Repr

/-- The kind of a memory region (R220); `io` carries the number of its device. -/
inductive RegionKind where
  | ram
  | io (device : Nat)
  | vacant
  deriving DecidableEq, Repr

/-- The misaligned-atomicity-granule attribute `MAG` of an address (R212, R220). -/
inductive Mag where
  | none
  | mag2
  | mag4
  | mag8
  | mag16
  deriving DecidableEq, Repr

/-- What `MEMORY_MAP` says of one address (R220). -/
structure Attr where
  kind : RegionKind
  mag  : Mag
  deriving DecidableEq, Repr

/-- One region of `MEMORY_MAP`: the addresses `base` to `base + size - 1`. -/
structure Region where
  base : Nat
  size : Nat
  attr : Attr
  deriving DecidableEq, Repr

/-- `MEMORY_MAP` (R220): the first region that holds an address decides; `elsewhere` is for addresses in no region. -/
structure MemoryMap where
  regions   : List Region
  elsewhere : Attr
  deriving DecidableEq, Repr

/-- The three interrupt wires and the three bits they set: bits 11, 7 and 3 of `mip` and `mie` (R52, R106, R111). -/
structure IrqBits where
  mei : Bool
  mti : Bool
  msi : Bool
  deriving DecidableEq, Repr

/-- The parameters of an implementation, constant over a run (R9). -/
structure Config where
  /-- `M_IMPLEMENTED` (R10). -/
  mImplemented : Bool
  /-- `ZICNTR_IMPLEMENTED` (R10). -/
  zicntrImplemented : Bool
  /-- `ARCH_ID_VALUE` (R162). -/
  archIdValue : Word
  /-- `IMP_ID_VALUE` (R164). -/
  impIdValue : Word
  /-- `MISALIGNED_LDST` (R210). -/
  misalignedLdst : Bool
  /-- `MISALIGNED_LDST_EXCEPTION_PRIORITY` (R211). -/
  misalignedPriority : MisalignedPriority
  /-- `MISALIGNED_MAX_ATOMICITY_GRANULE_SIZE` (R212). -/
  misalignedGranule : Nat
  /-- `MISA_CSR_IMPLEMENTED` (R100). -/
  misaCsrImplemented : Bool
  /-- `MTVAL_WIDTH` (R152). -/
  mtvalWidth : Nat
  /-- The exponent of `MTVEC_BASE_ALIGNMENT_DIRECT`, a power of two (R132). -/
  mtvecAlignDirect : Nat
  /-- The exponent of `MTVEC_BASE_ALIGNMENT_VECTORED`, a power of two (R132). -/
  mtvecAlignVectored : Nat
  /-- 0 is an element of `MTVEC_MODES` (R131). -/
  mtvecDirectOk : Bool
  /-- 1 is an element of `MTVEC_MODES` (R131). -/
  mtvecVectoredOk : Bool
  /-- `PHYS_ADDR_WIDTH` (R206). -/
  physAddrWidth : Nat
  /-- `TIME_CSR_IMPLEMENTED` (R185). -/
  timeCsrImplemented : Bool
  /-- `VENDOR_ID_BANK` (R160). -/
  vendorIdBank : BitVec 25
  /-- `VENDOR_ID_OFFSET` (R160). -/
  vendorIdOffset : BitVec 7
  /-- `COUNTINHIBIT_EN[0]` (R170); the other elements but [2] are false in every legal configuration (R171). -/
  countinhibitCy : Bool
  /-- `COUNTINHIBIT_EN[2]` (R170). -/
  countinhibitIr : Bool
  /-- `MARCHID_IMPLEMENTED` (R162). -/
  marchidImplemented : Bool
  /-- `MIMPID_IMPLEMENTED` (R164). -/
  mimpidImplemented : Bool
  /-- `MTVEC_ACCESS` (R133). -/
  mtvecAccess : MtvecAccess
  /-- `MTVEC_ILLEGAL_WRITE_BEHAVIOR` (R131). -/
  mtvecIllegalWrite : MtvecIllegalWrite
  /-- `PMA_GRANULARITY` (R13); no rule reads it, only its range is checked at launch. -/
  pmaGranularity : Nat
  /-- `REPORT_ENCODING_IN_MTVAL_ON_ILLEGAL_INSTRUCTION` (R13, R478). -/
  reportEncodingIllegal : Bool
  /-- `REPORT_VA_IN_MTVAL_ON_BREAKPOINT`. -/
  reportVaBreakpoint : Bool
  /-- `REPORT_VA_IN_MTVAL_ON_INSTRUCTION_ACCESS_FAULT`. -/
  reportVaFetchFault : Bool
  /-- `REPORT_VA_IN_MTVAL_ON_INSTRUCTION_MISALIGNED`; only `mtval_readonly?` reads it (R473). -/
  reportVaFetchMisaligned : Bool
  /-- `REPORT_VA_IN_MTVAL_ON_LOAD_ACCESS_FAULT`. -/
  reportVaLoadFault : Bool
  /-- `REPORT_VA_IN_MTVAL_ON_LOAD_MISALIGNED`. -/
  reportVaLoadMisaligned : Bool
  /-- `REPORT_VA_IN_MTVAL_ON_STORE_AMO_ACCESS_FAULT`. -/
  reportVaStoreFault : Bool
  /-- `REPORT_VA_IN_MTVAL_ON_STORE_AMO_MISALIGNED`. -/
  reportVaStoreMisaligned : Bool
  /-- `TRAP_ON_ILLEGAL_WLRL` (R142). -/
  trapOnIllegalWlrl : Bool
  /-- `TRAP_ON_RESERVED_INSTRUCTION` (R280). -/
  trapOnReserved : Bool
  /-- `TRAP_ON_UNIMPLEMENTED_CSR` (R411). -/
  trapOnUnimplementedCsr : Bool
  /-- `TRAP_ON_UNIMPLEMENTED_INSTRUCTION` (R280). -/
  trapOnUnimplementedInstr : Bool
  /-- `RESET_PC` (R541). -/
  resetPc : Word
  /-- `MEMORY_MAP` (R220). -/
  memoryMap : MemoryMap
  /-- `ACCESS_CHECK_SIZE_IN_BITS` (R206). -/
  accessCheckSizeInBits : Bool
  /-- `C_DECODE` (R450). -/
  cDecode : CDecode
  /-- `RV64_WORD_OPS` (R580). -/
  rv64WordOps : Bool
  /-- `HART_ID` (R166). -/
  hartId : Word
  /-- `HALT_PREDICATE` (R560). -/
  haltRule : HaltRule
  /-- `INTERRUPT_INPUTS`, `MTIME_SOURCE` and `CYCLES_PER_STEP` (R490, R186, R175) after the list in the state. -/
  laterInputs : LaterInputs
  /-- `MTVEC_RESET_MODE` (R543). -/
  mtvecResetMode : VecMode
  /-- Bit 22, `TSR`, is in `MSTATUS_EXTRA_WRITABLE` (R94). -/
  tsrWritable : Bool
  /-- Bit 21, `TW`, is in `MSTATUS_EXTRA_WRITABLE` (R94). -/
  twWritable : Bool
  /-- Bit 19, `MXR`, is in `MSTATUS_EXTRA_WRITABLE` (R94). -/
  mxrWritable : Bool
  /-- `MIE_WRITABLE_MASK`, a subset of 0x888 (R106). -/
  mieWritable : IrqBits
  /-- `MCAUSE_LEGAL_EXCEPTION_CODES` (R144). -/
  mcauseLegalExceptions : List Nat
  /-- `MCAUSE_LEGAL_INTERRUPT_CODES` (R144). -/
  mcauseLegalInterrupts : List Nat
  deriving DecidableEq, Repr

/-- Free value (R561, 93_implementation_defined.md U13): what the device answers when the hart reads `size` bytes at
`address` of an `io` region; `k` is the number of accesses to `io` regions made before this one. Only the low
`size` bytes are used. Log entry notes/assumptions/9.md. -/
opaque Config.ioReadValue (k address size : Nat) : Word

/-- Free value (R131, 93_implementation_defined.md U6): what `MTVEC_CUSTOM_WRITE` makes of the old `mtvec` and an illegal
written value. Log entry notes/assumptions/10.md. -/
opaque Config.mtvecCustomWrite (old written : Word) : Word

/-- `INTERRUPT_INPUTS` (R490) as an uninterpreted parameter: the level of the wire with interrupt code `code` at step `k`
of the run `n`. Log entry notes/assumptions/8.md. -/
opaque Config.laterWire (n k code : Nat) : Bool

/-- `MTIME_SOURCE` (R186) as an uninterpreted parameter, at step `k` of the run `n`. Log entry notes/assumptions/8.md. -/
opaque Config.laterMtime (n k : Nat) : Word

/-- `CYCLES_PER_STEP` (R175) as an uninterpreted parameter, at step `k` of the run `n`. Log entry
notes/assumptions/8.md. -/
opaque Config.laterCycles (n k : Nat) : Nat

/-- The implementation that `State.reset` describes: the spec's default for every parameter that has one, all memory
`ram`, every `TRAP_ON_*` and `REPORT_*` parameter true, and for the rest the values of Configuration T of
spec/95_test_vectors.md. DESIGN CHOICE (notes/assumptions/1.md): the spec leaves each of them to the implementation. -/
def Config.standard : Config where
  mImplemented := true
  zicntrImplemented := true
  archIdValue := 0
  impIdValue := 0
  misalignedLdst := false
  misalignedPriority := .high
  misalignedGranule := 0
  misaCsrImplemented := true
  mtvalWidth := 64
  mtvecAlignDirect := 2
  mtvecAlignVectored := 2
  mtvecDirectOk := true
  mtvecVectoredOk := true
  physAddrWidth := 64
  timeCsrImplemented := true
  vendorIdBank := 0
  vendorIdOffset := 0
  countinhibitCy := true
  countinhibitIr := true
  marchidImplemented := true
  mimpidImplemented := true
  mtvecAccess := .rw
  mtvecIllegalWrite := .retain
  pmaGranularity := 2
  reportEncodingIllegal := true
  reportVaBreakpoint := true
  reportVaFetchFault := true
  reportVaFetchMisaligned := true
  reportVaLoadFault := true
  reportVaLoadMisaligned := true
  reportVaStoreFault := true
  reportVaStoreMisaligned := true
  trapOnIllegalWlrl := true
  trapOnReserved := true
  trapOnUnimplementedCsr := true
  trapOnUnimplementedInstr := true
  resetPc := 0x80000000
  memoryMap := { regions := [], elsewhere := { kind := .ram, mag := .none } }
  accessCheckSizeInBits := false
  cDecode := { table := .standard, changes := [] }
  rv64WordOps := true
  hartId := 0
  haltRule := .never
  laterInputs := .defaults
  mtvecResetMode := .direct
  tsrWritable := false
  twWritable := false
  mxrWritable := false
  mieWritable := { mei := true, mti := true, msi := true }
  mcauseLegalExceptions := [0, 1, 2, 3, 4, 5, 6, 7, 8, 9, 11, 12, 13, 15]
  mcauseLegalInterrupts := [1, 3, 5, 7, 9, 11, 13]

end Sys2Proof
end

