-- ==== Sys2Proof/WellFormed.lean ====
section
/-! DEFINITION. Which terms of `Instr` are instructions: the conditions that the encodings put on their operand fields.
A term that fails a check has no encoding of its own, its bits are another instruction or none. -/

namespace Sys2Proof

/-- The checks, one per encoding with a condition: `fence` is not the word of `fence.tso` (R270); the non-zero fields
of R600, R606, R607, R609, R610, R624, R626 to R630. Hint code points (R635) are well-formed. -/
def Instr.wellFormed : Instr → Bool
  | .fence fm pred succ _ _ => !(fm == 8 && pred == 3 && succ == 3)
  | .cAddi4spn _ imm => imm != 0
  | .cAddi xd _ => xd != 0
  | .cAddiw xd _ => xd != 0
  | .cAddi16sp imm => imm != 0
  | .cLui xd imm => xd != 2 && imm != 0
  | .cLwsp xd _ => xd != 0
  | .cLdsp xd _ => xd != 0
  | .cJr xs1 => xs1 != 0
  | .cMv _ xs2 => xs2 != 0
  | .cJalr xs1 => xs1 != 0
  | .cAdd _ xs2 => xs2 != 0
  | .add _ _ _ | .sub _ _ _ | .sll _ _ _ | .slt _ _ _ | .sltu _ _ _ | .xor _ _ _ | .srl _ _ _ | .sra _ _ _
  | .or _ _ _ | .and _ _ _ | .addi _ _ _ | .slti _ _ _ | .sltiu _ _ _ | .xori _ _ _ | .ori _ _ _ | .andi _ _ _
  | .slli _ _ _ | .srli _ _ _ | .srai _ _ _ | .lui _ _ | .auipc _ _ | .jal _ _ | .jalr _ _ _ | .beq _ _ _
  | .bne _ _ _ | .blt _ _ _ | .bge _ _ _ | .bltu _ _ _ | .bgeu _ _ _ | .lb _ _ _ | .lh _ _ _ | .lw _ _ _
  | .ld _ _ _ | .lbu _ _ _ | .lhu _ _ _ | .sb _ _ _ | .sh _ _ _ | .sw _ _ _ | .sd _ _ _ | .fenceTso _ _
  | .ecall | .ebreak | .mret | .wfi | .csrrw _ _ _ | .csrrs _ _ _ | .csrrc _ _ _ | .csrrwi _ _ _ | .csrrsi _ _ _
  | .csrrci _ _ _ | .mul _ _ _ | .mulh _ _ _ | .mulhsu _ _ _ | .mulhu _ _ _ | .div _ _ _ | .divu _ _ _
  | .rem _ _ _ | .remu _ _ _ | .addiw _ _ _ | .slliw _ _ _ | .srliw _ _ _ | .sraiw _ _ _ | .addw _ _ _
  | .subw _ _ _ | .sllw _ _ _ | .srlw _ _ _ | .sraw _ _ _ | .lwu _ _ _ | .mulw _ _ _ | .divw _ _ _ | .divuw _ _ _
  | .remw _ _ _ | .remuw _ _ _ | .cLw _ _ _ | .cLd _ _ _ | .cSw _ _ _ | .cSd _ _ _ | .cNop _ | .cLi _ _
  | .cSrli _ _ | .cSrai _ _ | .cAndi _ _ | .cSub _ _ | .cXor _ _ | .cOr _ _ | .cAnd _ _ | .cSubw _ _ | .cAddw _ _
  | .cJ _ | .cBeqz _ _ | .cBnez _ _ | .cSlli _ _ | .cEbreak | .cSwsp _ _ | .cSdsp _ _ => true

end Sys2Proof
end

