-- ==== Sys2Proof/Decode.lean ====
section
/-! DEFINITION. Decoding and encoding (spec/30_encoding.md R250 to R280, spec/47_compressed.md R600 to R633,
spec/48_rv64_word_ops.md R580). Decoding is total on any bytes and rejects by name; the encoder after it writes the
word of an instruction from the same tables. -/

namespace Sys2Proof

/-- `sext_N(v)` of R21: sign extension to 64 bits. -/
abbrev sext {n : Nat} (v : BitVec n) : Word := v.signExtend 64

/-- `zext_N(v)` of R21: zero extension to 64 bits. -/
abbrev zext {n : Nat} (v : BitVec n) : Word := v.setWidth 64

/-- The bits of one instruction as fetched: a 16-bit halfword or a 32-bit word (R250). -/
inductive Raw where
  | half (h : BitVec 16)
  | word (w : BitVec 32)
  deriving DecidableEq, Repr

/-- The length of an instruction in bytes. -/
def Raw.length : Raw → Nat
  | .half _ => 2
  | .word _ => 4

/-- `ins`, the encoding as a 64-bit value: zero-extended, above a halfword too (R20, R451). -/
def Raw.toWord : Raw → Word
  | .half h => zext h
  | .word w => zext w

/-- Why bytes are no instruction: bits that match nothing (R280), or too few bytes for the length that the first
halfword announces. -/
inductive DecodeError where
  | unimplemented (raw : Raw)
  | truncated
  deriving DecidableEq, Repr

/-! ## Fields of a 32-bit encoding (R253, R254) -/

def opcodeOf (w : BitVec 32) : BitVec 7 := w.extractLsb' 0 7
def xdOf (w : BitVec 32) : Reg := w.extractLsb' 7 5
def funct3Of (w : BitVec 32) : BitVec 3 := w.extractLsb' 12 3
def xs1Of (w : BitVec 32) : Reg := w.extractLsb' 15 5
def xs2Of (w : BitVec 32) : Reg := w.extractLsb' 20 5
def funct7Of (w : BitVec 32) : BitVec 7 := w.extractLsb' 25 7
def funct6Of (w : BitVec 32) : BitVec 6 := w.extractLsb' 26 6
def shamt6Of (w : BitVec 32) : BitVec 6 := w.extractLsb' 20 6

/-- The I-immediate, also the CSR address (R255, R263). -/
def iImmOf (w : BitVec 32) : BitVec 12 := w.extractLsb' 20 12

/-- The S-immediate (R256). -/
def sImmOf (w : BitVec 32) : BitVec 12 := w.extractLsb' 25 7 ++ w.extractLsb' 7 5

/-- The B-immediate without its bit 0: `imm[12:1]` (R257). -/
def bImmOf (w : BitVec 32) : BitVec 12 :=
  w.extractLsb' 31 1 ++ w.extractLsb' 7 1 ++ w.extractLsb' 25 6 ++ w.extractLsb' 8 4

/-- The U-immediate without its twelve zeros: `imm[31:12]` (R258). -/
def uImmOf (w : BitVec 32) : BitVec 20 := w.extractLsb' 12 20

/-- The J-immediate without its bit 0: `imm[20:1]` (R259). -/
def jImmOf (w : BitVec 32) : BitVec 20 :=
  w.extractLsb' 31 1 ++ w.extractLsb' 12 8 ++ w.extractLsb' 20 1 ++ w.extractLsb' 21 10

/-! ## Decoding 32-bit words (R265, R266, R580) -/

/-- Opcode 0110011, OP: the rows of I and of M. -/
def decodeOp (w : BitVec 32) : Option Instr :=
  if funct7Of w = 0 then
    if funct3Of w = 0 then some (.add (xdOf w) (xs1Of w) (xs2Of w))
    else if funct3Of w = 1 then some (.sll (xdOf w) (xs1Of w) (xs2Of w))
    else if funct3Of w = 2 then some (.slt (xdOf w) (xs1Of w) (xs2Of w))
    else if funct3Of w = 3 then some (.sltu (xdOf w) (xs1Of w) (xs2Of w))
    else if funct3Of w = 4 then some (.xor (xdOf w) (xs1Of w) (xs2Of w))
    else if funct3Of w = 5 then some (.srl (xdOf w) (xs1Of w) (xs2Of w))
    else if funct3Of w = 6 then some (.or (xdOf w) (xs1Of w) (xs2Of w))
    else if funct3Of w = 7 then some (.and (xdOf w) (xs1Of w) (xs2Of w))
    else none
  else if funct7Of w = 0x20 then
    if funct3Of w = 0 then some (.sub (xdOf w) (xs1Of w) (xs2Of w))
    else if funct3Of w = 5 then some (.sra (xdOf w) (xs1Of w) (xs2Of w))
    else none
  else if funct7Of w = 1 then
    if funct3Of w = 0 then some (.mul (xdOf w) (xs1Of w) (xs2Of w))
    else if funct3Of w = 1 then some (.mulh (xdOf w) (xs1Of w) (xs2Of w))
    else if funct3Of w = 2 then some (.mulhsu (xdOf w) (xs1Of w) (xs2Of w))
    else if funct3Of w = 3 then some (.mulhu (xdOf w) (xs1Of w) (xs2Of w))
    else if funct3Of w = 4 then some (.div (xdOf w) (xs1Of w) (xs2Of w))
    else if funct3Of w = 5 then some (.divu (xdOf w) (xs1Of w) (xs2Of w))
    else if funct3Of w = 6 then some (.rem (xdOf w) (xs1Of w) (xs2Of w))
    else if funct3Of w = 7 then some (.remu (xdOf w) (xs1Of w) (xs2Of w))
    else none
  else none

/-- Opcode 0010011, OP-IMM; the shifts also fix `ins[31:26]` (R261). -/
def decodeOpImm (w : BitVec 32) : Option Instr :=
  if funct3Of w = 0 then some (.addi (xdOf w) (xs1Of w) (iImmOf w))
  else if funct3Of w = 2 then some (.slti (xdOf w) (xs1Of w) (iImmOf w))
  else if funct3Of w = 3 then some (.sltiu (xdOf w) (xs1Of w) (iImmOf w))
  else if funct3Of w = 4 then some (.xori (xdOf w) (xs1Of w) (iImmOf w))
  else if funct3Of w = 6 then some (.ori (xdOf w) (xs1Of w) (iImmOf w))
  else if funct3Of w = 7 then some (.andi (xdOf w) (xs1Of w) (iImmOf w))
  else if funct3Of w = 1 ∧ funct6Of w = 0 then some (.slli (xdOf w) (xs1Of w) (shamt6Of w))
  else if funct3Of w = 5 ∧ funct6Of w = 0 then some (.srli (xdOf w) (xs1Of w) (shamt6Of w))
  else if funct3Of w = 5 ∧ funct6Of w = 0x10 then some (.srai (xdOf w) (xs1Of w) (shamt6Of w))
  else none

/-- Opcode 0000011, LOAD; `lwu` is a row of R580. -/
def decodeLoad (w : BitVec 32) : Option Instr :=
  if funct3Of w = 0 then some (.lb (xdOf w) (xs1Of w) (iImmOf w))
  else if funct3Of w = 1 then some (.lh (xdOf w) (xs1Of w) (iImmOf w))
  else if funct3Of w = 2 then some (.lw (xdOf w) (xs1Of w) (iImmOf w))
  else if funct3Of w = 3 then some (.ld (xdOf w) (xs1Of w) (iImmOf w))
  else if funct3Of w = 4 then some (.lbu (xdOf w) (xs1Of w) (iImmOf w))
  else if funct3Of w = 5 then some (.lhu (xdOf w) (xs1Of w) (iImmOf w))
  else if funct3Of w = 6 then some (.lwu (xdOf w) (xs1Of w) (iImmOf w))
  else none

/-- Opcode 0100011, STORE. -/
def decodeStore (w : BitVec 32) : Option Instr :=
  if funct3Of w = 0 then some (.sb (xs1Of w) (xs2Of w) (sImmOf w))
  else if funct3Of w = 1 then some (.sh (xs1Of w) (xs2Of w) (sImmOf w))
  else if funct3Of w = 2 then some (.sw (xs1Of w) (xs2Of w) (sImmOf w))
  else if funct3Of w = 3 then some (.sd (xs1Of w) (xs2Of w) (sImmOf w))
  else none

/-- Opcode 1100011, BRANCH. -/
def decodeBranch (w : BitVec 32) : Option Instr :=
  if funct3Of w = 0 then some (.beq (xs1Of w) (xs2Of w) (bImmOf w))
  else if funct3Of w = 1 then some (.bne (xs1Of w) (xs2Of w) (bImmOf w))
  else if funct3Of w = 4 then some (.blt (xs1Of w) (xs2Of w) (bImmOf w))
  else if funct3Of w = 5 then some (.bge (xs1Of w) (xs2Of w) (bImmOf w))
  else if funct3Of w = 6 then some (.bltu (xs1Of w) (xs2Of w) (bImmOf w))
  else if funct3Of w = 7 then some (.bgeu (xs1Of w) (xs2Of w) (bImmOf w))
  else none

/-- Opcode 0001111, MISC-MEM: the more specific `fence.tso` first (R270). -/
def decodeMiscMem (w : BitVec 32) : Option Instr :=
  if funct3Of w = 0 then
    if w.extractLsb' 28 4 = 8 ∧ w.extractLsb' 24 4 = 3 ∧ w.extractLsb' 20 4 = 3 then
      some (.fenceTso (xs1Of w) (xdOf w))
    else
      some (.fence (w.extractLsb' 28 4) (w.extractLsb' 24 4) (w.extractLsb' 20 4) (xs1Of w) (xdOf w))
  else none

/-- Opcode 1110011, SYSTEM: the six CSR instructions (R263) and four fixed words (R264). -/
def decodeSystem (w : BitVec 32) : Option Instr :=
  if funct3Of w = 1 then some (.csrrw (xdOf w) (iImmOf w) (xs1Of w))
  else if funct3Of w = 2 then some (.csrrs (xdOf w) (iImmOf w) (xs1Of w))
  else if funct3Of w = 3 then some (.csrrc (xdOf w) (iImmOf w) (xs1Of w))
  else if funct3Of w = 5 then some (.csrrwi (xdOf w) (iImmOf w) (xs1Of w))
  else if funct3Of w = 6 then some (.csrrsi (xdOf w) (iImmOf w) (xs1Of w))
  else if funct3Of w = 7 then some (.csrrci (xdOf w) (iImmOf w) (xs1Of w))
  else if w = 0x00000073 then some .ecall
  else if w = 0x00100073 then some .ebreak
  else if w = 0x30200073 then some .mret
  else if w = 0x10500073 then some .wfi
  else none

/-- Opcode 0011011, OP-IMM-32 (R580). -/
def decodeOpImm32 (w : BitVec 32) : Option Instr :=
  if funct3Of w = 0 then some (.addiw (xdOf w) (xs1Of w) (iImmOf w))
  else if funct3Of w = 1 ∧ funct7Of w = 0 then some (.slliw (xdOf w) (xs1Of w) (xs2Of w))
  else if funct3Of w = 5 ∧ funct7Of w = 0 then some (.srliw (xdOf w) (xs1Of w) (xs2Of w))
  else if funct3Of w = 5 ∧ funct7Of w = 0x20 then some (.sraiw (xdOf w) (xs1Of w) (xs2Of w))
  else none

/-- Opcode 0111011, OP-32 (R580). -/
def decodeOp32 (w : BitVec 32) : Option Instr :=
  if funct7Of w = 0 then
    if funct3Of w = 0 then some (.addw (xdOf w) (xs1Of w) (xs2Of w))
    else if funct3Of w = 1 then some (.sllw (xdOf w) (xs1Of w) (xs2Of w))
    else if funct3Of w = 5 then some (.srlw (xdOf w) (xs1Of w) (xs2Of w))
    else none
  else if funct7Of w = 0x20 then
    if funct3Of w = 0 then some (.subw (xdOf w) (xs1Of w) (xs2Of w))
    else if funct3Of w = 5 then some (.sraw (xdOf w) (xs1Of w) (xs2Of w))
    else none
  else if funct7Of w = 1 then
    if funct3Of w = 0 then some (.mulw (xdOf w) (xs1Of w) (xs2Of w))
    else if funct3Of w = 4 then some (.divw (xdOf w) (xs1Of w) (xs2Of w))
    else if funct3Of w = 5 then some (.divuw (xdOf w) (xs1Of w) (xs2Of w))
    else if funct3Of w = 6 then some (.remw (xdOf w) (xs1Of w) (xs2Of w))
    else if funct3Of w = 7 then some (.remuw (xdOf w) (xs1Of w) (xs2Of w))
    else none
  else none

/-- The row that a 32-bit word matches, of R266 and R580 together (R275). -/
def decodeWord (w : BitVec 32) : Option Instr :=
  if opcodeOf w = 0x33 then decodeOp w
  else if opcodeOf w = 0x13 then decodeOpImm w
  else if opcodeOf w = 0x03 then decodeLoad w
  else if opcodeOf w = 0x23 then decodeStore w
  else if opcodeOf w = 0x63 then decodeBranch w
  else if opcodeOf w = 0x37 then some (.lui (xdOf w) (uImmOf w))
  else if opcodeOf w = 0x17 then some (.auipc (xdOf w) (uImmOf w))
  else if opcodeOf w = 0x6f then some (.jal (xdOf w) (jImmOf w))
  else if opcodeOf w = 0x67 then if funct3Of w = 0 then some (.jalr (xdOf w) (xs1Of w) (iImmOf w)) else none
  else if opcodeOf w = 0x0f then decodeMiscMem w
  else if opcodeOf w = 0x73 then decodeSystem w
  else if opcodeOf w = 0x1b then decodeOpImm32 w
  else if opcodeOf w = 0x3b then decodeOp32 w
  else none

/-! ## Fields of a 16-bit encoding (R453) -/

def cOpOf (h : BitVec 16) : BitVec 2 := h.extractLsb' 0 2
def cFunct3Of (h : BitVec 16) : BitVec 3 := h.extractLsb' 13 3
def cRdOf (h : BitVec 16) : Reg := h.extractLsb' 7 5
def cRs2Of (h : BitVec 16) : Reg := h.extractLsb' 2 5
def cRdPOf (h : BitVec 16) : CReg := h.extractLsb' 7 3
def cRs2POf (h : BitVec 16) : CReg := h.extractLsb' 2 3
def cBit12Of (h : BitVec 16) : BitVec 1 := h.extractLsb' 12 1

/-- The six-bit immediate of format CI: `h[12], h[6:2]`. -/
def cImm6Of (h : BitVec 16) : BitVec 6 := h.extractLsb' 12 1 ++ h.extractLsb' 2 5

/-- `nzuimm[9:2]` of `c.addi4spn` (R600). -/
def cAddi4spnImmOf (h : BitVec 16) : BitVec 8 :=
  h.extractLsb' 7 4 ++ h.extractLsb' 11 2 ++ h.extractLsb' 5 1 ++ h.extractLsb' 6 1

/-- `uimm[6:2]` of `c.lw` and `c.sw` (R601). -/
def cLwImmOf (h : BitVec 16) : BitVec 5 := h.extractLsb' 5 1 ++ h.extractLsb' 10 3 ++ h.extractLsb' 6 1

/-- `uimm[7:3]` of `c.ld` and `c.sd` (R602). -/
def cLdImmOf (h : BitVec 16) : BitVec 5 := h.extractLsb' 5 2 ++ h.extractLsb' 10 3

/-- `nzimm[9:4]` of `c.addi16sp` (R609). -/
def cAddi16spImmOf (h : BitVec 16) : BitVec 6 :=
  h.extractLsb' 12 1 ++ h.extractLsb' 3 2 ++ h.extractLsb' 5 1 ++ h.extractLsb' 2 1 ++ h.extractLsb' 6 1

/-- `offset[11:1]` of `c.j` (R620). -/
def cJImmOf (h : BitVec 16) : BitVec 11 :=
  h.extractLsb' 12 1 ++ h.extractLsb' 8 1 ++ h.extractLsb' 9 2 ++ h.extractLsb' 6 1 ++ h.extractLsb' 7 1
    ++ h.extractLsb' 2 1 ++ h.extractLsb' 11 1 ++ h.extractLsb' 3 3

/-- `offset[8:1]` of `c.beqz` and `c.bnez` (R621). -/
def cBImmOf (h : BitVec 16) : BitVec 8 :=
  h.extractLsb' 12 1 ++ h.extractLsb' 5 2 ++ h.extractLsb' 2 1 ++ h.extractLsb' 10 2 ++ h.extractLsb' 3 2

/-- `uimm[7:2]` of `c.lwsp` (R624). -/
def cLwspImmOf (h : BitVec 16) : BitVec 6 := h.extractLsb' 2 2 ++ h.extractLsb' 12 1 ++ h.extractLsb' 4 3

/-- `uimm[8:3]` of `c.ldsp` (R626). -/
def cLdspImmOf (h : BitVec 16) : BitVec 6 := h.extractLsb' 2 3 ++ h.extractLsb' 12 1 ++ h.extractLsb' 5 2

/-- `uimm[7:2]` of `c.swsp` (R631). -/
def cSwspImmOf (h : BitVec 16) : BitVec 6 := h.extractLsb' 7 2 ++ h.extractLsb' 9 4

/-- `uimm[8:3]` of `c.sdsp` (R632). -/
def cSdspImmOf (h : BitVec 16) : BitVec 6 := h.extractLsb' 7 3 ++ h.extractLsb' 10 3

/-! ## Decoding halfwords (R633) -/

/-- Quadrant 0. -/
def decodeQ0 (h : BitVec 16) : Option Instr :=
  if cFunct3Of h = 0 then
    if cAddi4spnImmOf h = 0 then none else some (.cAddi4spn (cRs2POf h) (cAddi4spnImmOf h))
  else if cFunct3Of h = 2 then some (.cLw (cRs2POf h) (cRdPOf h) (cLwImmOf h))
  else if cFunct3Of h = 3 then some (.cLd (cRs2POf h) (cRdPOf h) (cLdImmOf h))
  else if cFunct3Of h = 6 then some (.cSw (cRdPOf h) (cRs2POf h) (cLwImmOf h))
  else if cFunct3Of h = 7 then some (.cSd (cRdPOf h) (cRs2POf h) (cLdImmOf h))
  else none

/-- Quadrant 1, `h[15:13] = 100`: the shifts, `c.andi` and the register forms. -/
def decodeQ1Arith (h : BitVec 16) : Option Instr :=
  if h.extractLsb' 10 2 = 0 then some (.cSrli (cRdPOf h) (cImm6Of h))
  else if h.extractLsb' 10 2 = 1 then some (.cSrai (cRdPOf h) (cImm6Of h))
  else if h.extractLsb' 10 2 = 2 then some (.cAndi (cRdPOf h) (cImm6Of h))
  else if cBit12Of h = 0 then
    if h.extractLsb' 5 2 = 0 then some (.cSub (cRdPOf h) (cRs2POf h))
    else if h.extractLsb' 5 2 = 1 then some (.cXor (cRdPOf h) (cRs2POf h))
    else if h.extractLsb' 5 2 = 2 then some (.cOr (cRdPOf h) (cRs2POf h))
    else some (.cAnd (cRdPOf h) (cRs2POf h))
  else
    if h.extractLsb' 5 2 = 0 then some (.cSubw (cRdPOf h) (cRs2POf h))
    else if h.extractLsb' 5 2 = 1 then some (.cAddw (cRdPOf h) (cRs2POf h))
    else none

/-- Quadrant 1. -/
def decodeQ1 (h : BitVec 16) : Option Instr :=
  if cFunct3Of h = 0 then
    if cRdOf h = 0 then some (.cNop (cImm6Of h)) else some (.cAddi (cRdOf h) (cImm6Of h))
  else if cFunct3Of h = 1 then
    if cRdOf h = 0 then none else some (.cAddiw (cRdOf h) (cImm6Of h))
  else if cFunct3Of h = 2 then some (.cLi (cRdOf h) (cImm6Of h))
  else if cFunct3Of h = 3 then
    if cImm6Of h = 0 then none
    else if cRdOf h = 2 then some (.cAddi16sp (cAddi16spImmOf h))
    else some (.cLui (cRdOf h) (cImm6Of h))
  else if cFunct3Of h = 4 then decodeQ1Arith h
  else if cFunct3Of h = 5 then some (.cJ (cJImmOf h))
  else if cFunct3Of h = 6 then some (.cBeqz (cRdPOf h) (cBImmOf h))
  else some (.cBnez (cRdPOf h) (cBImmOf h))

/-- Quadrant 2. -/
def decodeQ2 (h : BitVec 16) : Option Instr :=
  if cFunct3Of h = 0 then some (.cSlli (cRdOf h) (cImm6Of h))
  else if cFunct3Of h = 2 then
    if cRdOf h = 0 then none else some (.cLwsp (cRdOf h) (cLwspImmOf h))
  else if cFunct3Of h = 3 then
    if cRdOf h = 0 then none else some (.cLdsp (cRdOf h) (cLdspImmOf h))
  else if cFunct3Of h = 4 then
    if cBit12Of h = 0 then
      if cRs2Of h = 0 then
        if cRdOf h = 0 then none else some (.cJr (cRdOf h))
      else some (.cMv (cRdOf h) (cRs2Of h))
    else
      if cRs2Of h = 0 then
        if cRdOf h = 0 then some .cEbreak else some (.cJalr (cRdOf h))
      else some (.cAdd (cRdOf h) (cRs2Of h))
  else if cFunct3Of h = 6 then some (.cSwsp (cRs2Of h) (cSwspImmOf h))
  else if cFunct3Of h = 7 then some (.cSdsp (cRs2Of h) (cSdspImmOf h))
  else none

/-- The row of R633 that a halfword reaches; quadrant 11 is no 16-bit instruction. -/
def decodeHalf (h : BitVec 16) : Option Instr :=
  if cOpOf h = 0 then decodeQ0 h
  else if cOpOf h = 1 then decodeQ1 h
  else if cOpOf h = 2 then decodeQ2 h
  else none

/-! ## Which rows a configuration enables -/

/-- The row belongs to extension M (R276, R580). -/
def Instr.needsM : Instr → Bool
  | .mul _ _ _ | .mulh _ _ _ | .mulhsu _ _ _ | .mulhu _ _ _ | .div _ _ _ | .divu _ _ _ | .rem _ _ _ | .remu _ _ _ => true
  | .mulw _ _ _ | .divw _ _ _ | .divuw _ _ _ | .remw _ _ _ | .remuw _ _ _ => true
  | _ => false

/-- The row exists only with `RV64_WORD_OPS` (R580, R607, R618, R619). -/
def Instr.needsWordOps : Instr → Bool
  | .addiw _ _ _ | .slliw _ _ _ | .srliw _ _ _ | .sraiw _ _ _ | .addw _ _ _ | .subw _ _ _ | .sllw _ _ _
  | .srlw _ _ _ | .sraw _ _ _ | .lwu _ _ _ | .mulw _ _ _ | .divw _ _ _ | .divuw _ _ _ | .remw _ _ _
  | .remuw _ _ _ | .cAddiw _ _ | .cSubw _ _ | .cAddw _ _ => true
  | _ => false

/-- Does the configuration have the instruction (R276, R580)? -/
def Instr.enabled (c : Config) (i : Instr) : Bool :=
  (!i.needsM || c.mImplemented) && (!i.needsWordOps || c.rv64WordOps)

/-- The value that a list of changes gives a halfword, if it names it. -/
def changeAt (l : List (BitVec 16 × Option Instr)) (h : BitVec 16) : Option (Option Instr) :=
  match l with
  | [] => none
  | (h', v) :: rest => if h' = h then some v else changeAt rest h

/-- `C_DECODE(h)` (R450). -/
def CDecode.apply (d : CDecode) (h : BitVec 16) : Option Instr :=
  match changeAt d.changes h with
  | some v => v
  | none =>
    match d.table with
    | .standard => decodeHalf h
    | .nothing => none

/-- The bits are read by the tables of the spec, no change of `C_DECODE` names them. -/
def Raw.byTable (c : Config) : Raw → Bool
  | .half h => c.cDecode.table == .standard && changeAt c.cDecode.changes h == none
  | .word _ => true

/-- The instruction that the bits name, be it enabled or not. -/
def decodeRow (d : CDecode) : Raw → Option Instr
  | .half h => d.apply h
  | .word w => decodeWord w

/-- R275: the instruction that fetched bits are under a configuration, or that they are unimplemented (R280). -/
def decode (c : Config) (r : Raw) : Except DecodeError Instr :=
  match decodeRow c.cDecode r with
  | some i => if i.enabled c then .ok i else .error (.unimplemented r)
  | none => .error (.unimplemented r)

/-! ## Bytes (R201, R251, R252) -/

/-- The length rule: bits 1:0 of the first halfword are 11 exactly for a 32-bit instruction (R252). -/
def isWordHalf (lo : BitVec 16) : Bool := cOpOf lo == 3

/-- Two bytes as a halfword, the byte at the lower address least significant (R201). -/
def halfOfBytes (b0 b1 : Byte) : BitVec 16 := b1 ++ b0

/-- Two halfwords as a word, the half at the lower address least significant (R201). -/
def wordOfHalves (lo hi : BitVec 16) : BitVec 32 := hi ++ lo

/-- The bits of the instruction at the head of a byte list, and the bytes after it. -/
def rawOfBytes : List Byte → Except DecodeError (Raw × List Byte)
  | b0 :: b1 :: rest =>
    if isWordHalf (halfOfBytes b0 b1) then
      match rest with
      | b2 :: b3 :: rest' => .ok (.word (wordOfHalves (halfOfBytes b0 b1) (halfOfBytes b2 b3)), rest')
      | _ => .error .truncated
    else .ok (.half (halfOfBytes b0 b1), rest)
  | _ => .error .truncated

/-- The instruction at the head of a byte list, and the bytes after it. -/
def decodeBytes (c : Config) (bs : List Byte) : Except DecodeError (Instr × List Byte) :=
  match rawOfBytes bs with
  | .error e => .error e
  | .ok (r, rest) =>
    match decode c r with
    | .error e => .error e
    | .ok i => .ok (i, rest)

/-- Byte `k` of the little-endian layout of a natural number. -/
def byteOf (v k : Nat) : Byte := BitVec.ofNat 8 (v / 256 ^ k)

/-- The four bytes that hold an instruction whose bits, numbered as spec/opcode_table.json numbers them, are
`w % 2 ^ nbits`, every bit above being 0. -/
def tableBytes (nbits w : Nat) : List Byte :=
  [byteOf (w % 2 ^ nbits) 0, byteOf (w % 2 ^ nbits) 1, byteOf (w % 2 ^ nbits) 2, byteOf (w % 2 ^ nbits) 3]

/-- The instruction that the decoder of the reset configuration reads from the bits of an opcode-table row. -/
def decodeTableWord (nbits w : Nat) : Option Instr :=
  match decodeBytes Config.standard (tableBytes nbits w) with
  | .ok (i, _) => some i
  | .error _ => none

/-! ## The encoder -/

def rWord (f7 : BitVec 7) (xs2 xs1 : Reg) (f3 : BitVec 3) (xd : Reg) (op : BitVec 7) : BitVec 32 :=
  f7 ++ xs2 ++ xs1 ++ f3 ++ xd ++ op

def iWord (imm : BitVec 12) (xs1 : Reg) (f3 : BitVec 3) (xd : Reg) (op : BitVec 7) : BitVec 32 :=
  imm ++ xs1 ++ f3 ++ xd ++ op

/-- The RV64 shift-immediate layout (R261). -/
def shiftWord (f6 : BitVec 6) (shamt : BitVec 6) (xs1 : Reg) (f3 : BitVec 3) (xd : Reg) (op : BitVec 7) : BitVec 32 :=
  f6 ++ shamt ++ xs1 ++ f3 ++ xd ++ op

def sWord (imm : BitVec 12) (xs2 xs1 : Reg) (f3 : BitVec 3) (op : BitVec 7) : BitVec 32 :=
  imm.extractLsb' 5 7 ++ xs2 ++ xs1 ++ f3 ++ imm.extractLsb' 0 5 ++ op

/-- The B layout; bit `k` of `imm` is bit `k + 1` of the offset (R254, R257). -/
def bWord (imm : BitVec 12) (xs2 xs1 : Reg) (f3 : BitVec 3) (op : BitVec 7) : BitVec 32 :=
  imm.extractLsb' 11 1 ++ imm.extractLsb' 4 6 ++ xs2 ++ xs1 ++ f3 ++ imm.extractLsb' 0 4 ++ imm.extractLsb' 10 1 ++ op

def uWord (imm : BitVec 20) (xd : Reg) (op : BitVec 7) : BitVec 32 :=
  imm ++ xd ++ op

/-- The J layout; bit `k` of `imm` is bit `k + 1` of the offset (R254, R259). -/
def jWord (imm : BitVec 20) (xd : Reg) (op : BitVec 7) : BitVec 32 :=
  imm.extractLsb' 19 1 ++ imm.extractLsb' 0 10 ++ imm.extractLsb' 10 1 ++ imm.extractLsb' 11 8 ++ xd ++ op

def fenceWord (fm pred succ : BitVec 4) (xs1 xd : Reg) : BitVec 32 :=
  fm ++ pred ++ succ ++ xs1 ++ (0 : BitVec 3) ++ xd ++ (0x0f : BitVec 7)

/-- Format CI. -/
def ciHalf (f3 : BitVec 3) (imm : BitVec 6) (rd : Reg) (op : BitVec 2) : BitVec 16 :=
  f3 ++ imm.extractLsb' 5 1 ++ rd ++ imm.extractLsb' 0 5 ++ op

/-- Format CR. -/
def crHalf (f4 : BitVec 4) (rd rs2 : Reg) (op : BitVec 2) : BitVec 16 :=
  f4 ++ rd ++ rs2 ++ op

/-- Format CA. -/
def caHalf (f6 : BitVec 6) (rd : CReg) (f2 : BitVec 2) (rs2 : CReg) : BitVec 16 :=
  f6 ++ rd ++ f2 ++ rs2 ++ (1 : BitVec 2)

/-- Format CB of `c.srli`, `c.srai`, `c.andi`. -/
def cbArithHalf (f2 : BitVec 2) (imm : BitVec 6) (rd : CReg) : BitVec 16 :=
  (4 : BitVec 3) ++ imm.extractLsb' 5 1 ++ f2 ++ rd ++ imm.extractLsb' 0 5 ++ (1 : BitVec 2)

/-- Format CB of the branches; bit `k` of `imm` is bit `k + 1` of the offset (R621). -/
def cbBranchHalf (f3 : BitVec 3) (rs1 : CReg) (imm : BitVec 8) : BitVec 16 :=
  f3 ++ imm.extractLsb' 7 1 ++ imm.extractLsb' 2 2 ++ rs1 ++ imm.extractLsb' 5 2 ++ imm.extractLsb' 0 2
    ++ imm.extractLsb' 4 1 ++ (1 : BitVec 2)

/-- Formats CL and CS of the word accesses; bit `k` of `imm` is bit `k + 2` of the offset (R601). -/
def clwHalf (f3 : BitVec 3) (rs1 r : CReg) (imm : BitVec 5) : BitVec 16 :=
  f3 ++ imm.extractLsb' 1 3 ++ rs1 ++ imm.extractLsb' 0 1 ++ imm.extractLsb' 4 1 ++ r ++ (0 : BitVec 2)

/-- Formats CL and CS of the doubleword accesses; bit `k` of `imm` is bit `k + 3` of the offset (R602). -/
def cldHalf (f3 : BitVec 3) (rs1 r : CReg) (imm : BitVec 5) : BitVec 16 :=
  f3 ++ imm.extractLsb' 0 3 ++ rs1 ++ imm.extractLsb' 3 2 ++ r ++ (0 : BitVec 2)

/-- `c.addi4spn`; bit `k` of `imm` is bit `k + 2` of the immediate (R600). -/
def cAddi4spnHalf (rd : CReg) (imm : BitVec 8) : BitVec 16 :=
  (0 : BitVec 3) ++ imm.extractLsb' 2 2 ++ imm.extractLsb' 4 4 ++ imm.extractLsb' 0 1 ++ imm.extractLsb' 1 1 ++ rd
    ++ (0 : BitVec 2)

/-- `c.addi16sp`; bit `k` of `imm` is bit `k + 4` of the immediate (R609). -/
def cAddi16spHalf (imm : BitVec 6) : BitVec 16 :=
  (3 : BitVec 3) ++ imm.extractLsb' 5 1 ++ (2 : BitVec 5) ++ imm.extractLsb' 0 1 ++ imm.extractLsb' 2 1
    ++ imm.extractLsb' 3 2 ++ imm.extractLsb' 1 1 ++ (1 : BitVec 2)

/-- `c.j`; bit `k` of `imm` is bit `k + 1` of the offset (R620). -/
def cJHalf (imm : BitVec 11) : BitVec 16 :=
  (5 : BitVec 3) ++ imm.extractLsb' 10 1 ++ imm.extractLsb' 3 1 ++ imm.extractLsb' 7 2 ++ imm.extractLsb' 9 1
    ++ imm.extractLsb' 5 1 ++ imm.extractLsb' 6 1 ++ imm.extractLsb' 0 3 ++ imm.extractLsb' 4 1 ++ (1 : BitVec 2)

/-- `c.lwsp`; bit `k` of `imm` is bit `k + 2` of the offset (R624). -/
def cLwspHalf (rd : Reg) (imm : BitVec 6) : BitVec 16 :=
  (2 : BitVec 3) ++ imm.extractLsb' 3 1 ++ rd ++ imm.extractLsb' 0 3 ++ imm.extractLsb' 4 2 ++ (2 : BitVec 2)

/-- `c.ldsp`; bit `k` of `imm` is bit `k + 3` of the offset (R626). -/
def cLdspHalf (rd : Reg) (imm : BitVec 6) : BitVec 16 :=
  (3 : BitVec 3) ++ imm.extractLsb' 2 1 ++ rd ++ imm.extractLsb' 0 2 ++ imm.extractLsb' 3 3 ++ (2 : BitVec 2)

/-- `c.swsp`; bit `k` of `imm` is bit `k + 2` of the offset (R631). -/
def cSwspHalf (rs2 : Reg) (imm : BitVec 6) : BitVec 16 :=
  (6 : BitVec 3) ++ imm.extractLsb' 0 4 ++ imm.extractLsb' 4 2 ++ rs2 ++ (2 : BitVec 2)

/-- `c.sdsp`; bit `k` of `imm` is bit `k + 3` of the offset (R632). -/
def cSdspHalf (rs2 : Reg) (imm : BitVec 6) : BitVec 16 :=
  (7 : BitVec 3) ++ imm.extractLsb' 0 3 ++ imm.extractLsb' 3 3 ++ rs2 ++ (2 : BitVec 2)

/-- The bits of an instruction: the encodings of R266, R580 and R600 to R632. -/
def encode : Instr → Raw
  | .add xd xs1 xs2 => .word (rWord 0x0 xs2 xs1 0 xd 0x33)
  | .sub xd xs1 xs2 => .word (rWord 0x20 xs2 xs1 0 xd 0x33)
  | .sll xd xs1 xs2 => .word (rWord 0x0 xs2 xs1 1 xd 0x33)
  | .slt xd xs1 xs2 => .word (rWord 0x0 xs2 xs1 2 xd 0x33)
  | .sltu xd xs1 xs2 => .word (rWord 0x0 xs2 xs1 3 xd 0x33)
  | .xor xd xs1 xs2 => .word (rWord 0x0 xs2 xs1 4 xd 0x33)
  | .srl xd xs1 xs2 => .word (rWord 0x0 xs2 xs1 5 xd 0x33)
  | .sra xd xs1 xs2 => .word (rWord 0x20 xs2 xs1 5 xd 0x33)
  | .or xd xs1 xs2 => .word (rWord 0x0 xs2 xs1 6 xd 0x33)
  | .and xd xs1 xs2 => .word (rWord 0x0 xs2 xs1 7 xd 0x33)
  | .mul xd xs1 xs2 => .word (rWord 0x1 xs2 xs1 0 xd 0x33)
  | .mulh xd xs1 xs2 => .word (rWord 0x1 xs2 xs1 1 xd 0x33)
  | .mulhsu xd xs1 xs2 => .word (rWord 0x1 xs2 xs1 2 xd 0x33)
  | .mulhu xd xs1 xs2 => .word (rWord 0x1 xs2 xs1 3 xd 0x33)
  | .div xd xs1 xs2 => .word (rWord 0x1 xs2 xs1 4 xd 0x33)
  | .divu xd xs1 xs2 => .word (rWord 0x1 xs2 xs1 5 xd 0x33)
  | .rem xd xs1 xs2 => .word (rWord 0x1 xs2 xs1 6 xd 0x33)
  | .remu xd xs1 xs2 => .word (rWord 0x1 xs2 xs1 7 xd 0x33)
  | .addi xd xs1 imm => .word (iWord imm xs1 0 xd 0x13)
  | .slti xd xs1 imm => .word (iWord imm xs1 2 xd 0x13)
  | .sltiu xd xs1 imm => .word (iWord imm xs1 3 xd 0x13)
  | .xori xd xs1 imm => .word (iWord imm xs1 4 xd 0x13)
  | .ori xd xs1 imm => .word (iWord imm xs1 6 xd 0x13)
  | .andi xd xs1 imm => .word (iWord imm xs1 7 xd 0x13)
  | .slli xd xs1 shamt => .word (shiftWord 0x0 shamt xs1 1 xd 0x13)
  | .srli xd xs1 shamt => .word (shiftWord 0x0 shamt xs1 5 xd 0x13)
  | .srai xd xs1 shamt => .word (shiftWord 0x10 shamt xs1 5 xd 0x13)
  | .lui xd imm => .word (uWord imm xd 0x37)
  | .auipc xd imm => .word (uWord imm xd 0x17)
  | .jal xd imm => .word (jWord imm xd 0x6f)
  | .jalr xd xs1 imm => .word (iWord imm xs1 0 xd 0x67)
  | .beq xs1 xs2 imm => .word (bWord imm xs2 xs1 0 0x63)
  | .bne xs1 xs2 imm => .word (bWord imm xs2 xs1 1 0x63)
  | .blt xs1 xs2 imm => .word (bWord imm xs2 xs1 4 0x63)
  | .bge xs1 xs2 imm => .word (bWord imm xs2 xs1 5 0x63)
  | .bltu xs1 xs2 imm => .word (bWord imm xs2 xs1 6 0x63)
  | .bgeu xs1 xs2 imm => .word (bWord imm xs2 xs1 7 0x63)
  | .lb xd xs1 imm => .word (iWord imm xs1 0 xd 0x03)
  | .lh xd xs1 imm => .word (iWord imm xs1 1 xd 0x03)
  | .lw xd xs1 imm => .word (iWord imm xs1 2 xd 0x03)
  | .ld xd xs1 imm => .word (iWord imm xs1 3 xd 0x03)
  | .lbu xd xs1 imm => .word (iWord imm xs1 4 xd 0x03)
  | .lhu xd xs1 imm => .word (iWord imm xs1 5 xd 0x03)
  | .lwu xd xs1 imm => .word (iWord imm xs1 6 xd 0x03)
  | .sb xs1 xs2 imm => .word (sWord imm xs2 xs1 0 0x23)
  | .sh xs1 xs2 imm => .word (sWord imm xs2 xs1 1 0x23)
  | .sw xs1 xs2 imm => .word (sWord imm xs2 xs1 2 0x23)
  | .sd xs1 xs2 imm => .word (sWord imm xs2 xs1 3 0x23)
  | .fence fm pred succ xs1 xd => .word (fenceWord fm pred succ xs1 xd)
  | .fenceTso xs1 xd => .word (fenceWord 8 3 3 xs1 xd)
  | .ecall => .word 0x00000073
  | .ebreak => .word 0x00100073
  | .mret => .word 0x30200073
  | .wfi => .word 0x10500073
  | .csrrw xd csr xs1 => .word (iWord csr xs1 1 xd 0x73)
  | .csrrs xd csr xs1 => .word (iWord csr xs1 2 xd 0x73)
  | .csrrc xd csr xs1 => .word (iWord csr xs1 3 xd 0x73)
  | .csrrwi xd csr uimm => .word (iWord csr uimm 5 xd 0x73)
  | .csrrsi xd csr uimm => .word (iWord csr uimm 6 xd 0x73)
  | .csrrci xd csr uimm => .word (iWord csr uimm 7 xd 0x73)
  | .addiw xd xs1 imm => .word (iWord imm xs1 0 xd 0x1b)
  | .slliw xd xs1 shamt => .word (rWord 0x0 shamt xs1 1 xd 0x1b)
  | .srliw xd xs1 shamt => .word (rWord 0x0 shamt xs1 5 xd 0x1b)
  | .sraiw xd xs1 shamt => .word (rWord 0x20 shamt xs1 5 xd 0x1b)
  | .addw xd xs1 xs2 => .word (rWord 0x0 xs2 xs1 0 xd 0x3b)
  | .subw xd xs1 xs2 => .word (rWord 0x20 xs2 xs1 0 xd 0x3b)
  | .sllw xd xs1 xs2 => .word (rWord 0x0 xs2 xs1 1 xd 0x3b)
  | .srlw xd xs1 xs2 => .word (rWord 0x0 xs2 xs1 5 xd 0x3b)
  | .sraw xd xs1 xs2 => .word (rWord 0x20 xs2 xs1 5 xd 0x3b)
  | .mulw xd xs1 xs2 => .word (rWord 0x1 xs2 xs1 0 xd 0x3b)
  | .divw xd xs1 xs2 => .word (rWord 0x1 xs2 xs1 4 xd 0x3b)
  | .divuw xd xs1 xs2 => .word (rWord 0x1 xs2 xs1 5 xd 0x3b)
  | .remw xd xs1 xs2 => .word (rWord 0x1 xs2 xs1 6 xd 0x3b)
  | .remuw xd xs1 xs2 => .word (rWord 0x1 xs2 xs1 7 xd 0x3b)
  | .cAddi4spn xd imm => .half (cAddi4spnHalf xd imm)
  | .cLw xd xs1 imm => .half (clwHalf 2 xs1 xd imm)
  | .cLd xd xs1 imm => .half (cldHalf 3 xs1 xd imm)
  | .cSw xs1 xs2 imm => .half (clwHalf 6 xs1 xs2 imm)
  | .cSd xs1 xs2 imm => .half (cldHalf 7 xs1 xs2 imm)
  | .cNop imm => .half (ciHalf 0 imm 0 1)
  | .cAddi xd imm => .half (ciHalf 0 imm xd 1)
  | .cAddiw xd imm => .half (ciHalf 1 imm xd 1)
  | .cLi xd imm => .half (ciHalf 2 imm xd 1)
  | .cAddi16sp imm => .half (cAddi16spHalf imm)
  | .cLui xd imm => .half (ciHalf 3 imm xd 1)
  | .cSrli xd shamt => .half (cbArithHalf 0 shamt xd)
  | .cSrai xd shamt => .half (cbArithHalf 1 shamt xd)
  | .cAndi xd imm => .half (cbArithHalf 2 imm xd)
  | .cSub xd xs2 => .half (caHalf 0x23 xd 0 xs2)
  | .cXor xd xs2 => .half (caHalf 0x23 xd 1 xs2)
  | .cOr xd xs2 => .half (caHalf 0x23 xd 2 xs2)
  | .cAnd xd xs2 => .half (caHalf 0x23 xd 3 xs2)
  | .cSubw xd xs2 => .half (caHalf 0x27 xd 0 xs2)
  | .cAddw xd xs2 => .half (caHalf 0x27 xd 1 xs2)
  | .cJ imm => .half (cJHalf imm)
  | .cBeqz xs1 imm => .half (cbBranchHalf 6 xs1 imm)
  | .cBnez xs1 imm => .half (cbBranchHalf 7 xs1 imm)
  | .cSlli xd shamt => .half (ciHalf 0 shamt xd 2)
  | .cLwsp xd imm => .half (cLwspHalf xd imm)
  | .cEbreak => .half 0x9002
  | .cLdsp xd imm => .half (cLdspHalf xd imm)
  | .cJr xs1 => .half (crHalf 8 xs1 0 2)
  | .cMv xd xs2 => .half (crHalf 8 xd xs2 2)
  | .cJalr xs1 => .half (crHalf 9 xs1 0 2)
  | .cAdd xd xs2 => .half (crHalf 9 xd xs2 2)
  | .cSwsp xs2 imm => .half (cSwspHalf xs2 imm)
  | .cSdsp xs2 imm => .half (cSdspHalf xs2 imm)

/-- The bytes of an encoding, lowest address first (R201). -/
def Raw.bytes : Raw → List Byte
  | .half h => [h.extractLsb' 0 8, h.extractLsb' 8 8]
  | .word w => [w.extractLsb' 0 8, w.extractLsb' 8 8, w.extractLsb' 16 8, w.extractLsb' 24 8]

/-- The bytes of an instruction. -/
def encodeBytes (i : Instr) : List Byte := (encode i).bytes

/-- `ins` of an instruction, the trap value of the exceptions its own rule raises (R410). -/
def insOf (i : Instr) : Word := (encode i).toWord

end Sys2Proof
end

