-- ==== Sys2Proof/Machine/State.lean ====
section
/-! DEFINITION. The state of the hart as plain data (spec/10_state.md R54), the reasons a step can stop, and reset. -/

namespace Sys2Proof.Machine

/-- Memory as (address, byte) pairs in one canonical form, see `Memory.wf` in Machine/Ops.lean. -/
abbrev Memory := List Host.Cell

/-- The stored fields of `mstatus` (R82 to R94). `MPP` is the constant 3 (R85) and every field not named here is
read-only 0 (R81). `tsr`, `tw`, `mxr` are inert storage where `MSTATUS_EXTRA_WRITABLE` has the bit, else 0 (R94). -/
structure Mstatus where
  mie  : Bool
  mpie : Bool
  tsr  : Bool
  tw   : Bool
  mxr  : Bool
  deriving DecidableEq, Repr

/-- `mtvec` (R130); `base` is bits 63:2. -/
structure Mtvec where
  base : BitVec 62
  mode : VecMode
  deriving DecidableEq, Repr

/-- `mcause` (R140). -/
structure Mcause where
  int  : Bool
  code : BitVec 63
  deriving DecidableEq, Repr

/-- The writable bits of `mcountinhibit` (R170). -/
structure Mcountinhibit where
  cy : Bool
  ir : Bool
  deriving DecidableEq, Repr

/-- What the outside supplies for one step (R52, R561): the levels of the three interrupt wires (R490), the value of
`mtime` (R186) and the cycles the step takes (R175). -/
structure StepInputs where
  irq    : IrqBits
  mtime  : Word
  cycles : Nat
  deriving DecidableEq, Repr

/-- An access to an `io` region, as the host sees it (R231, R561). -/
inductive IoEvent where
  | read (address size : Nat)
  | write (address size value : Nat)
  deriving DecidableEq, Repr

/-- The state of the hart (R54), with the configuration of the run and the inputs and host events of R561. -/
structure State where
  /-- The implementation parameters; no step changes them (R9). -/
  cfg : Config
  /-- `x1` to `x31` (R41); `x0` is in no field. -/
  regs : Vector Word 31
  /-- The address of the instruction being executed (R44). -/
  pc : Word
  /-- R49. -/
  mem : Memory
  mstatus : Mstatus
  /-- The enable bits `MEIE`, `MTIE`, `MSIE` (R106). -/
  mie : IrqBits
  /-- The pending bits `MEIP`, `MTIP`, `MSIP` (R111). -/
  mip : IrqBits
  mtvec : Mtvec
  /-- R125. -/
  mscratch : Word
  /-- `mepc.PC` (R120). -/
  mepc : Word
  mcause : Mcause
  /-- `mtval.VALUE` (R150). -/
  mtval : Word
  mcountinhibit : Mcountinhibit
  /-- `mcycle.COUNT` (R173). -/
  mcycle : Word
  /-- `minstret.COUNT` (R177). -/
  minstret : Word
  /-- The inputs of this step and the steps after it; when the list has run out `Config.laterInputs` says what follows
  (notes/assumptions/8.md). -/
  inputs : List StepInputs
  /-- The number of the step (R550). -/
  stepNo : Nat
  /-- The accesses to `io` regions so far, the latest first. -/
  ioLog : List IoEvent
  deriving DecidableEq, Repr

/-- Why a step has no next state. -/
inductive Fault where
  /-- Raised by the fetch and by loads that reach a `ram` byte that nothing has written or loaded: the spec lets a model
  represent such bytes as no value (R544). Safe: hardware reads some byte there. -/
  | unwrittenByte (address : Nat)
  /-- Raised for bits that decode to no instruction when the `TRAP_ON_*` parameter that covers them is false: the spec's
  `unpredictable`, no next state (R280, 93_implementation_defined.md U2). Safe. -/
  | unpredictableInstruction (ins : Word)
  /-- Raised by a CSR instruction that names an absent CSR when `TRAP_ON_UNIMPLEMENTED_CSR` is false: the spec's
  `unpredictable`, no next state (R411, 93_implementation_defined.md U3). Safe. -/
  | unpredictableCsr (address : CsrAddr)
  /-- Raised at the start of a step when `HALT_PREDICATE` holds: the run has ended (R560). Safe: the chip goes on. -/
  | runEnded
  deriving DecidableEq, Repr

/-- Why the model gives no meaning. -/
inductive Refusal where
  /-- Raised by an arm of `exec` for an instruction without a meaning; no arm raises it. Safe. -/
  | notModelled (mnemonic : String)
  /-- Raised by every step when the configuration is one that the spec does not allow (R212,
  93_implementation_defined.md section 1, treatment "refuse"). Safe. -/
  | illegalConfiguration
  deriving DecidableEq, Repr

/-- What the spec draws once per run before the first step (R540, R542): the values that reset leaves unspecified. -/
structure Draws where
  regs     : Vector Word 31
  mpie     : Bool
  tsr      : Bool
  tw       : Bool
  mxr      : Bool
  cy       : Bool
  ir       : Bool
  mcycle   : Word
  minstret : Word
  deriving DecidableEq, Repr

/-- The values the model names for the draws: all zero. DESIGN CHOICE (notes/assumptions/5.md). -/
def Draws.zero : Draws where
  regs := Vector.replicate 31 0
  mpie := false
  tsr := false
  tw := false
  mxr := false
  cy := false
  ir := false
  mcycle := 0
  minstret := 0

/-- The state at the start of a run of configuration `c` with the draws `d` (R53, R542). A drawn bit that the
configuration makes read-only 0 is 0. Memory lists nothing (R544). -/
def State.boot (c : Config) (d : Draws) : State where
  cfg := c
  regs := d.regs
  pc := c.resetPc
  mem := []
  mstatus :=
    { mie := false, mpie := d.mpie, tsr := c.tsrWritable && d.tsr, tw := c.twWritable && d.tw,
      mxr := c.mxrWritable && d.mxr }
  mie := { mei := false, mti := false, msi := false }
  mip := { mei := false, mti := false, msi := false }
  mtvec := { base := 0, mode := c.mtvecResetMode }
  mscratch := 0
  mepc := 0
  mcause := { int := false, code := 0 }
  mtval := 0
  mcountinhibit := { cy := c.countinhibitCy && d.cy, ir := c.countinhibitIr && d.ir }
  mcycle := d.mcycle
  minstret := d.minstret
  inputs := []
  stepNo := 0
  ioLog := []

/-- The machine right after reset: the start of a run of the standard configuration with every draw zero. -/
def State.reset : State := State.boot Config.standard Draws.zero

end Sys2Proof.Machine

namespace Sys2Proof

/-- `HALT_PREDICATE` (R560) as an uninterpreted parameter: the `n`-th predicate on the state, about which nothing is
known. Log entry notes/assumptions/7.md. -/
opaque Config.haltPredicate (n : Nat) (s : Machine.State) : Bool

end Sys2Proof
end

