-- ==== Sys2Proof/Machine/Ops.lean ====
section
/-! DEFINITION. The named operations over registers, memory and traps: register access, the memory of bytes, the access
check and the misaligned cases of spec/20_memory.md, retirement, taking an exception or an interrupt and returning from
one (spec/60_exceptions.md), and the fetch. -/

namespace Sys2Proof.Machine

/-! ## Registers (R41) -/

/-- The place of a register other than `x0` in `State.regs`. -/
def regIndex (r : Reg) : Fin 31 := ⟨r.toNat - 1, by have := r.isLt; omega⟩

/-- `x[r]`: `x0` reads 0 (R41). -/
def readReg (r : Reg) (s : State) : Word :=
  if r = 0 then 0 else s.regs.get (regIndex r)

/-- The register file after `x[r] <- v`; a write to `x0` has no effect (R41). -/
def setRegs (r : Reg) (v : Word) (regs : Vector Word 31) : Vector Word 31 :=
  if r = 0 then regs else regs.set (regIndex r).val v (regIndex r).isLt

/-- `x[r] <- v`. -/
def writeReg (r : Reg) (v : Word) (s : State) : State :=
  { s with regs := setRegs r v s.regs }

/-! ## Memory contents (R49, R544) -/

/-- What a byte that memory does not list reads as: no value, so that reading it is a fault of the model (R544).
DESIGN CHOICE, safe (notes/assumptions/4.md). -/
def unlisted (_address : Nat) : Option Byte := none

/-- The byte that memory holds at an address. -/
def Memory.get? (m : Memory) (a : Nat) : Option Byte :=
  match m with
  | [] => unlisted a
  | (a', b) :: rest => if a' = a then some b else Memory.get? rest a

/-- Insert or replace the entry of an address in a list whose addresses rise. -/
def Memory.insert (m : Memory) (a : Nat) (b : Byte) : Memory :=
  match m with
  | [] => [(a, b)]
  | (a', b') :: rest =>
    if a < a' then (a, b) :: (a', b') :: rest
    else if a = a' then (a, b) :: rest
    else (a', b') :: Memory.insert rest a b

/-- Remove the entry of an address. -/
def Memory.erase (m : Memory) (a : Nat) : Memory :=
  match m with
  | [] => []
  | (a', b') :: rest => if a' = a then rest else (a', b') :: Memory.erase rest a

/-- Write one byte; a byte equal to what an unlisted address reads as is not listed. -/
def Memory.set (m : Memory) (a : Nat) (b : Byte) : Memory :=
  if unlisted a = some b then m.erase a else m.insert a b

/-- Every address of the list is above `a`. -/
def Memory.above (a : Nat) (m : Memory) : Bool :=
  match m with
  | [] => true
  | (a', _) :: rest => decide (a < a') && Memory.above a rest

/-- The canonical form: addresses strictly rising, no entry equal to what an unlisted address reads as. -/
def Memory.wf (m : Memory) : Bool :=
  match m with
  | [] => true
  | (a, b) :: rest => (unlisted a != some b) && Memory.above a rest && Memory.wf rest

/-- The `n` bytes at `a` as a little-endian number (R201), or the first address in them that has no value. -/
def readLe (m : Memory) (a : Nat) : Nat → Except Nat Nat
  | 0 => .ok 0
  | n + 1 =>
    match m.get? a with
    | none => .error a
    | some b =>
      match readLe m (a + 1) n with
      | .error e => .error e
      | .ok v => .ok (b.toNat + 256 * v)

/-- Memory after the low `n` bytes of `v` are stored at `a`, least significant first (R201). -/
def writeLe (m : Memory) (a : Nat) : Nat → Nat → Memory
  | 0, _ => m
  | n + 1, v => writeLe (m.set a (BitVec.ofNat 8 v)) (a + 1) n (v / 256)

/-! ## The memory map and the access check (R206, R220) -/

/-- What `MEMORY_MAP` says of an address. -/
def attrAt (map : MemoryMap) (a : Nat) : Attr :=
  match map.regions.find? (fun r => decide (r.base ≤ a) && decide (a < r.base + r.size)) with
  | some r => r.attr
  | none => map.elsewhere

/-- All `n` bytes at `a` have the kind `k`. -/
def allKind (map : MemoryMap) (k : RegionKind) (a : Nat) : Nat → Bool
  | 0 => true
  | n + 1 => (attrAt map a).kind == k && allKind map k (a + 1) n

/-- `pma_applies?`: all `n` bytes at `a` have the granule attribute `g` (R220). DESIGN CHOICE (notes/assumptions/38.md): a
byte at or above 2^PHYS_ADDR_WIDTH, where the spec defines no attribute, has the one the region list gives it. -/
def allMag (map : MemoryMap) (g : Mag) (a : Nat) : Nat → Bool
  | 0 => true
  | n + 1 => (attrAt map a).mag == g && allMag map g (a + 1) n

/-- The bound of R206: the access ends at or below 2^PHYS_ADDR_WIDTH, its size counted as `ACCESS_CHECK_SIZE_IN_BITS`
says. -/
def inBounds (c : Config) (a n : Nat) : Bool :=
  decide (a + (if c.accessCheckSizeInBits then 8 * n else n) ≤ 2 ^ c.physAddrWidth)

/-- Where an access that passes the checks of R206 and R220 goes. -/
inductive Target where
  | ram
  | io (device : Nat)
  | denied
  deriving DecidableEq, Repr

/-- The access check for data (R206, R220): all bytes `ram`, or all `io` of one device; else the access fault. -/
def accessCheck (c : Config) (a n : Nat) : Target :=
  if inBounds c a n then
    match (attrAt c.memoryMap a).kind with
    | .ram => if allKind c.memoryMap .ram a n then .ram else .denied
    | .io d => if allKind c.memoryMap (.io d) a n then .io d else .denied
    | .vacant => .denied
  else .denied

/-! ## Exceptions (R471 to R479) -/

/-- The synchronous exceptions that can occur on this hart (R471). -/
inductive Exc where
  | instructionAccessFault
  | illegalInstruction
  | breakpoint
  | loadAddressMisaligned
  | loadAccessFault
  | storeAmoAddressMisaligned
  | storeAmoAccessFault
  | mcall
  deriving DecidableEq, Repr

/-- `code(E)` (R471). -/
def Exc.code : Exc → BitVec 63
  | .instructionAccessFault => 1
  | .illegalInstruction => 2
  | .breakpoint => 3
  | .loadAddressMisaligned => 4
  | .loadAccessFault => 5
  | .storeAmoAddressMisaligned => 6
  | .storeAmoAccessFault => 7
  | .mcall => 11

/-- `mtval_for` (R478): the trap value filtered by the `REPORT_*` parameters. -/
def mtvalFor (c : Config) (e : Exc) (tval : Word) : Word :=
  match e with
  | .instructionAccessFault => if c.reportVaFetchFault then tval else 0
  | .illegalInstruction => if c.reportEncodingIllegal then tval else 0
  | .breakpoint => if c.reportVaBreakpoint then tval else 0
  | .loadAddressMisaligned => if c.reportVaLoadMisaligned then tval else 0
  | .loadAccessFault => if c.reportVaLoadFault then tval else 0
  | .storeAmoAddressMisaligned => if c.reportVaStoreMisaligned then tval else 0
  | .storeAmoAccessFault => if c.reportVaStoreFault then tval else 0
  | .mcall => 0

/-- `mtval_readonly?` (R153): every `REPORT_*` parameter is false. -/
def mtvalReadonly (c : Config) : Bool :=
  !(c.reportEncodingIllegal || c.reportVaBreakpoint || c.reportVaFetchFault || c.reportVaFetchMisaligned
    || c.reportVaLoadFault || c.reportVaLoadMisaligned || c.reportVaStoreFault || c.reportVaStoreMisaligned)

/-- `mtval` holds its low `MTVAL_WIDTH` bits (R152). -/
def mtvalClip (c : Config) (v : Word) : Word := BitVec.ofNat 64 (v.toNat % 2 ^ c.mtvalWidth)

/-- `{mtvec.BASE, 2'b00}` (R130). -/
def Mtvec.target (t : Mtvec) : Word := t.base ++ (0 : BitVec 2)

/-- TAKING AN EXCEPTION (R477): `raise E(tval)` at the instruction at `pc`. -/
def trapEntry (e : Exc) (tval : Word) (s : State) : State :=
  { s with
    mepc := s.pc
    mtval := if mtvalReadonly s.cfg then s.mtval else mtvalClip s.cfg (mtvalFor s.cfg e tval)
    mcause := { int := false, code := e.code }
    mstatus := { s.mstatus with mpie := s.mstatus.mie, mie := false }
    pc := s.mtvec.target }

/-- RETURNING FROM A TRAP, what `mret` does to `mstatus` and the pc (R432). -/
def trapReturn (s : State) : State :=
  { s with
    mstatus := { s.mstatus with mie := s.mstatus.mpie, mpie := true }
    pc := s.mepc }

/-! ## Interrupts (R490 to R498) -/

/-- `pending_and_enabled` (R492). -/
def pendingAndEnabled (s : State) : IrqBits :=
  { mei := s.mstatus.mie && s.mip.mei && s.mie.mei
    mti := s.mstatus.mie && s.mip.mti && s.mie.mti
    msi := s.mstatus.mie && s.mip.msi && s.mie.msi }

/-- `highest_priority_interrupt` (R496): MEI, then MSI, then MTI; none when the mask is empty. -/
def highestPriority (b : IrqBits) : Option (BitVec 63) :=
  if b.mei then some 11 else if b.msi then some 3 else if b.mti then some 7 else none

/-- Where an interrupt with code `c` goes (R134, R495). -/
def Mtvec.vector (t : Mtvec) (c : BitVec 63) : Word :=
  match t.mode with
  | .direct => t.target
  | .vectored => t.target + BitVec.ofNat 64 (4 * c.toNat)

/-- TAKING AN INTERRUPT with code `c` (R495). -/
def takeInterrupt (c : BitVec 63) (s : State) : State :=
  { s with
    mepc := s.pc
    mtval := 0
    mcause := { int := true, code := c }
    mstatus := { s.mstatus with mpie := s.mstatus.mie, mie := false }
    pc := s.mtvec.vector c }

/-! ## Retirement (R46, R180) -/

/-- The instruction completes with `npc` as the next pc; `minstret` counts it unless `mcountinhibit.IR` is set. -/
def retireTo (npc : Word) (s : State) : State :=
  { s with
    pc := npc
    minstret := if s.mcountinhibit.ir then s.minstret else s.minstret + 1 }

/-- The instruction of `len` bytes completes without writing the pc (R46, R452). -/
def retire (len : Word) (s : State) : State := retireTo (s.pc + len) s

/-- The inputs of this step (R52, R561): the next of the list; after the list the spec's defaults, all wires low, `mtime`
the step number and one cycle (R490, R186, R175), or what the sequences of the configuration give the step. -/
def currentInputs (s : State) : StepInputs :=
  match s.inputs with
  | i :: _ => i
  | [] =>
    match s.cfg.laterInputs with
    | .defaults =>
      { irq := { mei := false, mti := false, msi := false }, mtime := BitVec.ofNat 64 s.stepNo, cycles := 1 }
    | .source n =>
      { irq :=
          { mei := Config.laterWire n s.stepNo 11, mti := Config.laterWire n s.stepNo 7,
            msi := Config.laterWire n s.stepNo 3 }
        mtime := Config.laterMtime n s.stepNo
        cycles := Config.laterCycles n s.stepNo }

/-- The end of a step (R176, R550): `mcycle` advances by the cycles of the step unless `mcountinhibit.CY` is set, and
the next step is numbered and has the next inputs. -/
def endStep (s : State) : State :=
  { s with
    mcycle :=
      if s.mcountinhibit.cy then s.mcycle
      else s.mcycle + BitVec.ofNat 64 (currentInputs s).cycles
    inputs := s.inputs.tail
    stepNo := s.stepNo + 1 }

/-- The levels of the interrupt wires in this step (R490). -/
def currentIrq (s : State) : IrqBits := (currentInputs s).irq

/-- `MTIME_SOURCE` in this step (R186). -/
def currentMtime (s : State) : Word := (currentInputs s).mtime

/-- The start of a step: `mip` follows the wires (R491). -/
def applyInputs (s : State) : State := { s with mip := currentIrq s }

/-! ## Data accesses (R208 to R215) -/

/-- What a part of an instruction comes to: a value and a state, an exception with its trap value, or a fault. -/
inductive Res (α : Type) where
  | done (a : α) (s : State)
  | trap (e : Exc) (tval : Word) (s : State)
  | stuck (f : Fault)
  deriving DecidableEq, Repr

/-- The outcome of an instruction whose last part is `r`: a value goes on with `k`, an exception is taken. -/
def Res.finish {α : Type} (r : Res α) (k : α → State → State) : Host.Outcome State Fault Refusal :=
  match r with
  | .done a s => .next (k a s)
  | .trap e tval s => .next (trapEntry e tval s)
  | .stuck f => .fault f

/-- An `n`-byte access at `va` is naturally aligned (R208). -/
def aligned (va : Word) (n : Nat) : Bool := va.toNat % n == 0

/-- All `n` bytes at `a` lie in one `g`-byte aligned block (R208). -/
def inBlock (g a n : Nat) : Bool := a / g == (a + n - 1) / g

/-- `misaligned_is_atomic?` (R212), lengths in bytes; never with the literal reading of lengths in bits. An access that
crosses 2^PHYS_ADDR_WIDTH can be atomic, by the DESIGN CHOICE of `allMag`, and then faults whole (notes/assumptions/38.md). -/
def misalignedAtomic (c : Config) (a n : Nat) : Bool :=
  c.misalignedGranule != 0 && !c.accessCheckSizeInBits &&
    ((allMag c.memoryMap .mag16 a n && inBlock 16 a n) || (allMag c.memoryMap .mag8 a n && inBlock 8 a n)
      || (allMag c.memoryMap .mag4 a n && inBlock 4 a n) || (allMag c.memoryMap .mag2 a n && inBlock 2 a n))

/-- One checked physical read of `n` bytes at `va` (R209): from memory, or from a device, which is one host event and
answers a free value (R220, R231). -/
def readWhole (va : Word) (n : Nat) (s : State) : Res Nat :=
  match accessCheck s.cfg va.toNat n with
  | .ram =>
    match readLe s.mem va.toNat n with
    | .ok v => .done v s
    | .error a => .stuck (.unwrittenByte a)
  | .io _ =>
    .done ((Config.ioReadValue s.ioLog.length va.toNat n).toNat % 256 ^ n)
      { s with ioLog := .read va.toNat n :: s.ioLog }
  | .denied => .trap .loadAccessFault va s

/-- The sequential-bytes read (R213): `n` checked byte reads in ascending address order. -/
def readSplit (va : Word) : Nat → State → Res Nat
  | 0, s => .done 0 s
  | n + 1, s =>
    match readWhole va 1 s with
    | .done b s1 =>
      match readSplit (va + 1) n s1 with
      | .done v s2 => .done (b + 256 * v) s2
      | .trap e t s2 => .trap e t s2
      | .stuck f => .stuck f
    | .trap e t s1 => .trap e t s1
    | .stuck f => .stuck f

/-- `MemRead(va, n)` (R214). -/
def memRead (va : Word) (n : Nat) (s : State) : Res Nat :=
  if aligned va n then readWhole va n s
  else if misalignedAtomic s.cfg va.toNat n then readWhole va n s
  else if s.cfg.misalignedLdst then readSplit va n s
  else if s.cfg.misalignedPriority = .low ∧ accessCheck s.cfg va.toNat n = .denied then .trap .loadAccessFault va s
  else .trap .loadAddressMisaligned va s

/-- One checked physical write of the low `n` bytes of `v` at `va` (R209). -/
def writeWhole (va : Word) (n v : Nat) (s : State) : Res Unit :=
  match accessCheck s.cfg va.toNat n with
  | .ram => .done () { s with mem := writeLe s.mem va.toNat n v }
  | .io _ => .done () { s with ioLog := .write va.toNat n (v % 256 ^ n) :: s.ioLog }
  | .denied => .trap .storeAmoAccessFault va s

/-- The sequential-bytes write (R213); the bytes before a failing one stay written. -/
def writeSplit (va : Word) : Nat → Nat → State → Res Unit
  | 0, _, s => .done () s
  | n + 1, v, s =>
    match writeWhole va 1 (v % 256) s with
    | .done _ s1 => writeSplit (va + 1) n (v / 256) s1
    | .trap e t s1 => .trap e t s1
    | .stuck f => .stuck f

/-- `MemWrite(va, n, v)` (R215). -/
def memWrite (va : Word) (n v : Nat) (s : State) : Res Unit :=
  if aligned va n then writeWhole va n v s
  else if misalignedAtomic s.cfg va.toNat n then writeWhole va n v s
  else if s.cfg.misalignedLdst then writeSplit va n v s
  else if s.cfg.misalignedPriority = .low ∧ accessCheck s.cfg va.toNat n = .denied then .trap .storeAmoAccessFault va s
  else .trap .storeAmoAddressMisaligned va s

/-! ## Fetch (R216) -/

/-- One halfword of the instruction stream: `ram` only (R220). -/
def fetchHalf (va : Word) (s : State) : Res (BitVec 16) :=
  if accessCheck s.cfg va.toNat 2 = .ram then
    match readLe s.mem va.toNat 2 with
    | .ok v => .done (BitVec.ofNat 16 v) s
    | .error a => .stuck (.unwrittenByte a)
  else .trap .instructionAccessFault va s

/-- The fetch of one instruction at `pc` (R216, R252). -/
def fetch (s : State) : Res Raw :=
  match fetchHalf s.pc s with
  | .done lo _ =>
    if isWordHalf lo then
      match fetchHalf (s.pc + 2) s with
      | .done hi _ => .done (.word (wordOfHalves lo hi)) s
      | .trap e t _ => .trap e t s
      | .stuck f => .stuck f
    else .done (.half lo) s
  | .trap e t _ => .trap e t s
  | .stuck f => .stuck f

/-- Store bytes at ascending addresses from `pa`, modulo 2^64. -/
def placeBytes (m : Memory) (pa : Word) : List Byte → Memory
  | [] => m
  | b :: bs => placeBytes (m.set pa.toNat b) (pa + 1) bs

end Sys2Proof.Machine
end

