-- ==== Sys2Proof/Machine/Operands.lean ====
section
/-! DEFINITION. The operand forms: immediates and offsets as 64-bit values from the bits an instruction holds
(spec/30_encoding.md R255 to R263, spec/47_compressed.md R600 to R632), the registers that three-bit fields name (R454),
shift amounts, and effective addresses (R360). -/

namespace Sys2Proof.Machine

/-- `sext_12(imm)`: the I- and S-immediates (R255, R256). -/
def imm12 (imm : BitVec 12) : Word := sext imm

/-- `sext_13({imm, 1'b0})`: the branch offset (R257). -/
def branchOffset (imm : BitVec 12) : Word := sext (imm ++ (0 : BitVec 1))

/-- `sext_32({imm, 12'b0})`: the upper immediate (R258). -/
def upperImm (imm : BitVec 20) : Word := sext (imm ++ (0 : BitVec 12))

/-- `sext_21({imm, 1'b0})`: the `jal` offset (R259). -/
def jumpOffset (imm : BitVec 20) : Word := sext (imm ++ (0 : BitVec 1))

/-- `zext_5(uimm)`: the immediate of the CSR instructions (R263). -/
def csrImm (uimm : BitVec 5) : Word := zext uimm

/-- `x[xs2][5:0]`, the shift amount of the 64-bit shifts (R306). -/
def shamt64 (v : Word) : Nat := v.toNat % 64

/-- `x[xs2][4:0]`, the shift amount of the word shifts (R587). -/
def shamt32 (v : Word) : Nat := v.toNat % 32

/-- `r'(f) = 8 + f` (R454). -/
def cReg (f : CReg) : Reg := (1 : BitVec 2) ++ f

/-- `sext_6(imm)` (R605 to R608, R613). -/
def cImm6 (imm : BitVec 6) : Word := sext imm

/-- `nzuimm` of `c.addi4spn` (R600). -/
def cAddi4spnImm (imm : BitVec 8) : Word := zext (imm ++ (0 : BitVec 2))

/-- `nzimm` of `c.addi16sp` (R609). -/
def cAddi16spImm (imm : BitVec 6) : Word := sext (imm ++ (0 : BitVec 4))

/-- `sext_18({imm, 12'b0})`: the value `c.lui` writes (R610). -/
def cLuiImm (imm : BitVec 6) : Word := sext (imm ++ (0 : BitVec 12))

/-- The offset of `c.lw` and `c.sw` (R601). -/
def cLwOffset (imm : BitVec 5) : Word := zext (imm ++ (0 : BitVec 2))

/-- The offset of `c.ld` and `c.sd` (R602). -/
def cLdOffset (imm : BitVec 5) : Word := zext (imm ++ (0 : BitVec 3))

/-- The offset of `c.lwsp` and `c.swsp` (R624, R631). -/
def cLwspOffset (imm : BitVec 6) : Word := zext (imm ++ (0 : BitVec 2))

/-- The offset of `c.ldsp` and `c.sdsp` (R626, R632). -/
def cLdspOffset (imm : BitVec 6) : Word := zext (imm ++ (0 : BitVec 3))

/-- The offset of `c.j` (R620). -/
def cJumpOffset (imm : BitVec 11) : Word := sext (imm ++ (0 : BitVec 1))

/-- The offset of `c.beqz` and `c.bnez` (R621). -/
def cBranchOffset (imm : BitVec 8) : Word := sext (imm ++ (0 : BitVec 1))

/-- The low 32 bits of a register value. -/
def low32 (v : Word) : BitVec 32 := v.setWidth 32

/-- The effective address of a load or store (R360). -/
def effAddr (xs1 : Reg) (offset : Word) (s : State) : Word := readReg xs1 s + offset

end Sys2Proof.Machine
end

