-- ==== Sys2Proof/Machine/Csr.lean ====
section
/-! DEFINITION. The control and status registers (spec/11_csr_trap.md, spec/12_csr_id_counters.md): which exist, what
software reads, what a software write stores, and the access path common to the six Zicsr instructions
(spec/45_zicsr.md R410 to R414). -/

namespace Sys2Proof.Machine

/-- The 19 CSRs of R47. -/
inductive Csr where
  | mstatus
  | misa
  | mie
  | mtvec
  | mcountinhibit
  | mscratch
  | mepc
  | mcause
  | mtval
  | mip
  | mcycle
  | minstret
  | cycle
  | time
  | instret
  | mvendorid
  | marchid
  | mimpid
  | mhartid
  deriving DecidableEq, Repr

/-- The address of each CSR (R47). -/
def Csr.address : Csr → CsrAddr
  | .mstatus => 0x300
  | .misa => 0x301
  | .mie => 0x304
  | .mtvec => 0x305
  | .mcountinhibit => 0x320
  | .mscratch => 0x340
  | .mepc => 0x341
  | .mcause => 0x342
  | .mtval => 0x343
  | .mip => 0x344
  | .mcycle => 0xB00
  | .minstret => 0xB02
  | .cycle => 0xC00
  | .time => 0xC01
  | .instret => 0xC02
  | .mvendorid => 0xF11
  | .marchid => 0xF12
  | .mimpid => 0xF13
  | .mhartid => 0xF14

/-- The CSRs in the order of R47. -/
def Csr.all : List Csr :=
  [.mstatus, .misa, .mie, .mtvec, .mcountinhibit, .mscratch, .mepc, .mcause, .mtval, .mip, .mcycle, .minstret,
    .cycle, .time, .instret, .mvendorid, .marchid, .mimpid, .mhartid]

/-- Does the configuration have the CSR (R47, R181, R185)? -/
def Csr.exists? (c : Config) : Csr → Bool
  | .cycle => c.zicntrImplemented
  | .time => c.zicntrImplemented && c.timeCsrImplemented
  | .instret => c.zicntrImplemented
  | _ => true

/-- `direct_csr_lookup` (R411). -/
def csrLookup (c : Config) (a : CsrAddr) : Option Csr :=
  Csr.all.find? (fun r => r.address == a && r.exists? c)

/-- `writable == false`: address bits 11:10 are 11 (R414). -/
def csrReadOnly (a : CsrAddr) : Bool := a.extractLsb' 10 2 == 3

/-- A single bit at a position. -/
def bitAt (b : Bool) (k : Nat) : Word := if b then BitVec.ofNat 64 (2 ^ k) else 0

/-- Three interrupt bits in the format of `mie` and `mip` (R106, R111). -/
def irqWord (b : IrqBits) : Word := bitAt b.mei 11 ||| bitAt b.mti 7 ||| bitAt b.msi 3

/-- The value of `mstatus` (R82, R94); `MPP` reads 3. -/
def mstatusWord (m : Mstatus) : Word :=
  0x1800 ||| bitAt m.mpie 7 ||| bitAt m.mie 3 ||| bitAt m.tsr 22 ||| bitAt m.tw 21 ||| bitAt m.mxr 19

/-- The value of `misa` (R100, R101). -/
def misaWord (c : Config) : Word :=
  if c.misaCsrImplemented then 0x8000000000000104 ||| bitAt c.mImplemented 12 else 0

/-- `mtvec.MODE` as the register holds it (R130). -/
def modeBits : VecMode → BitVec 2
  | .direct => 0
  | .vectored => 1

/-- The value of `mtvec` (R133). -/
def mtvecWord (t : Mtvec) : Word := t.base ++ modeBits t.mode

/-- The value of `mcause` (R143). -/
def mcauseWord (m : Mcause) : Word := BitVec.ofBool m.int ++ m.code

/-- `csr_sw_read` (R412): the software view of each CSR; reading changes no state. -/
def csrRead (r : Csr) (s : State) : Word :=
  match r with
  | .mstatus => mstatusWord s.mstatus
  | .misa => misaWord s.cfg
  | .mie => irqWord s.mie
  | .mtvec => mtvecWord s.mtvec
  | .mcountinhibit => bitAt s.mcountinhibit.ir 2 ||| bitAt s.mcountinhibit.cy 0
  | .mscratch => s.mscratch
  | .mepc => s.mepc &&& ~~~(1 : Word)
  | .mcause => mcauseWord s.mcause
  | .mtval => s.mtval
  | .mip => irqWord s.mip
  | .mcycle => s.mcycle
  | .minstret => s.minstret
  | .cycle => s.mcycle
  | .time => currentMtime s
  | .instret => s.minstret
  | .mvendorid => zext (s.cfg.vendorIdBank ++ s.cfg.vendorIdOffset)
  | .marchid => if s.cfg.marchidImplemented then s.cfg.archIdValue else 0
  | .mimpid => if s.cfg.mimpidImplemented then s.cfg.impIdValue else 0
  | .mhartid => s.cfg.hartId

/-- Bit `k` of a written value. -/
def bitOf (v : Word) (k : Nat) : Bool := v.getLsbD k

/-- `mstatus` after a software write (R94). -/
def mstatusWrite (c : Config) (m : Mstatus) (v : Word) : Mstatus :=
  { mie := bitOf v 3
    mpie := bitOf v 7
    tsr := if c.tsrWritable then bitOf v 22 else m.tsr
    tw := if c.twWritable then bitOf v 21 else m.tw
    mxr := if c.mxrWritable then bitOf v 19 else m.mxr }

/-- `mie` after a software write (R107). -/
def mieWrite (c : Config) (v : Word) : IrqBits :=
  { mei := bitOf v 11 && c.mieWritable.mei
    mti := bitOf v 7 && c.mieWritable.mti
    msi := bitOf v 3 && c.mieWritable.msi }

/-- The exponent of the alignment of `mtvec.BASE` in a mode (R132). -/
def mtvecAlign (c : Config) : VecMode → Nat
  | .direct => c.mtvecAlignDirect
  | .vectored => c.mtvecAlignVectored

/-- The mode is an element of `MTVEC_MODES` (R131). -/
def mtvecModeOk (c : Config) : VecMode → Bool
  | .direct => c.mtvecDirectOk
  | .vectored => c.mtvecVectoredOk

/-- A value of `mtvec` that its mode and its alignment make legal (R131, R132). -/
def mtvecLegal (c : Config) (t : Mtvec) : Bool :=
  mtvecModeOk c t.mode && t.target.toNat % 2 ^ mtvecAlign c t.mode == 0

/-- The fields of a written value, if its mode is 0 or 1. -/
def mtvecOfWord (v : Word) : Option Mtvec :=
  if v.extractLsb' 0 2 = 0 then some { base := v.extractLsb' 2 62, mode := .direct }
  else if v.extractLsb' 0 2 = 1 then some { base := v.extractLsb' 2 62, mode := .vectored }
  else none

/-- The fields of a written value, if they are legal (R131, R132). -/
def mtvecLegalOfWord (c : Config) (v : Word) : Option Mtvec :=
  match mtvecOfWord v with
  | some t => if mtvecLegal c t then some t else none
  | none => none

/-- `mtvec` after an illegal write (R131): kept, or some legal value that is a function of the old value and the written
one, the free value `Config.mtvecCustomWrite`; where that constant is no legal value the old value stands for it
(notes/assumptions/10.md). -/
def mtvecIllegal (c : Config) (t : Mtvec) (v : Word) : Mtvec :=
  match c.mtvecIllegalWrite with
  | .retain => t
  | .custom =>
    match mtvecLegalOfWord c (Config.mtvecCustomWrite (mtvecWord t) v) with
    | some t' => t'
    | none => t

/-- `mtvec` after a software write (R131 to R133). -/
def mtvecWrite (c : Config) (t : Mtvec) (v : Word) : Mtvec :=
  match c.mtvecAccess with
  | .ro => t
  | .rw =>
    match mtvecLegalOfWord c v with
    | some t' => t'
    | none => mtvecIllegal c t v

/-- The fields of a value written to `mcause`. -/
def mcauseOfWord (v : Word) : Mcause := { int := bitOf v 63, code := v.extractLsb' 0 63 }

/-- The combination of `INT` and `CODE` is valid for a software write (R142, R144). -/
def mcauseLegal (c : Config) (m : Mcause) : Bool :=
  if m.int then c.mcauseLegalInterrupts.contains m.code.toNat else c.mcauseLegalExceptions.contains m.code.toNat

/-- `csr_sw_write` (R413): what a software write stores; `none` is an illegal write of `mcause` that raises (R142). -/
def csrWrite (r : Csr) (v : Word) (s : State) : Option State :=
  match r with
  | .mstatus => some { s with mstatus := mstatusWrite s.cfg s.mstatus v }
  | .mie => some { s with mie := mieWrite s.cfg v }
  | .mtvec => some { s with mtvec := mtvecWrite s.cfg s.mtvec v }
  | .mcountinhibit =>
    some { s with
      mcountinhibit :=
        { cy := if s.cfg.countinhibitCy then bitOf v 0 else s.mcountinhibit.cy
          ir := if s.cfg.countinhibitIr then bitOf v 2 else s.mcountinhibit.ir } }
  | .mscratch => some { s with mscratch := v }
  | .mepc => some { s with mepc := v &&& ~~~(1 : Word) }
  | .mcause =>
    if mcauseLegal s.cfg (mcauseOfWord v) then some { s with mcause := mcauseOfWord v }
    else if s.cfg.trapOnIllegalWlrl then none
    else some s
  | .mtval => some { s with mtval := mtvalClip s.cfg v }
  | .mcycle => some { s with mcycle := v }
  | .minstret => some { s with minstret := v }
  | .misa | .mip | .cycle | .time | .instret | .mvendorid | .marchid | .mimpid | .mhartid => some s

/-- A CSR instruction that wrote `r` completes: a write of `minstret` is not counted on top (R180). -/
def csrRetire (r : Csr) (s : State) : State :=
  if r = .minstret then { s with pc := s.pc + 4 } else retire 4 s

/-- THE ACCESS PATH of the six Zicsr instructions (R410): `ins` is the instruction's own encoding, `will` its
`will_write` (R414), `new` the value it writes, from the value read. -/
def csrAccess (ins : Word) (a : CsrAddr) (xd : Reg) (will : Bool) (new : Word → Word) (s : State) :
    Host.Outcome State Fault Refusal :=
  match csrLookup s.cfg a with
  | none =>
    if s.cfg.trapOnUnimplementedCsr then .next (trapEntry .illegalInstruction ins s)
    else .fault (.unpredictableCsr a)
  | some r =>
    if will && csrReadOnly a then .next (trapEntry .illegalInstruction ins s)
    else if will then
      match csrWrite r (new (csrRead r s)) s with
      | none => .next (trapEntry .illegalInstruction ins s)
      | some s' => .next (csrRetire r (writeReg xd (csrRead r s) s'))
    else .next (retire 4 (writeReg xd (csrRead r s) s))

end Sys2Proof.Machine
end

