-- ==== Sys2Proof/Machine/Flags.lean ====
section
/-! DEFINITION. The hart has no condition codes, no carry and no overflow bit (spec/10_state.md R43). What stands in their
place is here: the comparisons that `slt` and its forms write to a register (R312 to R315) and that the branches test
(R343 to R348). -/

namespace Sys2Proof.Machine

/-- `a <s b` (R21). -/
def ltSigned (a b : Word) : Bool := decide (a.toInt < b.toInt)

/-- `a <u b` (R21). -/
def ltUnsigned (a b : Word) : Bool := decide (a.toNat < b.toNat)

/-- A comparison as the value 1 or 0 in a register (R312). -/
def boolWord (b : Bool) : Word := if b then 1 else 0

end Sys2Proof.Machine
end

