-- ==== Sys2Proof/Machine/Shared.lean ====
section
/-! DEFINITION. The operations that meanings of one shape share, over the length of the instruction, 4 or 2 bytes (spec/47_compressed.md R452). -/

namespace Sys2Proof.Machine

/-- The instruction writes `v` to `xd` and goes on after its `len` bytes (R300). -/
def complete (len : Word) (xd : Reg) (v : Word) (s : State) : Host.Outcome State Fault Refusal :=
  .next (retire len (writeReg xd v s))

/-- The instruction changes nothing and goes on after its `len` bytes. -/
def completeNop (len : Word) (s : State) : Host.Outcome State Fault Refusal :=
  .next (retire len s)

/-- A jump that writes the address of the next instruction to `xd` (R340, R341, R452). -/
def jumpLink (len : Word) (xd : Reg) (target : Word) (s : State) : Host.Outcome State Fault Refusal :=
  .next (retireTo target (writeReg xd (s.pc + len) s))

/-- A conditional branch (R342). -/
def branch (len : Word) (taken : Bool) (offset : Word) (s : State) : Host.Outcome State Fault Refusal :=
  .next (retireTo (if taken then s.pc + offset else s.pc + len) s)

/-- The low bit cleared, the target of the register jumps (R341). -/
def clearBit0 (v : Word) : Word := v &&& ~~~(1 : Word)

/-- A load of `n` bytes that sign-extends (R361, R363, R365, R366). -/
def loadSigned (len : Word) (n : Nat) (xd : Reg) (va : Word) (s : State) : Host.Outcome State Fault Refusal :=
  (memRead va n s).finish fun v s' => retire len (writeReg xd (sext (BitVec.ofNat (8 * n) v)) s')

/-- A load of `n` bytes that zero-extends (R362, R364, R590). -/
def loadUnsigned (len : Word) (n : Nat) (xd : Reg) (va : Word) (s : State) : Host.Outcome State Fault Refusal :=
  (memRead va n s).finish fun v s' => retire len (writeReg xd (zext (BitVec.ofNat (8 * n) v)) s')

/-- A store of the low `n` bytes of `xs2` (R367 to R370). -/
def store (len : Word) (n : Nat) (xs2 : Reg) (va : Word) (s : State) : Host.Outcome State Fault Refusal :=
  (memWrite va n (readReg xs2 s).toNat s).finish fun _ s' => retire len s'

/-- An instruction that is nothing but a `raise` (R430, R431). -/
def raiseExc (e : Exc) (tval : Word) (s : State) : Host.Outcome State Fault Refusal :=
  .next (trapEntry e tval s)

end Sys2Proof.Machine
end

