-- ==== Sys2Proof/Machine/Compressed.lean ====
section
/-! DEFINITION. The compressed instructions (spec/47_compressed.md), each as its 32-bit expansion (R636) with the three differences of
R452: length 2, link value and offsets from its own address. PRESUMED: the instruction list is general knowledge
(notes/assumptions/6.md). -/

namespace Sys2Proof.Machine

/-- `c.addi4spn` (R600). -/
def execCAddi4spn (xd : CReg) (imm : BitVec 8) (s : State) : Host.Outcome State Fault Refusal :=
  complete 2 (cReg xd) (readReg 2 s + cAddi4spnImm imm) s

/-- `c.lw` (R601). -/
def execCLw (xd xs1 : CReg) (imm : BitVec 5) (s : State) : Host.Outcome State Fault Refusal :=
  loadSigned 2 4 (cReg xd) (effAddr (cReg xs1) (cLwOffset imm) s) s

/-- `c.ld` (R602). -/
def execCLd (xd xs1 : CReg) (imm : BitVec 5) (s : State) : Host.Outcome State Fault Refusal :=
  loadSigned 2 8 (cReg xd) (effAddr (cReg xs1) (cLdOffset imm) s) s

/-- `c.sw` (R603). -/
def execCSw (xs1 xs2 : CReg) (imm : BitVec 5) (s : State) : Host.Outcome State Fault Refusal :=
  store 2 4 (cReg xs2) (effAddr (cReg xs1) (cLwOffset imm) s) s

/-- `c.sd` (R604). -/
def execCSd (xs1 xs2 : CReg) (imm : BitVec 5) (s : State) : Host.Outcome State Fault Refusal :=
  store 2 8 (cReg xs2) (effAddr (cReg xs1) (cLdOffset imm) s) s

/-- `c.nop` (R605). -/
def execCNop (imm : BitVec 6) (s : State) : Host.Outcome State Fault Refusal :=
  complete 2 0 (readReg 0 s + cImm6 imm) s

/-- `c.addi` (R606). -/
def execCAddi (xd : Reg) (imm : BitVec 6) (s : State) : Host.Outcome State Fault Refusal :=
  complete 2 xd (readReg xd s + cImm6 imm) s

/-- `c.addiw` (R607). -/
def execCAddiw (xd : Reg) (imm : BitVec 6) (s : State) : Host.Outcome State Fault Refusal :=
  complete 2 xd (sext (low32 (readReg xd s + cImm6 imm))) s

/-- `c.li` (R608). -/
def execCLi (xd : Reg) (imm : BitVec 6) (s : State) : Host.Outcome State Fault Refusal :=
  complete 2 xd (cImm6 imm) s

/-- `c.addi16sp` (R609). -/
def execCAddi16sp (imm : BitVec 6) (s : State) : Host.Outcome State Fault Refusal :=
  complete 2 2 (readReg 2 s + cAddi16spImm imm) s

/-- `c.lui` (R610). -/
def execCLui (xd : Reg) (imm : BitVec 6) (s : State) : Host.Outcome State Fault Refusal :=
  complete 2 xd (cLuiImm imm) s

/-- `c.srli` (R611). -/
def execCSrli (xd : CReg) (shamt : BitVec 6) (s : State) : Host.Outcome State Fault Refusal :=
  complete 2 (cReg xd) (readReg (cReg xd) s >>> shamt.toNat) s

/-- `c.srai` (R612). -/
def execCSrai (xd : CReg) (shamt : BitVec 6) (s : State) : Host.Outcome State Fault Refusal :=
  complete 2 (cReg xd) ((readReg (cReg xd) s).sshiftRight shamt.toNat) s

/-- `c.andi` (R613). -/
def execCAndi (xd : CReg) (imm : BitVec 6) (s : State) : Host.Outcome State Fault Refusal :=
  complete 2 (cReg xd) (readReg (cReg xd) s &&& cImm6 imm) s

/-- `c.sub` (R614). -/
def execCSub (xd xs2 : CReg) (s : State) : Host.Outcome State Fault Refusal :=
  complete 2 (cReg xd) (readReg (cReg xd) s - readReg (cReg xs2) s) s

/-- `c.xor` (R615). -/
def execCXor (xd xs2 : CReg) (s : State) : Host.Outcome State Fault Refusal :=
  complete 2 (cReg xd) (readReg (cReg xd) s ^^^ readReg (cReg xs2) s) s

/-- `c.or` (R616). -/
def execCOr (xd xs2 : CReg) (s : State) : Host.Outcome State Fault Refusal :=
  complete 2 (cReg xd) (readReg (cReg xd) s ||| readReg (cReg xs2) s) s

/-- `c.and` (R617). -/
def execCAnd (xd xs2 : CReg) (s : State) : Host.Outcome State Fault Refusal :=
  complete 2 (cReg xd) (readReg (cReg xd) s &&& readReg (cReg xs2) s) s

/-- `c.subw` (R618). -/
def execCSubw (xd xs2 : CReg) (s : State) : Host.Outcome State Fault Refusal :=
  complete 2 (cReg xd) (sext (low32 (readReg (cReg xd) s - readReg (cReg xs2) s))) s

/-- `c.addw` (R619). -/
def execCAddw (xd xs2 : CReg) (s : State) : Host.Outcome State Fault Refusal :=
  complete 2 (cReg xd) (sext (low32 (readReg (cReg xd) s + readReg (cReg xs2) s))) s

/-- `c.j` (R620). -/
def execCJ (imm : BitVec 11) (s : State) : Host.Outcome State Fault Refusal :=
  jumpLink 2 0 (s.pc + cJumpOffset imm) s

/-- `c.beqz` (R621). -/
def execCBeqz (xs1 : CReg) (imm : BitVec 8) (s : State) : Host.Outcome State Fault Refusal :=
  branch 2 (readReg (cReg xs1) s == 0) (cBranchOffset imm) s

/-- `c.bnez` (R622). -/
def execCBnez (xs1 : CReg) (imm : BitVec 8) (s : State) : Host.Outcome State Fault Refusal :=
  branch 2 (readReg (cReg xs1) s != 0) (cBranchOffset imm) s

/-- `c.slli` (R623). -/
def execCSlli (xd : Reg) (shamt : BitVec 6) (s : State) : Host.Outcome State Fault Refusal :=
  complete 2 xd (readReg xd s <<< shamt.toNat) s

/-- `c.lwsp` (R624). -/
def execCLwsp (xd : Reg) (imm : BitVec 6) (s : State) : Host.Outcome State Fault Refusal :=
  loadSigned 2 4 xd (effAddr 2 (cLwspOffset imm) s) s

/-- `c.ebreak` (R625). -/
def execCEbreak (s : State) : Host.Outcome State Fault Refusal :=
  raiseExc .breakpoint s.pc s

/-- `c.ldsp` (R626). -/
def execCLdsp (xd : Reg) (imm : BitVec 6) (s : State) : Host.Outcome State Fault Refusal :=
  loadSigned 2 8 xd (effAddr 2 (cLdspOffset imm) s) s

/-- `c.jr` (R627). -/
def execCJr (xs1 : Reg) (s : State) : Host.Outcome State Fault Refusal :=
  jumpLink 2 0 (clearBit0 (readReg xs1 s)) s

/-- `c.mv` (R628). -/
def execCMv (xd xs2 : Reg) (s : State) : Host.Outcome State Fault Refusal :=
  complete 2 xd (readReg xs2 s) s

/-- `c.jalr` (R629). -/
def execCJalr (xs1 : Reg) (s : State) : Host.Outcome State Fault Refusal :=
  jumpLink 2 1 (clearBit0 (readReg xs1 s)) s

/-- `c.add` (R630). -/
def execCAdd (xd xs2 : Reg) (s : State) : Host.Outcome State Fault Refusal :=
  complete 2 xd (readReg xd s + readReg xs2 s) s

/-- `c.swsp` (R631). -/
def execCSwsp (xs2 : Reg) (imm : BitVec 6) (s : State) : Host.Outcome State Fault Refusal :=
  store 2 4 xs2 (effAddr 2 (cLwspOffset imm) s) s

/-- `c.sdsp` (R632). -/
def execCSdsp (xs2 : Reg) (imm : BitVec 6) (s : State) : Host.Outcome State Fault Refusal :=
  store 2 8 xs2 (effAddr 2 (cLdspOffset imm) s) s

end Sys2Proof.Machine
end

