-- ==== Sys2Proof/Machine/ControlTransfer.lean ====
section
/-! DEFINITION. Jumps and branches (spec/41_control_transfer.md). No target can be misaligned (R349), so none raises. -/

namespace Sys2Proof.Machine

/-- `jal` (R340). -/
def execJal (xd : Reg) (imm : BitVec 20) (s : State) : Host.Outcome State Fault Refusal :=
  jumpLink 4 xd (s.pc + jumpOffset imm) s

/-- `jalr` (R341); the target is formed from the old `xs1`. -/
def execJalr (xd xs1 : Reg) (imm : BitVec 12) (s : State) : Host.Outcome State Fault Refusal :=
  jumpLink 4 xd (clearBit0 (readReg xs1 s + imm12 imm)) s

/-- `beq` (R343). -/
def execBeq (xs1 xs2 : Reg) (imm : BitVec 12) (s : State) : Host.Outcome State Fault Refusal :=
  branch 4 (readReg xs1 s == readReg xs2 s) (branchOffset imm) s

/-- `bne` (R344). -/
def execBne (xs1 xs2 : Reg) (imm : BitVec 12) (s : State) : Host.Outcome State Fault Refusal :=
  branch 4 (readReg xs1 s != readReg xs2 s) (branchOffset imm) s

/-- `blt` (R345). -/
def execBlt (xs1 xs2 : Reg) (imm : BitVec 12) (s : State) : Host.Outcome State Fault Refusal :=
  branch 4 (ltSigned (readReg xs1 s) (readReg xs2 s)) (branchOffset imm) s

/-- `bge` (R346). -/
def execBge (xs1 xs2 : Reg) (imm : BitVec 12) (s : State) : Host.Outcome State Fault Refusal :=
  branch 4 (!ltSigned (readReg xs1 s) (readReg xs2 s)) (branchOffset imm) s

/-- `bltu` (R347). -/
def execBltu (xs1 xs2 : Reg) (imm : BitVec 12) (s : State) : Host.Outcome State Fault Refusal :=
  branch 4 (ltUnsigned (readReg xs1 s) (readReg xs2 s)) (branchOffset imm) s

/-- `bgeu` (R348). -/
def execBgeu (xs1 xs2 : Reg) (imm : BitVec 12) (s : State) : Host.Outcome State Fault Refusal :=
  branch 4 (!ltUnsigned (readReg xs1 s) (readReg xs2 s)) (branchOffset imm) s

end Sys2Proof.Machine
end

