-- ==== Sys2Proof/Machine/Fence.lean ====
section
/-! DEFINITION. The ordering instructions (spec/43_fence.md). On one hart whose accesses take effect in program order there is no
reordering to forbid, so both change no state (R380; notes/assumptions/13.md); all their fields are ignored. -/

namespace Sys2Proof.Machine

/-- `fence` (R381): every value of its fields, reserved ones too, acts as this (R271). -/
def execFence (_fm _pred _succ : BitVec 4) (_xs1 _xd : Reg) (s : State) : Host.Outcome State Fault Refusal :=
  completeNop 4 s

/-- `fence.tso` (R382). -/
def execFenceTso (_xs1 _xd : Reg) (s : State) : Host.Outcome State Fault Refusal :=
  completeNop 4 s

end Sys2Proof.Machine
end

