-- ==== Sys2Proof/Machine/IntegerImm.lean ====
section
/-! DEFINITION. The register-immediate and upper-immediate instructions of I (spec/40_integer_computational.md sections 3 and 4). -/

namespace Sys2Proof.Machine

/-- `addi` (R316). -/
def execAddi (xd xs1 : Reg) (imm : BitVec 12) (s : State) : Host.Outcome State Fault Refusal :=
  complete 4 xd (readReg xs1 s + imm12 imm) s

/-- `slti` (R314). -/
def execSlti (xd xs1 : Reg) (imm : BitVec 12) (s : State) : Host.Outcome State Fault Refusal :=
  complete 4 xd (boolWord (ltSigned (readReg xs1 s) (imm12 imm))) s

/-- `sltiu` (R315). -/
def execSltiu (xd xs1 : Reg) (imm : BitVec 12) (s : State) : Host.Outcome State Fault Refusal :=
  complete 4 xd (boolWord (ltUnsigned (readReg xs1 s) (imm12 imm))) s

/-- `xori` (R319). -/
def execXori (xd xs1 : Reg) (imm : BitVec 12) (s : State) : Host.Outcome State Fault Refusal :=
  complete 4 xd (readReg xs1 s ^^^ imm12 imm) s

/-- `ori` (R318). -/
def execOri (xd xs1 : Reg) (imm : BitVec 12) (s : State) : Host.Outcome State Fault Refusal :=
  complete 4 xd (readReg xs1 s ||| imm12 imm) s

/-- `andi` (R317). -/
def execAndi (xd xs1 : Reg) (imm : BitVec 12) (s : State) : Host.Outcome State Fault Refusal :=
  complete 4 xd (readReg xs1 s &&& imm12 imm) s

/-- `slli` (R320). -/
def execSlli (xd xs1 : Reg) (shamt : BitVec 6) (s : State) : Host.Outcome State Fault Refusal :=
  complete 4 xd (readReg xs1 s <<< shamt.toNat) s

/-- `srli` (R321). -/
def execSrli (xd xs1 : Reg) (shamt : BitVec 6) (s : State) : Host.Outcome State Fault Refusal :=
  complete 4 xd (readReg xs1 s >>> shamt.toNat) s

/-- `srai` (R322). -/
def execSrai (xd xs1 : Reg) (shamt : BitVec 6) (s : State) : Host.Outcome State Fault Refusal :=
  complete 4 xd ((readReg xs1 s).sshiftRight shamt.toNat) s

/-- `lui` (R323). -/
def execLui (xd : Reg) (imm : BitVec 20) (s : State) : Host.Outcome State Fault Refusal :=
  complete 4 xd (upperImm imm) s

/-- `auipc` (R324). -/
def execAuipc (xd : Reg) (imm : BitVec 20) (s : State) : Host.Outcome State Fault Refusal :=
  complete 4 xd (s.pc + upperImm imm) s

end Sys2Proof.Machine
end

