-- ==== Sys2Proof/Machine/IntegerReg.lean ====
section
/-! DEFINITION. The register-register instructions of I (spec/40_integer_computational.md section 2). -/

namespace Sys2Proof.Machine

/-- `add` (R301). -/
def execAdd (xd xs1 xs2 : Reg) (s : State) : Host.Outcome State Fault Refusal :=
  complete 4 xd (readReg xs1 s + readReg xs2 s) s

/-- `sub` (R302). -/
def execSub (xd xs1 xs2 : Reg) (s : State) : Host.Outcome State Fault Refusal :=
  complete 4 xd (readReg xs1 s - readReg xs2 s) s

/-- `sll` (R306). -/
def execSll (xd xs1 xs2 : Reg) (s : State) : Host.Outcome State Fault Refusal :=
  complete 4 xd (readReg xs1 s <<< shamt64 (readReg xs2 s)) s

/-- `slt` (R312). -/
def execSlt (xd xs1 xs2 : Reg) (s : State) : Host.Outcome State Fault Refusal :=
  complete 4 xd (boolWord (ltSigned (readReg xs1 s) (readReg xs2 s))) s

/-- `sltu` (R313). -/
def execSltu (xd xs1 xs2 : Reg) (s : State) : Host.Outcome State Fault Refusal :=
  complete 4 xd (boolWord (ltUnsigned (readReg xs1 s) (readReg xs2 s))) s

/-- `xor` (R305). -/
def execXor (xd xs1 xs2 : Reg) (s : State) : Host.Outcome State Fault Refusal :=
  complete 4 xd (readReg xs1 s ^^^ readReg xs2 s) s

/-- `srl` (R307). -/
def execSrl (xd xs1 xs2 : Reg) (s : State) : Host.Outcome State Fault Refusal :=
  complete 4 xd (readReg xs1 s >>> shamt64 (readReg xs2 s)) s

/-- `sra` (R308). -/
def execSra (xd xs1 xs2 : Reg) (s : State) : Host.Outcome State Fault Refusal :=
  complete 4 xd ((readReg xs1 s).sshiftRight (shamt64 (readReg xs2 s))) s

/-- `or` (R304). -/
def execOr (xd xs1 xs2 : Reg) (s : State) : Host.Outcome State Fault Refusal :=
  complete 4 xd (readReg xs1 s ||| readReg xs2 s) s

/-- `and` (R303). -/
def execAnd (xd xs1 xs2 : Reg) (s : State) : Host.Outcome State Fault Refusal :=
  complete 4 xd (readReg xs1 s &&& readReg xs2 s) s

end Sys2Proof.Machine
end

