-- ==== Sys2Proof/Machine/LoadStore.lean ====
section
/-! DEFINITION. Loads and stores (spec/42_load_store.md). -/

namespace Sys2Proof.Machine

/-- `lb` (R361). -/
def execLb (xd xs1 : Reg) (imm : BitVec 12) (s : State) : Host.Outcome State Fault Refusal :=
  loadSigned 4 1 xd (effAddr xs1 (imm12 imm) s) s

/-- `lh` (R363). -/
def execLh (xd xs1 : Reg) (imm : BitVec 12) (s : State) : Host.Outcome State Fault Refusal :=
  loadSigned 4 2 xd (effAddr xs1 (imm12 imm) s) s

/-- `lw` (R365). -/
def execLw (xd xs1 : Reg) (imm : BitVec 12) (s : State) : Host.Outcome State Fault Refusal :=
  loadSigned 4 4 xd (effAddr xs1 (imm12 imm) s) s

/-- `ld` (R366). -/
def execLd (xd xs1 : Reg) (imm : BitVec 12) (s : State) : Host.Outcome State Fault Refusal :=
  loadSigned 4 8 xd (effAddr xs1 (imm12 imm) s) s

/-- `lbu` (R362). -/
def execLbu (xd xs1 : Reg) (imm : BitVec 12) (s : State) : Host.Outcome State Fault Refusal :=
  loadUnsigned 4 1 xd (effAddr xs1 (imm12 imm) s) s

/-- `lhu` (R364). -/
def execLhu (xd xs1 : Reg) (imm : BitVec 12) (s : State) : Host.Outcome State Fault Refusal :=
  loadUnsigned 4 2 xd (effAddr xs1 (imm12 imm) s) s

/-- `sb` (R367). -/
def execSb (xs1 xs2 : Reg) (imm : BitVec 12) (s : State) : Host.Outcome State Fault Refusal :=
  store 4 1 xs2 (effAddr xs1 (imm12 imm) s) s

/-- `sh` (R368). -/
def execSh (xs1 xs2 : Reg) (imm : BitVec 12) (s : State) : Host.Outcome State Fault Refusal :=
  store 4 2 xs2 (effAddr xs1 (imm12 imm) s) s

/-- `sw` (R369). -/
def execSw (xs1 xs2 : Reg) (imm : BitVec 12) (s : State) : Host.Outcome State Fault Refusal :=
  store 4 4 xs2 (effAddr xs1 (imm12 imm) s) s

/-- `sd` (R370). -/
def execSd (xs1 xs2 : Reg) (imm : BitVec 12) (s : State) : Host.Outcome State Fault Refusal :=
  store 4 8 xs2 (effAddr xs1 (imm12 imm) s) s

end Sys2Proof.Machine
end

