-- ==== Sys2Proof/Machine/MulDiv.lean ====
section
/-! DEFINITION. Multiply and divide (spec/44_muldiv.md). The guard on `misa.M` never fires (R390): a configuration without M does not
decode these words. -/

namespace Sys2Proof.Machine

/-- The upper half of a 128-bit product (R392). -/
def upperHalf (p : Int) : Word := (BitVec.ofInt 128 p).extractLsb' 64 64

/-- Signed division at a width (R395, R592): toward zero, with the two corner values. -/
def divSigned {n : Nat} (a b : BitVec n) : BitVec n :=
  if b = 0 then BitVec.allOnes n
  else if a = BitVec.intMin n ∧ b = BitVec.allOnes n then BitVec.intMin n
  else BitVec.ofInt n (a.toInt.tdiv b.toInt)

/-- Unsigned division at a width (R396, R593). -/
def divUnsigned {n : Nat} (a b : BitVec n) : BitVec n :=
  if b = 0 then BitVec.allOnes n else BitVec.ofNat n (a.toNat / b.toNat)

/-- Signed remainder at a width (R397, R594). -/
def remSigned {n : Nat} (a b : BitVec n) : BitVec n :=
  if b = 0 then a
  else if a = BitVec.intMin n ∧ b = BitVec.allOnes n then 0
  else BitVec.ofInt n (a.toInt - b.toInt * a.toInt.tdiv b.toInt)

/-- Unsigned remainder at a width (R398, R595). -/
def remUnsigned {n : Nat} (a b : BitVec n) : BitVec n :=
  if b = 0 then a else BitVec.ofNat n (a.toNat % b.toNat)

/-- `mul` (R391). -/
def execMul (xd xs1 xs2 : Reg) (s : State) : Host.Outcome State Fault Refusal :=
  complete 4 xd (readReg xs1 s * readReg xs2 s) s

/-- `mulh` (R392). -/
def execMulh (xd xs1 xs2 : Reg) (s : State) : Host.Outcome State Fault Refusal :=
  complete 4 xd (upperHalf ((readReg xs1 s).toInt * (readReg xs2 s).toInt)) s

/-- `mulhsu` (R393). -/
def execMulhsu (xd xs1 xs2 : Reg) (s : State) : Host.Outcome State Fault Refusal :=
  complete 4 xd (upperHalf ((readReg xs1 s).toInt * (readReg xs2 s).toNat)) s

/-- `mulhu` (R394). -/
def execMulhu (xd xs1 xs2 : Reg) (s : State) : Host.Outcome State Fault Refusal :=
  complete 4 xd (upperHalf ((readReg xs1 s).toNat * (readReg xs2 s).toNat)) s

/-- `div` (R395). -/
def execDiv (xd xs1 xs2 : Reg) (s : State) : Host.Outcome State Fault Refusal :=
  complete 4 xd (divSigned (readReg xs1 s) (readReg xs2 s)) s

/-- `divu` (R396). -/
def execDivu (xd xs1 xs2 : Reg) (s : State) : Host.Outcome State Fault Refusal :=
  complete 4 xd (divUnsigned (readReg xs1 s) (readReg xs2 s)) s

/-- `rem` (R397). -/
def execRem (xd xs1 xs2 : Reg) (s : State) : Host.Outcome State Fault Refusal :=
  complete 4 xd (remSigned (readReg xs1 s) (readReg xs2 s)) s

/-- `remu` (R398). -/
def execRemu (xd xs1 xs2 : Reg) (s : State) : Host.Outcome State Fault Refusal :=
  complete 4 xd (remUnsigned (readReg xs1 s) (readReg xs2 s)) s

end Sys2Proof.Machine
end

