-- ==== Sys2Proof/Machine/System.lean ====
section
/-! DEFINITION. The four fixed words (spec/46_system.md). -/

namespace Sys2Proof.Machine

/-- `ecall` (R430). -/
def execEcall (s : State) : Host.Outcome State Fault Refusal :=
  raiseExc .mcall 0 s

/-- `ebreak` (R431). -/
def execEbreak (s : State) : Host.Outcome State Fault Refusal :=
  raiseExc .breakpoint s.pc s

/-- `mret` (R432); it retires (R178). -/
def execMret (s : State) : Host.Outcome State Fault Refusal :=
  .next (retireTo s.mepc (trapReturn s))

/-- `wfi` (R433): a no-op that retires (notes/assumptions/14.md). -/
def execWfi (s : State) : Host.Outcome State Fault Refusal :=
  completeNop 4 s

end Sys2Proof.Machine
end

