-- ==== Sys2Proof/Machine/WordOps.lean ====
section
/-! DEFINITION. The RV64 word instructions (spec/48_rv64_word_ops.md). PRESUMED: the whole file of the spec is general knowledge
(notes/assumptions/19.md). -/

namespace Sys2Proof.Machine

/-- `addiw` (R581). -/
def execAddiw (xd xs1 : Reg) (imm : BitVec 12) (s : State) : Host.Outcome State Fault Refusal :=
  complete 4 xd (sext (low32 (readReg xs1 s + imm12 imm))) s

/-- `slliw` (R582). -/
def execSlliw (xd xs1 : Reg) (shamt : BitVec 5) (s : State) : Host.Outcome State Fault Refusal :=
  complete 4 xd (sext (low32 (readReg xs1 s) <<< shamt.toNat)) s

/-- `srliw` (R583). -/
def execSrliw (xd xs1 : Reg) (shamt : BitVec 5) (s : State) : Host.Outcome State Fault Refusal :=
  complete 4 xd (sext (low32 (readReg xs1 s) >>> shamt.toNat)) s

/-- `sraiw` (R584). -/
def execSraiw (xd xs1 : Reg) (shamt : BitVec 5) (s : State) : Host.Outcome State Fault Refusal :=
  complete 4 xd (sext ((low32 (readReg xs1 s)).sshiftRight shamt.toNat)) s

/-- `addw` (R585). -/
def execAddw (xd xs1 xs2 : Reg) (s : State) : Host.Outcome State Fault Refusal :=
  complete 4 xd (sext (low32 (readReg xs1 s + readReg xs2 s))) s

/-- `subw` (R586). -/
def execSubw (xd xs1 xs2 : Reg) (s : State) : Host.Outcome State Fault Refusal :=
  complete 4 xd (sext (low32 (readReg xs1 s - readReg xs2 s))) s

/-- `sllw` (R587). -/
def execSllw (xd xs1 xs2 : Reg) (s : State) : Host.Outcome State Fault Refusal :=
  complete 4 xd (sext (low32 (readReg xs1 s) <<< shamt32 (readReg xs2 s))) s

/-- `srlw` (R588). -/
def execSrlw (xd xs1 xs2 : Reg) (s : State) : Host.Outcome State Fault Refusal :=
  complete 4 xd (sext (low32 (readReg xs1 s) >>> shamt32 (readReg xs2 s))) s

/-- `sraw` (R589). -/
def execSraw (xd xs1 xs2 : Reg) (s : State) : Host.Outcome State Fault Refusal :=
  complete 4 xd (sext ((low32 (readReg xs1 s)).sshiftRight (shamt32 (readReg xs2 s)))) s

/-- `lwu` (R590). -/
def execLwu (xd xs1 : Reg) (imm : BitVec 12) (s : State) : Host.Outcome State Fault Refusal :=
  loadUnsigned 4 4 xd (effAddr xs1 (imm12 imm) s) s

/-- `mulw` (R591). -/
def execMulw (xd xs1 xs2 : Reg) (s : State) : Host.Outcome State Fault Refusal :=
  complete 4 xd (sext (low32 (readReg xs1 s * readReg xs2 s))) s

/-- `divw` (R592). -/
def execDivw (xd xs1 xs2 : Reg) (s : State) : Host.Outcome State Fault Refusal :=
  complete 4 xd (sext (divSigned (low32 (readReg xs1 s)) (low32 (readReg xs2 s)))) s

/-- `divuw` (R593). -/
def execDivuw (xd xs1 xs2 : Reg) (s : State) : Host.Outcome State Fault Refusal :=
  complete 4 xd (sext (divUnsigned (low32 (readReg xs1 s)) (low32 (readReg xs2 s)))) s

/-- `remw` (R594). -/
def execRemw (xd xs1 xs2 : Reg) (s : State) : Host.Outcome State Fault Refusal :=
  complete 4 xd (sext (remSigned (low32 (readReg xs1 s)) (low32 (readReg xs2 s)))) s

/-- `remuw` (R595). -/
def execRemuw (xd xs1 xs2 : Reg) (s : State) : Host.Outcome State Fault Refusal :=
  complete 4 xd (sext (remUnsigned (low32 (readReg xs1 s)) (low32 (readReg xs2 s)))) s

end Sys2Proof.Machine
end

