-- ==== Sys2Proof/Machine/Zicsr.lean ====
section
/-! DEFINITION. The six CSR instructions (spec/45_zicsr.md): the access path of Machine/Csr.lean with each form's `will_write` and
written value. A `csrrw` or `csrrwi` with `xd = 0` skips the read, which changes no state (R412). -/

namespace Sys2Proof.Machine

/-- `csrrw` (R415). -/
def execCsrrw (xd : Reg) (csr : CsrAddr) (xs1 : Reg) (s : State) : Host.Outcome State Fault Refusal :=
  csrAccess (insOf (.csrrw xd csr xs1)) csr xd true (fun _ => readReg xs1 s) s

/-- `csrrs` (R416). -/
def execCsrrs (xd : Reg) (csr : CsrAddr) (xs1 : Reg) (s : State) : Host.Outcome State Fault Refusal :=
  csrAccess (insOf (.csrrs xd csr xs1)) csr xd (xs1 != 0) (fun t => t ||| readReg xs1 s) s

/-- `csrrc` (R417). -/
def execCsrrc (xd : Reg) (csr : CsrAddr) (xs1 : Reg) (s : State) : Host.Outcome State Fault Refusal :=
  csrAccess (insOf (.csrrc xd csr xs1)) csr xd (xs1 != 0) (fun t => t &&& ~~~(readReg xs1 s)) s

/-- `csrrwi` (R418). -/
def execCsrrwi (xd : Reg) (csr : CsrAddr) (uimm : BitVec 5) (s : State) : Host.Outcome State Fault Refusal :=
  csrAccess (insOf (.csrrwi xd csr uimm)) csr xd true (fun _ => csrImm uimm) s

/-- `csrrsi` (R419). -/
def execCsrrsi (xd : Reg) (csr : CsrAddr) (uimm : BitVec 5) (s : State) : Host.Outcome State Fault Refusal :=
  csrAccess (insOf (.csrrsi xd csr uimm)) csr xd (uimm != 0) (fun t => t ||| csrImm uimm) s

/-- `csrrci` (R420). -/
def execCsrrci (xd : Reg) (csr : CsrAddr) (uimm : BitVec 5) (s : State) : Host.Outcome State Fault Refusal :=
  csrAccess (insOf (.csrrci xd csr uimm)) csr xd (uimm != 0) (fun t => t &&& ~~~(csrImm uimm)) s

end Sys2Proof.Machine
end

