-- ==== Sys2Proof/Machine/Dispatch.lean ====
section
/-! DEFINITION. The meaning of every instruction: one arm per constructor of Instr, one call each. -/

namespace Sys2Proof.Machine

/-- What one decoded instruction does (R550, step 5). -/
def exec (i : Instr) (s : State) : Host.Outcome State Fault Refusal :=
  match i with
  | .add xd xs1 xs2 => Sys2Proof.Machine.execAdd xd xs1 xs2 s
  | .sub xd xs1 xs2 => Sys2Proof.Machine.execSub xd xs1 xs2 s
  | .sll xd xs1 xs2 => Sys2Proof.Machine.execSll xd xs1 xs2 s
  | .slt xd xs1 xs2 => Sys2Proof.Machine.execSlt xd xs1 xs2 s
  | .sltu xd xs1 xs2 => Sys2Proof.Machine.execSltu xd xs1 xs2 s
  | .xor xd xs1 xs2 => Sys2Proof.Machine.execXor xd xs1 xs2 s
  | .srl xd xs1 xs2 => Sys2Proof.Machine.execSrl xd xs1 xs2 s
  | .sra xd xs1 xs2 => Sys2Proof.Machine.execSra xd xs1 xs2 s
  | .or xd xs1 xs2 => Sys2Proof.Machine.execOr xd xs1 xs2 s
  | .and xd xs1 xs2 => Sys2Proof.Machine.execAnd xd xs1 xs2 s
  | .addi xd xs1 imm => Sys2Proof.Machine.execAddi xd xs1 imm s
  | .slti xd xs1 imm => Sys2Proof.Machine.execSlti xd xs1 imm s
  | .sltiu xd xs1 imm => Sys2Proof.Machine.execSltiu xd xs1 imm s
  | .xori xd xs1 imm => Sys2Proof.Machine.execXori xd xs1 imm s
  | .ori xd xs1 imm => Sys2Proof.Machine.execOri xd xs1 imm s
  | .andi xd xs1 imm => Sys2Proof.Machine.execAndi xd xs1 imm s
  | .slli xd xs1 shamt => Sys2Proof.Machine.execSlli xd xs1 shamt s
  | .srli xd xs1 shamt => Sys2Proof.Machine.execSrli xd xs1 shamt s
  | .srai xd xs1 shamt => Sys2Proof.Machine.execSrai xd xs1 shamt s
  | .lui xd imm => Sys2Proof.Machine.execLui xd imm s
  | .auipc xd imm => Sys2Proof.Machine.execAuipc xd imm s
  | .jal xd imm => Sys2Proof.Machine.execJal xd imm s
  | .jalr xd xs1 imm => Sys2Proof.Machine.execJalr xd xs1 imm s
  | .beq xs1 xs2 imm => Sys2Proof.Machine.execBeq xs1 xs2 imm s
  | .bne xs1 xs2 imm => Sys2Proof.Machine.execBne xs1 xs2 imm s
  | .blt xs1 xs2 imm => Sys2Proof.Machine.execBlt xs1 xs2 imm s
  | .bge xs1 xs2 imm => Sys2Proof.Machine.execBge xs1 xs2 imm s
  | .bltu xs1 xs2 imm => Sys2Proof.Machine.execBltu xs1 xs2 imm s
  | .bgeu xs1 xs2 imm => Sys2Proof.Machine.execBgeu xs1 xs2 imm s
  | .lb xd xs1 imm => Sys2Proof.Machine.execLb xd xs1 imm s
  | .lh xd xs1 imm => Sys2Proof.Machine.execLh xd xs1 imm s
  | .lw xd xs1 imm => Sys2Proof.Machine.execLw xd xs1 imm s
  | .ld xd xs1 imm => Sys2Proof.Machine.execLd xd xs1 imm s
  | .lbu xd xs1 imm => Sys2Proof.Machine.execLbu xd xs1 imm s
  | .lhu xd xs1 imm => Sys2Proof.Machine.execLhu xd xs1 imm s
  | .sb xs1 xs2 imm => Sys2Proof.Machine.execSb xs1 xs2 imm s
  | .sh xs1 xs2 imm => Sys2Proof.Machine.execSh xs1 xs2 imm s
  | .sw xs1 xs2 imm => Sys2Proof.Machine.execSw xs1 xs2 imm s
  | .sd xs1 xs2 imm => Sys2Proof.Machine.execSd xs1 xs2 imm s
  | .fence fm pred succ xs1 xd => Sys2Proof.Machine.execFence fm pred succ xs1 xd s
  | .fenceTso xs1 xd => Sys2Proof.Machine.execFenceTso xs1 xd s
  | .ecall => Sys2Proof.Machine.execEcall s
  | .ebreak => Sys2Proof.Machine.execEbreak s
  | .mret => Sys2Proof.Machine.execMret s
  | .wfi => Sys2Proof.Machine.execWfi s
  | .csrrw xd csr xs1 => Sys2Proof.Machine.execCsrrw xd csr xs1 s
  | .csrrs xd csr xs1 => Sys2Proof.Machine.execCsrrs xd csr xs1 s
  | .csrrc xd csr xs1 => Sys2Proof.Machine.execCsrrc xd csr xs1 s
  | .csrrwi xd csr uimm => Sys2Proof.Machine.execCsrrwi xd csr uimm s
  | .csrrsi xd csr uimm => Sys2Proof.Machine.execCsrrsi xd csr uimm s
  | .csrrci xd csr uimm => Sys2Proof.Machine.execCsrrci xd csr uimm s
  | .mul xd xs1 xs2 => Sys2Proof.Machine.execMul xd xs1 xs2 s
  | .mulh xd xs1 xs2 => Sys2Proof.Machine.execMulh xd xs1 xs2 s
  | .mulhsu xd xs1 xs2 => Sys2Proof.Machine.execMulhsu xd xs1 xs2 s
  | .mulhu xd xs1 xs2 => Sys2Proof.Machine.execMulhu xd xs1 xs2 s
  | .div xd xs1 xs2 => Sys2Proof.Machine.execDiv xd xs1 xs2 s
  | .divu xd xs1 xs2 => Sys2Proof.Machine.execDivu xd xs1 xs2 s
  | .rem xd xs1 xs2 => Sys2Proof.Machine.execRem xd xs1 xs2 s
  | .remu xd xs1 xs2 => Sys2Proof.Machine.execRemu xd xs1 xs2 s
  | .addiw xd xs1 imm => Sys2Proof.Machine.execAddiw xd xs1 imm s
  | .slliw xd xs1 shamt => Sys2Proof.Machine.execSlliw xd xs1 shamt s
  | .srliw xd xs1 shamt => Sys2Proof.Machine.execSrliw xd xs1 shamt s
  | .sraiw xd xs1 shamt => Sys2Proof.Machine.execSraiw xd xs1 shamt s
  | .addw xd xs1 xs2 => Sys2Proof.Machine.execAddw xd xs1 xs2 s
  | .subw xd xs1 xs2 => Sys2Proof.Machine.execSubw xd xs1 xs2 s
  | .sllw xd xs1 xs2 => Sys2Proof.Machine.execSllw xd xs1 xs2 s
  | .srlw xd xs1 xs2 => Sys2Proof.Machine.execSrlw xd xs1 xs2 s
  | .sraw xd xs1 xs2 => Sys2Proof.Machine.execSraw xd xs1 xs2 s
  | .lwu xd xs1 imm => Sys2Proof.Machine.execLwu xd xs1 imm s
  | .mulw xd xs1 xs2 => Sys2Proof.Machine.execMulw xd xs1 xs2 s
  | .divw xd xs1 xs2 => Sys2Proof.Machine.execDivw xd xs1 xs2 s
  | .divuw xd xs1 xs2 => Sys2Proof.Machine.execDivuw xd xs1 xs2 s
  | .remw xd xs1 xs2 => Sys2Proof.Machine.execRemw xd xs1 xs2 s
  | .remuw xd xs1 xs2 => Sys2Proof.Machine.execRemuw xd xs1 xs2 s
  | .cAddi4spn xd imm => Sys2Proof.Machine.execCAddi4spn xd imm s
  | .cLw xd xs1 imm => Sys2Proof.Machine.execCLw xd xs1 imm s
  | .cLd xd xs1 imm => Sys2Proof.Machine.execCLd xd xs1 imm s
  | .cSw xs1 xs2 imm => Sys2Proof.Machine.execCSw xs1 xs2 imm s
  | .cSd xs1 xs2 imm => Sys2Proof.Machine.execCSd xs1 xs2 imm s
  | .cNop imm => Sys2Proof.Machine.execCNop imm s
  | .cAddi xd imm => Sys2Proof.Machine.execCAddi xd imm s
  | .cAddiw xd imm => Sys2Proof.Machine.execCAddiw xd imm s
  | .cLi xd imm => Sys2Proof.Machine.execCLi xd imm s
  | .cAddi16sp imm => Sys2Proof.Machine.execCAddi16sp imm s
  | .cLui xd imm => Sys2Proof.Machine.execCLui xd imm s
  | .cSrli xd shamt => Sys2Proof.Machine.execCSrli xd shamt s
  | .cSrai xd shamt => Sys2Proof.Machine.execCSrai xd shamt s
  | .cAndi xd imm => Sys2Proof.Machine.execCAndi xd imm s
  | .cSub xd xs2 => Sys2Proof.Machine.execCSub xd xs2 s
  | .cXor xd xs2 => Sys2Proof.Machine.execCXor xd xs2 s
  | .cOr xd xs2 => Sys2Proof.Machine.execCOr xd xs2 s
  | .cAnd xd xs2 => Sys2Proof.Machine.execCAnd xd xs2 s
  | .cSubw xd xs2 => Sys2Proof.Machine.execCSubw xd xs2 s
  | .cAddw xd xs2 => Sys2Proof.Machine.execCAddw xd xs2 s
  | .cJ imm => Sys2Proof.Machine.execCJ imm s
  | .cBeqz xs1 imm => Sys2Proof.Machine.execCBeqz xs1 imm s
  | .cBnez xs1 imm => Sys2Proof.Machine.execCBnez xs1 imm s
  | .cSlli xd shamt => Sys2Proof.Machine.execCSlli xd shamt s
  | .cLwsp xd imm => Sys2Proof.Machine.execCLwsp xd imm s
  | .cEbreak => Sys2Proof.Machine.execCEbreak s
  | .cLdsp xd imm => Sys2Proof.Machine.execCLdsp xd imm s
  | .cJr xs1 => Sys2Proof.Machine.execCJr xs1 s
  | .cMv xd xs2 => Sys2Proof.Machine.execCMv xd xs2 s
  | .cJalr xs1 => Sys2Proof.Machine.execCJalr xs1 s
  | .cAdd xd xs2 => Sys2Proof.Machine.execCAdd xd xs2 s
  | .cSwsp xs2 imm => Sys2Proof.Machine.execCSwsp xs2 imm s
  | .cSdsp xs2 imm => Sys2Proof.Machine.execCSdsp xs2 imm s

end Sys2Proof.Machine
end

