-- ==== Sys2Proof/Machine/Cycle.lean ====
section
/-! DEFINITION. One step of the hart (spec/70_reset_and_hazards.md R550) and the check of the configuration at launch. -/

namespace Sys2Proof.Machine

/-! ## Launch (R11 to R13, R212) -/

/-- The allowed values of the parameters that have a range (R11, R13). -/
def rangesOk (c : Config) : Bool :=
  decide (c.mtvalWidth ≤ 64) && decide (1 ≤ c.physAddrWidth) && decide (c.physAddrWidth ≤ 64)
    && decide (2 ≤ c.mtvecAlignDirect) && decide (c.mtvecAlignDirect ≤ 63)
    && decide (2 ≤ c.mtvecAlignVectored) && decide (c.mtvecAlignVectored ≤ 63)
    && decide (2 ≤ c.pmaGranularity) && decide (c.pmaGranularity ≤ 66)
    && [0, 2, 4, 8, 16, 32, 64, 128, 256, 512, 1024, 2048, 4096].contains c.misalignedGranule

/-- A granule other than 0 needs the priority `low` (R212). -/
def granuleOk (c : Config) : Bool := c.misalignedGranule == 0 || c.misalignedPriority == .low

/-- `MTVEC_MODES` has an element and the reset mode is one (R11, R543). -/
def modesOk (c : Config) : Bool := (c.mtvecDirectOk || c.mtvecVectoredOk) && mtvecModeOk c c.mtvecResetMode

/-- The codes hardware can write are legal for software to write (R144). -/
def causesOk (c : Config) : Bool :=
  [1, 2, 3, 4, 5, 6, 7, 11].all (fun k => c.mcauseLegalExceptions.contains k)
    && [3, 7, 11].all (fun k => c.mcauseLegalInterrupts.contains k)

/-- `RESET_PC` is even (R541). -/
def resetPcOk (c : Config) : Bool := !c.resetPc.getLsbD 0

/-- Each change of `C_DECODE` names a halfword that does not begin a 32-bit instruction, and gives it nothing or one of the
instructions of R600 to R632 with operands its encoding has (R450). -/
def cDecodeOk (d : CDecode) : Bool :=
  d.changes.all fun p => !isWordHalf p.1 &&
    match p.2 with
    | none => true
    | some i => (encode i).length == 2 && i.wellFormed

/-- A configuration the spec allows; the model refuses any other. -/
def legalConfig (c : Config) : Bool :=
  modesOk c && rangesOk c && granuleOk c && causesOk c && resetPcOk c && cDecodeOk c.cDecode

/-! ## The step -/

/-- R280: bits that decode to no instruction. `custom` are the four custom major opcodes. -/
def customOpcode : Raw → Bool
  | .half _ => false
  | .word w => [(0x0b : BitVec 7), 0x2b, 0x5b, 0x7b].contains (opcodeOf w)

/-- R280: the exception, or `unpredictable`, as the `TRAP_ON_*` parameters say. -/
def undecodable (r : Raw) (s : State) : Host.Outcome State Fault Refusal :=
  if s.cfg.trapOnUnimplementedInstr && (customOpcode r || s.cfg.trapOnReserved) then
    .next (trapEntry .illegalInstruction r.toWord s)
  else .fault (.unpredictableInstruction r.toWord)

/-- The default `HALT_PREDICATE` (R560): what stands at `pc` decodes to a jump to itself, and no interrupt is about to be
taken. -/
def selfLoop (s : State) : Bool :=
  highestPriority (pendingAndEnabled s) == none &&
    match fetch s with
    | .done r _ =>
      match decode s.cfg r with
      | .ok i => i == .jal 0 0 || i == .cJ 0
      | .error _ => false
    | _ => false

/-- `HALT_PREDICATE` (R560), evaluated after the inputs of the step have been applied. -/
def halted (s : State) : Bool :=
  match s.cfg.haltRule with
  | .never => false
  | .selfLoop => selfLoop s
  | .other n => Config.haltPredicate n s

/-- Decode and execute what was fetched (R550, steps 4 and 5). -/
def runRaw (r : Raw) (s : State) : Host.Outcome State Fault Refusal :=
  match decode s.cfg r with
  | .ok i => exec i s
  | .error _ => undecodable r s

/-- Fetch, decode and execute (R550, steps 3 to 5). -/
def fetchRun (s : State) : Host.Outcome State Fault Refusal :=
  match fetch s with
  | .done r s' => runRaw r s'
  | .trap e tval s' => .next (trapEntry e tval s')
  | .stuck f => .fault f

/-- Steps 2 to 5 of R550: an interrupt if one is pending and enabled, else the instruction at `pc`. -/
def interruptOrRun (s : State) : Host.Outcome State Fault Refusal :=
  match highestPriority (pendingAndEnabled s) with
  | some c => .next (takeInterrupt c s)
  | none => fetchRun s

/-- The end of a step that has a next state (R550, step 6). -/
def closeStep (o : Host.Outcome State Fault Refusal) : Host.Outcome State Fault Refusal :=
  match o with
  | .next s => .next (endStep s)
  | .fault f => .fault f
  | .refused r => .refused r

/-- ONE STEP (R550): the inputs reach `mip`, the halt predicate is tested, then an interrupt or an instruction, then the
end of the step. -/
def cycle (s : State) : Host.Outcome State Fault Refusal :=
  if legalConfig s.cfg then
    if halted (applyInputs s) then .fault .runEnded
    else closeStep (interruptOrRun (applyInputs s))
  else .refused .illegalConfiguration

end Sys2Proof.Machine
end

