-- ==== Sys2Proof/Machine/Step.lean ====
section
/-! DEFINITION. The step of the machine, and the placing of an instruction where the step fetches. -/

namespace Sys2Proof.Machine

/-- One step of the hart (R550): `cycle` of Machine/Cycle.lean. -/
def step : State → Host.Outcome State Fault Refusal := cycle

/-- `s` with the instruction of an opcode-table row stored at `pc`: the image loader of R561 put it there
(notes/assumptions/12.md). -/
def State.withFetchWord (s : State) (nbits w : Nat) : State :=
  { s with mem := placeBytes s.mem s.pc (tableBytes nbits w) }

end Sys2Proof.Machine
end

