-- ==== Sys2Proof/Safety.lean ====
section
/-! DEFINITION. The words the statements use: the invariant that every step keeps, and what it means that an instruction
leaves the rest of the state alone. -/

namespace Sys2Proof.Machine

/-- `mtvec` is legal (R131, R132): its mode is in `MTVEC_MODES`, and its base has the alignment of the mode. The base 0
of reset is aligned to everything (R543). -/
def mtvecOk (s : State) : Bool := mtvecLegal s.cfg s.mtvec

/-- `mtval` has no bit at or above `MTVAL_WIDTH` (R152). -/
def mtvalOk (s : State) : Bool := mtvalClip s.cfg s.mtval == s.mtval

/-- The bits of `mie` outside `MIE_WRITABLE_MASK` are 0 (R106). -/
def mieOk (s : State) : Bool :=
  (!s.mie.mei || s.cfg.mieWritable.mei) && (!s.mie.mti || s.cfg.mieWritable.mti)
    && (!s.mie.msi || s.cfg.mieWritable.msi)

/-- The bits of `mcountinhibit` that `COUNTINHIBIT_EN` does not enable are 0 (R170). -/
def mcountinhibitOk (s : State) : Bool :=
  (!s.mcountinhibit.cy || s.cfg.countinhibitCy) && (!s.mcountinhibit.ir || s.cfg.countinhibitIr)

/-- `TSR`, `TW`, `MXR` are 0 where `MSTATUS_EXTRA_WRITABLE` does not have them (R81, R94). -/
def mstatusOk (s : State) : Bool :=
  (!s.mstatus.tsr || s.cfg.tsrWritable) && (!s.mstatus.tw || s.cfg.twWritable)
    && (!s.mstatus.mxr || s.cfg.mxrWritable)

/-- `mcause` holds the 0 of reset or a cause that is legal for software, which includes all that hardware writes
(R142 to R144). -/
def mcauseOk (s : State) : Bool :=
  mcauseLegal s.cfg s.mcause || (s.mcause.int == false && s.mcause.code == 0)

/-- THE INVARIANT of the machine: `pc` and `mepc` are even (R45, R121), memory has its canonical form, and every CSR
field holds a value its rule allows. -/
def Inv (s : State) : Prop :=
  s.pc.getLsbD 0 = false ∧ s.mepc.getLsbD 0 = false ∧ Memory.wf s.mem = true ∧ mtvecOk s = true ∧ mtvalOk s = true
    ∧ mieOk s = true ∧ mcountinhibitOk s = true ∧ mstatusOk s = true ∧ mcauseOk s = true

/-- `t` reads every byte of memory as `s` does, and no device was reached. -/
def SameMemory (s t : State) : Prop :=
  (∀ a : Nat, t.mem.get? a = s.mem.get? a) ∧ t.ioLog = s.ioLog

/-- `t` has the trap and interrupt registers of `s`: `mstatus`, `mie`, `mip`, `mtvec`, `mscratch`, `mepc`, `mcause`,
`mtval`. -/
def SameTrapCsrs (s t : State) : Prop :=
  t.mstatus = s.mstatus ∧ t.mie = s.mie ∧ t.mip = s.mip ∧ t.mtvec = s.mtvec ∧ t.mscratch = s.mscratch
    ∧ t.mepc = s.mepc ∧ t.mcause = s.mcause ∧ t.mtval = s.mtval

/-- `t` has the configuration, the inputs, the step number, `mcountinhibit` and `mcycle` of `s`: no instruction but a
CSR write changes the last two, and only the end of a step the others. -/
def SameRun (s t : State) : Prop :=
  t.cfg = s.cfg ∧ t.inputs = s.inputs ∧ t.stepNo = s.stepNo ∧ t.mcountinhibit = s.mcountinhibit ∧ t.mcycle = s.mcycle

/-- Every register except `xd` reads in `t` as in `s`. -/
def SameRegsExcept (xd : Reg) (s t : State) : Prop :=
  ∀ r : Reg, r ≠ xd → readReg r t = readReg r s

/-- Every register reads in `t` as in `s`. -/
def SameRegs (s t : State) : Prop := ∀ r : Reg, readReg r t = readReg r s

/-- `minstret` has counted one instruction, unless `mcountinhibit.IR` is set (R180). -/
def Counted (s t : State) : Prop :=
  t.minstret = if s.mcountinhibit.ir then s.minstret else s.minstret + 1

/-- The value that a register holds after `v` is written to it: `x0` reads 0 (R41). -/
def held (xd : Reg) (v : Word) : Word := if xd = 0 then 0 else v

/-- From `s` to `t` an instruction of `len` bytes wrote `v` to `xd`, retired, and changed nothing else; for `xd = x0`
there is no such register to hold `v`, and all the rest is the same. -/
def WroteReg (len : Word) (xd : Reg) (v : Word) (s t : State) : Prop :=
  (xd ≠ 0 → readReg xd t = v) ∧ t.pc = s.pc + len ∧ Counted s t ∧ SameRegsExcept xd s t ∧ SameTrapCsrs s t
    ∧ SameRun s t ∧ SameMemory s t

/-- From `s` to `t` an instruction retired with the next pc `npc` and changed nothing else. -/
def OnlyPc (npc : Word) (s t : State) : Prop :=
  t.pc = npc ∧ Counted s t ∧ SameRegs s t ∧ SameTrapCsrs s t ∧ SameRun s t ∧ SameMemory s t

/-- From `s` to `t` the exception with code `code` and trap value `tval` was taken at the instruction at `s.pc`
(R477): the trap registers and the pc as the rule says, no register and no counter changed. -/
def TookTrap (code : BitVec 63) (tval : Word) (s t : State) : Prop :=
  t.mepc = s.pc ∧ t.mcause = { int := false, code := code } ∧ t.mtval = tval
    ∧ t.mstatus = { s.mstatus with mpie := s.mstatus.mie, mie := false }
    ∧ t.pc.toNat = 4 * s.mtvec.base.toNat ∧ t.mie = s.mie ∧ t.mip = s.mip ∧ t.mtvec = s.mtvec
    ∧ t.mscratch = s.mscratch ∧ t.minstret = s.minstret ∧ SameRegs s t ∧ SameRun s t

/-- `TookTrap`, with every byte of memory as before. -/
def Trapped (code : BitVec 63) (tval : Word) (s t : State) : Prop := TookTrap code tval s t ∧ SameMemory s t

/-- What `mtval` holds after a synchronous exception whose trap value is `tval`, `report` being the parameter that
covers the exception (R152, R153, R478): unchanged when every `REPORT_*` parameter is false, else the low
`MTVAL_WIDTH` bits of `tval`, or 0. -/
def mtvalAfter (s : State) (report : Bool) (tval : Word) : Word :=
  if s.cfg.reportEncodingIllegal ∨ s.cfg.reportVaBreakpoint ∨ s.cfg.reportVaFetchFault ∨ s.cfg.reportVaFetchMisaligned
      ∨ s.cfg.reportVaLoadFault ∨ s.cfg.reportVaLoadMisaligned ∨ s.cfg.reportVaStoreFault
      ∨ s.cfg.reportVaStoreMisaligned then
    BitVec.ofNat 64 ((if report then tval else 0).toNat % 2 ^ s.cfg.mtvalWidth)
  else s.mtval

/-- All `n` bytes at `va` are `ram` and inside the bound of R206: the access passes the check of R206 and R220. -/
def RamAccess (s : State) (va : Word) (n : Nat) : Prop :=
  va.toNat + (if s.cfg.accessCheckSizeInBits then 8 * n else n) ≤ 2 ^ s.cfg.physAddrWidth
    ∧ ∀ i, i < n → (attrAt s.cfg.memoryMap (va.toNat + i)).kind = .ram

/-- All `n` bytes at `va` belong to the device `d` and are inside the bound of R206. -/
def IoAccess (s : State) (d : Nat) (va : Word) (n : Nat) : Prop :=
  va.toNat + (if s.cfg.accessCheckSizeInBits then 8 * n else n) ≤ 2 ^ s.cfg.physAddrWidth
    ∧ ∀ i, i < n → (attrAt s.cfg.memoryMap (va.toNat + i)).kind = .io d

/-- The access of `n` bytes at `va` fails the check of R206 or R220. -/
def BadAccess (s : State) (va : Word) (n : Nat) : Prop :=
  ¬ RamAccess s va n ∧ ∀ d, ¬ IoAccess s d va n

/-- Memory holds the number `v` of `n` bytes at `va`, least significant byte first (R201). -/
def HoldsLe (s : State) (va : Word) (n : Nat) (v : BitVec (8 * n)) : Prop :=
  ∀ i, i < n → s.mem.get? (va.toNat + i) = some (v.extractLsb' (8 * i) 8)

/-- From `s` to `t` the low `n` bytes of `v` were stored at `va`, least significant first, the instruction of `len` bytes
retired, and nothing else changed. -/
def Stored (len : Word) (va : Word) (n : Nat) (v : Word) (s t : State) : Prop :=
  (∀ a : Nat, t.mem.get? a = if va.toNat ≤ a ∧ a < va.toNat + n then some (v.extractLsb' (8 * (a - va.toNat)) 8)
      else s.mem.get? a)
    ∧ t.ioLog = s.ioLog ∧ t.pc = s.pc + len ∧ Counted s t ∧ SameRegs s t ∧ SameTrapCsrs s t ∧ SameRun s t

end Sys2Proof.Machine

namespace Sys2Proof

/-- The register that an instruction may write, if it has one (R300 and the rules of files 40 to 48). -/
def Instr.dest : Instr → Option Reg
  | .add xd _ _ => some xd
  | .sub xd _ _ => some xd
  | .sll xd _ _ => some xd
  | .slt xd _ _ => some xd
  | .sltu xd _ _ => some xd
  | .xor xd _ _ => some xd
  | .srl xd _ _ => some xd
  | .sra xd _ _ => some xd
  | .or xd _ _ => some xd
  | .and xd _ _ => some xd
  | .addi xd _ _ => some xd
  | .slti xd _ _ => some xd
  | .sltiu xd _ _ => some xd
  | .xori xd _ _ => some xd
  | .ori xd _ _ => some xd
  | .andi xd _ _ => some xd
  | .slli xd _ _ => some xd
  | .srli xd _ _ => some xd
  | .srai xd _ _ => some xd
  | .lui xd _ => some xd
  | .auipc xd _ => some xd
  | .jal xd _ => some xd
  | .jalr xd _ _ => some xd
  | .lb xd _ _ => some xd
  | .lh xd _ _ => some xd
  | .lw xd _ _ => some xd
  | .ld xd _ _ => some xd
  | .lbu xd _ _ => some xd
  | .lhu xd _ _ => some xd
  | .csrrw xd _ _ => some xd
  | .csrrs xd _ _ => some xd
  | .csrrc xd _ _ => some xd
  | .csrrwi xd _ _ => some xd
  | .csrrsi xd _ _ => some xd
  | .csrrci xd _ _ => some xd
  | .mul xd _ _ => some xd
  | .mulh xd _ _ => some xd
  | .mulhsu xd _ _ => some xd
  | .mulhu xd _ _ => some xd
  | .div xd _ _ => some xd
  | .divu xd _ _ => some xd
  | .rem xd _ _ => some xd
  | .remu xd _ _ => some xd
  | .addiw xd _ _ => some xd
  | .slliw xd _ _ => some xd
  | .srliw xd _ _ => some xd
  | .sraiw xd _ _ => some xd
  | .addw xd _ _ => some xd
  | .subw xd _ _ => some xd
  | .sllw xd _ _ => some xd
  | .srlw xd _ _ => some xd
  | .sraw xd _ _ => some xd
  | .lwu xd _ _ => some xd
  | .mulw xd _ _ => some xd
  | .divw xd _ _ => some xd
  | .divuw xd _ _ => some xd
  | .remw xd _ _ => some xd
  | .remuw xd _ _ => some xd
  | .cAddi4spn xd _ => some (Machine.cReg xd)
  | .cLw xd _ _ => some (Machine.cReg xd)
  | .cLd xd _ _ => some (Machine.cReg xd)
  | .cAddi xd _ => some xd
  | .cAddiw xd _ => some xd
  | .cLi xd _ => some xd
  | .cAddi16sp _ => some 2
  | .cLui xd _ => some xd
  | .cSrli xd _ => some (Machine.cReg xd)
  | .cSrai xd _ => some (Machine.cReg xd)
  | .cAndi xd _ => some (Machine.cReg xd)
  | .cSub xd _ => some (Machine.cReg xd)
  | .cXor xd _ => some (Machine.cReg xd)
  | .cOr xd _ => some (Machine.cReg xd)
  | .cAnd xd _ => some (Machine.cReg xd)
  | .cSubw xd _ => some (Machine.cReg xd)
  | .cAddw xd _ => some (Machine.cReg xd)
  | .cSlli xd _ => some xd
  | .cLwsp xd _ => some xd
  | .cLdsp xd _ => some xd
  | .cMv xd _ => some xd
  | .cJalr _ => some 1
  | .cAdd xd _ => some xd
  | .beq _ _ _ | .bne _ _ _ | .blt _ _ _ | .bge _ _ _ | .bltu _ _ _ | .bgeu _ _ _
  | .sb _ _ _ | .sh _ _ _ | .sw _ _ _ | .sd _ _ _ | .fence _ _ _ _ _ | .fenceTso _ _
  | .ecall | .ebreak | .mret | .wfi | .cSw _ _ _ | .cSd _ _ _
  | .cNop _ | .cJ _ | .cBeqz _ _ | .cBnez _ _ | .cEbreak | .cJr _
  | .cSwsp _ _ | .cSdsp _ _ => none

/-- The stores. -/
def Instr.isStore : Instr → Bool
  | .sb _ _ _ | .sh _ _ _ | .sw _ _ _ | .sd _ _ _ | .cSw _ _ _ | .cSd _ _ _ | .cSwsp _ _ | .cSdsp _ _ => true
  | _ => false

/-- The six CSR instructions. -/
def Instr.isCsr : Instr → Bool
  | .csrrw _ _ _ | .csrrs _ _ _ | .csrrc _ _ _ | .csrrwi _ _ _ | .csrrsi _ _ _ | .csrrci _ _ _ => true
  | _ => false

/-- The row of an instruction in the tables of R266, R580 and R600 to R632: its match and its mask. -/
def Instr.row : Instr → Nat × Nat
  | .add _ _ _ => (0x00000033, 0xfe00707f)
  | .sub _ _ _ => (0x40000033, 0xfe00707f)
  | .sll _ _ _ => (0x00001033, 0xfe00707f)
  | .slt _ _ _ => (0x00002033, 0xfe00707f)
  | .sltu _ _ _ => (0x00003033, 0xfe00707f)
  | .xor _ _ _ => (0x00004033, 0xfe00707f)
  | .srl _ _ _ => (0x00005033, 0xfe00707f)
  | .sra _ _ _ => (0x40005033, 0xfe00707f)
  | .or _ _ _ => (0x00006033, 0xfe00707f)
  | .and _ _ _ => (0x00007033, 0xfe00707f)
  | .addi _ _ _ => (0x00000013, 0x0000707f)
  | .slti _ _ _ => (0x00002013, 0x0000707f)
  | .sltiu _ _ _ => (0x00003013, 0x0000707f)
  | .xori _ _ _ => (0x00004013, 0x0000707f)
  | .ori _ _ _ => (0x00006013, 0x0000707f)
  | .andi _ _ _ => (0x00007013, 0x0000707f)
  | .slli _ _ _ => (0x00001013, 0xfc00707f)
  | .srli _ _ _ => (0x00005013, 0xfc00707f)
  | .srai _ _ _ => (0x40005013, 0xfc00707f)
  | .lui _ _ => (0x00000037, 0x0000007f)
  | .auipc _ _ => (0x00000017, 0x0000007f)
  | .jal _ _ => (0x0000006f, 0x0000007f)
  | .jalr _ _ _ => (0x00000067, 0x0000707f)
  | .beq _ _ _ => (0x00000063, 0x0000707f)
  | .bne _ _ _ => (0x00001063, 0x0000707f)
  | .blt _ _ _ => (0x00004063, 0x0000707f)
  | .bge _ _ _ => (0x00005063, 0x0000707f)
  | .bltu _ _ _ => (0x00006063, 0x0000707f)
  | .bgeu _ _ _ => (0x00007063, 0x0000707f)
  | .lb _ _ _ => (0x00000003, 0x0000707f)
  | .lh _ _ _ => (0x00001003, 0x0000707f)
  | .lw _ _ _ => (0x00002003, 0x0000707f)
  | .ld _ _ _ => (0x00003003, 0x0000707f)
  | .lbu _ _ _ => (0x00004003, 0x0000707f)
  | .lhu _ _ _ => (0x00005003, 0x0000707f)
  | .sb _ _ _ => (0x00000023, 0x0000707f)
  | .sh _ _ _ => (0x00001023, 0x0000707f)
  | .sw _ _ _ => (0x00002023, 0x0000707f)
  | .sd _ _ _ => (0x00003023, 0x0000707f)
  | .fence _ _ _ _ _ => (0x0000000f, 0x0000707f)
  | .fenceTso _ _ => (0x8330000f, 0xfff0707f)
  | .ecall => (0x00000073, 0xffffffff)
  | .ebreak => (0x00100073, 0xffffffff)
  | .mret => (0x30200073, 0xffffffff)
  | .wfi => (0x10500073, 0xffffffff)
  | .csrrw _ _ _ => (0x00001073, 0x0000707f)
  | .csrrs _ _ _ => (0x00002073, 0x0000707f)
  | .csrrc _ _ _ => (0x00003073, 0x0000707f)
  | .csrrwi _ _ _ => (0x00005073, 0x0000707f)
  | .csrrsi _ _ _ => (0x00006073, 0x0000707f)
  | .csrrci _ _ _ => (0x00007073, 0x0000707f)
  | .mul _ _ _ => (0x02000033, 0xfe00707f)
  | .mulh _ _ _ => (0x02001033, 0xfe00707f)
  | .mulhsu _ _ _ => (0x02002033, 0xfe00707f)
  | .mulhu _ _ _ => (0x02003033, 0xfe00707f)
  | .div _ _ _ => (0x02004033, 0xfe00707f)
  | .divu _ _ _ => (0x02005033, 0xfe00707f)
  | .rem _ _ _ => (0x02006033, 0xfe00707f)
  | .remu _ _ _ => (0x02007033, 0xfe00707f)
  | .addiw _ _ _ => (0x0000001b, 0x0000707f)
  | .slliw _ _ _ => (0x0000101b, 0xfe00707f)
  | .srliw _ _ _ => (0x0000501b, 0xfe00707f)
  | .sraiw _ _ _ => (0x4000501b, 0xfe00707f)
  | .addw _ _ _ => (0x0000003b, 0xfe00707f)
  | .subw _ _ _ => (0x4000003b, 0xfe00707f)
  | .sllw _ _ _ => (0x0000103b, 0xfe00707f)
  | .srlw _ _ _ => (0x0000503b, 0xfe00707f)
  | .sraw _ _ _ => (0x4000503b, 0xfe00707f)
  | .lwu _ _ _ => (0x00006003, 0x0000707f)
  | .mulw _ _ _ => (0x0200003b, 0xfe00707f)
  | .divw _ _ _ => (0x0200403b, 0xfe00707f)
  | .divuw _ _ _ => (0x0200503b, 0xfe00707f)
  | .remw _ _ _ => (0x0200603b, 0xfe00707f)
  | .remuw _ _ _ => (0x0200703b, 0xfe00707f)
  | .cAddi4spn _ _ => (0x0000, 0xe003)
  | .cLw _ _ _ => (0x4000, 0xe003)
  | .cLd _ _ _ => (0x6000, 0xe003)
  | .cSw _ _ _ => (0xc000, 0xe003)
  | .cSd _ _ _ => (0xe000, 0xe003)
  | .cNop _ => (0x0001, 0xef83)
  | .cAddi _ _ => (0x0001, 0xe003)
  | .cAddiw _ _ => (0x2001, 0xe003)
  | .cLi _ _ => (0x4001, 0xe003)
  | .cAddi16sp _ => (0x6101, 0xef83)
  | .cLui _ _ => (0x6001, 0xe003)
  | .cSrli _ _ => (0x8001, 0xec03)
  | .cSrai _ _ => (0x8401, 0xec03)
  | .cAndi _ _ => (0x8801, 0xec03)
  | .cSub _ _ => (0x8c01, 0xfc63)
  | .cXor _ _ => (0x8c21, 0xfc63)
  | .cOr _ _ => (0x8c41, 0xfc63)
  | .cAnd _ _ => (0x8c61, 0xfc63)
  | .cSubw _ _ => (0x9c01, 0xfc63)
  | .cAddw _ _ => (0x9c21, 0xfc63)
  | .cJ _ => (0xa001, 0xe003)
  | .cBeqz _ _ => (0xc001, 0xe003)
  | .cBnez _ _ => (0xe001, 0xe003)
  | .cSlli _ _ => (0x0002, 0xe003)
  | .cLwsp _ _ => (0x4002, 0xe003)
  | .cEbreak => (0x9002, 0xffff)
  | .cLdsp _ _ => (0x6002, 0xe003)
  | .cJr _ => (0x8002, 0xf07f)
  | .cMv _ _ => (0x8002, 0xf003)
  | .cJalr _ => (0x9002, 0xf07f)
  | .cAdd _ _ => (0x9002, 0xf003)
  | .cSwsp _ _ => (0xc002, 0xe003)
  | .cSdsp _ _ => (0xe002, 0xe003)

/-- The length of an instruction in bytes (R250). -/
def Instr.len (i : Instr) : Word := BitVec.ofNat 64 (encode i).length

/-- The data access of a load or store: its effective address (R360 and the offsets of files 42, 47, 48) and its size. -/
def Instr.access (i : Instr) (s : Machine.State) : Option (Word × Nat) :=
  match i with
  | .lb _ xs1 imm => some (Machine.effAddr xs1 (Machine.imm12 imm) s, 1)
  | .lh _ xs1 imm => some (Machine.effAddr xs1 (Machine.imm12 imm) s, 2)
  | .lw _ xs1 imm => some (Machine.effAddr xs1 (Machine.imm12 imm) s, 4)
  | .ld _ xs1 imm => some (Machine.effAddr xs1 (Machine.imm12 imm) s, 8)
  | .lbu _ xs1 imm => some (Machine.effAddr xs1 (Machine.imm12 imm) s, 1)
  | .lhu _ xs1 imm => some (Machine.effAddr xs1 (Machine.imm12 imm) s, 2)
  | .lwu _ xs1 imm => some (Machine.effAddr xs1 (Machine.imm12 imm) s, 4)
  | .sb xs1 _ imm => some (Machine.effAddr xs1 (Machine.imm12 imm) s, 1)
  | .sh xs1 _ imm => some (Machine.effAddr xs1 (Machine.imm12 imm) s, 2)
  | .sw xs1 _ imm => some (Machine.effAddr xs1 (Machine.imm12 imm) s, 4)
  | .sd xs1 _ imm => some (Machine.effAddr xs1 (Machine.imm12 imm) s, 8)
  | .cLw _ xs1 imm => some (Machine.effAddr (Machine.cReg xs1) (Machine.cLwOffset imm) s, 4)
  | .cLd _ xs1 imm => some (Machine.effAddr (Machine.cReg xs1) (Machine.cLdOffset imm) s, 8)
  | .cSw xs1 _ imm => some (Machine.effAddr (Machine.cReg xs1) (Machine.cLwOffset imm) s, 4)
  | .cSd xs1 _ imm => some (Machine.effAddr (Machine.cReg xs1) (Machine.cLdOffset imm) s, 8)
  | .cLwsp _ imm => some (Machine.effAddr 2 (Machine.cLwspOffset imm) s, 4)
  | .cLdsp _ imm => some (Machine.effAddr 2 (Machine.cLdspOffset imm) s, 8)
  | .cSwsp _ imm => some (Machine.effAddr 2 (Machine.cLwspOffset imm) s, 4)
  | .cSdsp _ imm => some (Machine.effAddr 2 (Machine.cLdspOffset imm) s, 8)
  | _ => none

/-- The register a store takes its value from. -/
def Instr.storeSource : Instr → Reg
  | .sb _ xs2 _ | .sh _ xs2 _ | .sw _ xs2 _ | .sd _ xs2 _ => xs2
  | .cSw _ xs2 _ | .cSd _ xs2 _ => Machine.cReg xs2
  | .cSwsp xs2 _ | .cSdsp xs2 _ => xs2
  | _ => 0

/-- The value a load writes for the `n` bytes it read as the number `v`: zero-extended for `lbu`, `lhu`, `lwu`,
sign-extended for the others (R361 to R366, R590). -/
def Instr.loaded (i : Instr) (n v : Nat) : Word :=
  match i with
  | .lbu _ _ _ | .lhu _ _ _ | .lwu _ _ _ => BitVec.ofNat 64 (v % 2 ^ (8 * n))
  | _ => BitVec.ofInt 64 (Int.bmod v (2 ^ (8 * n)))

end Sys2Proof

namespace Sys2Proof.Machine

/-- From `s` to `t` a jump went to `target`, wrote `link` to `xd`, retired, and changed nothing else. -/
def Jumped (target : Word) (xd : Reg) (link : Word) (s t : State) : Prop :=
  t.pc = target ∧ (xd ≠ 0 → readReg xd t = link) ∧ Counted s t ∧ SameRegsExcept xd s t ∧ SameTrapCsrs s t ∧ SameRun s t
    ∧ SameMemory s t

/-- Every byte of the split access of `n` bytes at `va` is `ram`; the addresses wrap at 2^64 (R213). -/
def SplitRam (s : State) (va : Word) (n : Nat) : Prop := ∀ i, i < n → RamAccess s (va + BitVec.ofNat 64 i) 1

/-- Every byte of the split access of `n` bytes at `va` passes its own check, be it `ram` or a device's (R213, R220). -/
def SplitPasses (s : State) (va : Word) (n : Nat) : Prop := ∀ i, i < n → ¬ BadAccess s (va + BitVec.ofNat 64 i) 1

/-- Byte `k` of the split access at `va` is a device's (R220). -/
def deviceByte (s : State) (va : Word) (k : Nat) : Bool :=
  match (attrAt s.cfg.memoryMap (va + BitVec.ofNat 64 k).toNat).kind with
  | .io _ => true
  | .ram | .vacant => false

/-- The numbers, ascending, of those of the first `n` bytes of the split access at `va` that are a device's. -/
def deviceBytes (s : State) (va : Word) (n : Nat) : List Nat := (List.range n).filter (deviceByte s va)

/-- From `s` to `t` the host saw one read of one byte for each device's byte of the first `n` of the split access at `va`,
in ascending order, and nothing else; the log has the latest event first (R213, R231). -/
def DeviceReads (va : Word) (n : Nat) (s t : State) : Prop :=
  t.ioLog = ((deviceBytes s va n).map fun k => IoEvent.read (va + BitVec.ofNat 64 k).toNat 1).reverse ++ s.ioLog

/-- The same for writes, of the bytes of `v`. -/
def DeviceWrites (va : Word) (n : Nat) (v : Word) (s t : State) : Prop :=
  t.ioLog = ((deviceBytes s va n).map fun k =>
    IoEvent.write (va + BitVec.ofNat 64 k).toNat 1 (v.extractLsb' (8 * k) 8).toNat).reverse ++ s.ioLog

/-- From `s` to `t` the first `n` bytes of `v` were written at `va`, the addresses modulo 2^64, those of devices left out,
and no other byte of memory changed. -/
def SplitStored (va : Word) (n : Nat) (v : Word) (s t : State) : Prop :=
  (∀ k, k < n → deviceByte s va k = false →
      t.mem.get? (va + BitVec.ofNat 64 k).toNat = some (v.extractLsb' (8 * k) 8))
    ∧ ∀ a, (∀ k, k < n → deviceByte s va k = false → a ≠ (va + BitVec.ofNat 64 k).toNat) → t.mem.get? a = s.mem.get? a

/-- R212: the misaligned access of `n` bytes at `va` is made whole, because for one `g` of 16, 8, 4, 2 it lies in one
`g`-byte aligned block all of whose accessed bytes have the attribute `MAGg`. What attribute a byte at or above
2^PHYS_ADDR_WIDTH has is the model's choice (notes/assumptions/38.md). -/
def Atomic (s : State) (va : Word) (n : Nat) : Prop :=
  s.cfg.misalignedGranule ≠ 0 ∧ s.cfg.accessCheckSizeInBits = false ∧
    ∃ p ∈ [(16, Mag.mag16), (8, Mag.mag8), (4, Mag.mag4), (2, Mag.mag2)],
      (∀ i, i < n → (attrAt s.cfg.memoryMap (va.toNat + i)).mag = p.2) ∧ va.toNat % p.1 + n ≤ p.1

/-- `t` reads every byte of memory as `s` does. -/
def SameMemoryBytes (s t : State) : Prop := ∀ a : Nat, t.mem.get? a = s.mem.get? a

/-- A value written to `mtvec` is legal (R131, R132): its mode is 0 or 1 and in `MTVEC_MODES`, and its base has the
alignment of the mode. -/
def MtvecAccepts (s : State) (v : Word) : Prop :=
  v.toNat % 4 = 0 ∧ s.cfg.mtvecDirectOk = true ∧ v.toNat % 2 ^ s.cfg.mtvecAlignDirect = 0
    ∨ v.toNat % 4 = 1 ∧ s.cfg.mtvecVectoredOk = true ∧ (v.toNat - 1) % 2 ^ s.cfg.mtvecAlignVectored = 0

/-- What `mtvec` holds in `t` after a software write of `v` in `s` (R131 to R133). -/
def MtvecAfter (v : Word) (s t : State) : Prop :=
  (s.cfg.mtvecAccess = .ro → t.mtvec = s.mtvec)
    ∧ (s.cfg.mtvecAccess = .rw → MtvecAccepts s v →
        t.mtvec.base.toNat = v.toNat / 4 ∧ t.mtvec.mode = if v.toNat % 4 = 0 then .direct else .vectored)
    ∧ (s.cfg.mtvecAccess = .rw → ¬ MtvecAccepts s v → s.cfg.mtvecIllegalWrite = .retain → t.mtvec = s.mtvec)
    ∧ (s.cfg.mtvecAccess = .rw → ¬ MtvecAccepts s v → s.cfg.mtvecIllegalWrite = .custom →
        t.mtvec = s.mtvec ∨ MtvecAccepts s (mtvecWord t.mtvec))

/-- A value written to `mcause` is a valid combination of `INT` and `CODE` (R142, R144). -/
def CauseLegal (s : State) (v : Word) : Prop :=
  if v.getLsbD 63 then v.toNat % 2 ^ 63 ∈ s.cfg.mcauseLegalInterrupts else v.toNat ∈ s.cfg.mcauseLegalExceptions

/-- From `s` to `t` a CSR instruction wrote `v` to the writable CSR `r` and the value `old` to `xd`, went on to the next
instruction, and changed nothing else: what each CSR holds then (R413 and the rules it names), and what `minstret`
counts (R180). -/
def CsrWrote (r : Csr) (xd : Reg) (old v : Word) (s t : State) : Prop :=
  (xd ≠ 0 → readReg xd t = old) ∧ SameRegsExcept xd s t ∧ t.pc = s.pc + 4 ∧ SameMemory s t ∧ t.cfg = s.cfg
    ∧ t.inputs = s.inputs ∧ t.stepNo = s.stepNo ∧ t.mip = s.mip
    ∧ t.mstatus.mie = (if r = .mstatus then v.getLsbD 3 else s.mstatus.mie)
    ∧ t.mstatus.mpie = (if r = .mstatus then v.getLsbD 7 else s.mstatus.mpie)
    ∧ t.mstatus.tsr = (if r = .mstatus ∧ s.cfg.tsrWritable = true then v.getLsbD 22 else s.mstatus.tsr)
    ∧ t.mstatus.tw = (if r = .mstatus ∧ s.cfg.twWritable = true then v.getLsbD 21 else s.mstatus.tw)
    ∧ t.mstatus.mxr = (if r = .mstatus ∧ s.cfg.mxrWritable = true then v.getLsbD 19 else s.mstatus.mxr)
    ∧ t.mie.mei = (if r = .mie then v.getLsbD 11 && s.cfg.mieWritable.mei else s.mie.mei)
    ∧ t.mie.mti = (if r = .mie then v.getLsbD 7 && s.cfg.mieWritable.mti else s.mie.mti)
    ∧ t.mie.msi = (if r = .mie then v.getLsbD 3 && s.cfg.mieWritable.msi else s.mie.msi)
    ∧ t.mcountinhibit.cy =
        (if r = .mcountinhibit ∧ s.cfg.countinhibitCy = true then v.getLsbD 0 else s.mcountinhibit.cy)
    ∧ t.mcountinhibit.ir =
        (if r = .mcountinhibit ∧ s.cfg.countinhibitIr = true then v.getLsbD 2 else s.mcountinhibit.ir)
    ∧ t.mscratch = (if r = .mscratch then v else s.mscratch)
    ∧ t.mepc.toNat = (if r = .mepc then v.toNat / 2 * 2 else s.mepc.toNat)
    ∧ t.mtval = (if r = .mtval then BitVec.ofNat 64 (v.toNat % 2 ^ s.cfg.mtvalWidth) else s.mtval)
    ∧ (r = .mcause ∧ CauseLegal s v → t.mcause.int = v.getLsbD 63 ∧ t.mcause.code.toNat = v.toNat % 2 ^ 63)
    ∧ (¬ (r = .mcause ∧ CauseLegal s v) → t.mcause = s.mcause)
    ∧ (r = .mtvec → MtvecAfter v s t) ∧ (r ≠ .mtvec → t.mtvec = s.mtvec)
    ∧ t.mcycle = (if r = .mcycle then v else s.mcycle)
    ∧ t.minstret =
        (if r = .minstret then v else if t.mcountinhibit.ir then s.minstret else s.minstret + 1)

end Sys2Proof.Machine
end

