-- ==== Sys2Proof/Certificates/Slice0/Obligations.lean ====
section
/-! DEFINITION. The statements about the model, for the provers. Values are said in the numbers and bits the rules use, not
in the functions of the model; `WroteReg`, `OnlyPc`, `Jumped`, `Stored` and `Trapped` of Safety.lean carry the frames. -/

open Sys2Proof Sys2Proof.Machine

/-! ## Decoding and encoding -/

/-- Words written out from the encodings of R266, R580 and R600 to R632 decode to the instructions they stand for. -/
def Obligations.WordsFromTheSpecDecode : Prop :=
  decodeTableWord 32 0x402081B3 = some (.sub 3 1 2) ∧ decodeTableWord 32 0xFFF00093 = some (.addi 1 0 0xFFF)
    ∧ decodeTableWord 32 0xFE112E23 = some (.sw 2 1 0xFFC) ∧ decodeTableWord 32 0xFFDFF06F = some (.jal 0 0xFFFFE)
    ∧ decodeTableWord 32 0xFE009CE3 = some (.bne 1 0 0xFFC) ∧ decodeTableWord 32 0x0220E1B3 = some (.rem 3 1 2)
    ∧ decodeTableWord 32 0x8330000F = some (.fenceTso 0 0) ∧ decodeTableWord 32 0x30200073 = some .mret
    ∧ decodeTableWord 32 0x340312F3 = some (.csrrw 5 0x340 6) ∧ decodeTableWord 32 0x4045D51B = some (.sraiw 10 11 4)
    ∧ decodeTableWord 16 0x7139 = some (.cAddi16sp 0x3C) ∧ decodeTableWord 16 0xBFFD = some (.cJ 0x7FF)
    ∧ decodeTableWord 16 0x9282 = some (.cJalr 5)

/-- Decoding the bytes of a well-formed instruction that the configuration enables gives the instruction back, and leaves
the bytes after it, where `C_DECODE` does not replace the default for its halfword. -/
def Obligations.DecodingInvertsEncoding : Prop :=
  ∀ (c : Config) (i : Instr) (rest : List Byte), i.wellFormed = true → i.enabled c = true →
    (encode i).byTable c = true → decodeBytes c (encodeBytes i ++ rest) = .ok (i, rest)

/-- Bits that decode are the encoding of what they decode to, a well-formed instruction, or a halfword that `C_DECODE`
names; the instruction is enabled: no bit is dropped, and no reserved encoding falls through to a neighbour. -/
def Obligations.OnlyEncodingsDecode : Prop :=
  ∀ (c : Config) (r : Raw) (i : Instr), decode c r = .ok i →
    i.enabled c = true
      ∧ (r.byTable c = true ∧ encode i = r ∧ i.wellFormed = true
        ∨ ∃ h, r = .half h ∧ changeAt c.cDecode.changes h = some (some i))

/-- `C_DECODE` is any function from halfwords to an instruction or nothing: the decoding of a halfword is its value, where
the instruction exists, and every function whose values are instructions of R600 to R632 is that of a legal configuration.
The form of the parameter is the model's (notes/assumptions/6.md). -/
def Obligations.CompressedDecodingIsAnyFunction : Prop :=
  (∀ (c : Config) (h : BitVec 16) (rest : List Byte), h.toNat % 4 ≠ 3 →
    decodeBytes c ((Raw.half h).bytes ++ rest) = match c.cDecode.apply h with
      | some i => if i.enabled c = true then .ok (i, rest) else .error (.unimplemented (.half h))
      | none => .error (.unimplemented (.half h)))
    ∧ ∀ f : BitVec 16 → Option Instr, ∃ d : CDecode, (∀ h, h.toNat % 4 ≠ 3 → d.apply h = f h)
      ∧ ((∀ h i, h.toNat % 4 ≠ 3 → f h = some i → (encode i).length = 2 ∧ i.wellFormed = true) → cDecodeOk d = true)

/-- The encoding of every well-formed instruction matches its row of the opcode tables: `(w AND mask) == match`. -/
def Obligations.EncodingsMatchTheTable : Prop :=
  ∀ i : Instr, i.wellFormed = true → (insOf i).toNat &&& i.row.2 = i.row.1

/-! ## Reset and the invariant -/

/-- What reset leaves, for every configuration and every draw of the values the spec leaves open; `State.reset` is one
such state. -/
def Obligations.ResetLeavesTheStatedValues : Prop :=
  (∀ (c : Config) (d : Draws),
    let s := State.boot c d
    s.pc = c.resetPc ∧ s.mstatus.mie = false ∧ s.mie = ⟨false, false, false⟩ ∧ s.mip = ⟨false, false, false⟩
      ∧ s.mtvec.base = 0 ∧ s.mtvec.mode = c.mtvecResetMode ∧ s.mscratch = 0 ∧ s.mepc = 0
      ∧ s.mcause = ⟨false, 0⟩ ∧ s.mtval = 0 ∧ readReg 0 s = 0
      ∧ (c.countinhibitCy = false → s.mcountinhibit.cy = false)
      ∧ (c.countinhibitIr = false → s.mcountinhibit.ir = false)
      ∧ ((csrRead .mstatus s).toNat &&& (2 ^ 64 - 1 - (128 + 2 ^ 22 + 2 ^ 21 + 2 ^ 19)) = 0x1800))
    ∧ ∃ (c : Config) (d : Draws), State.reset = State.boot c d

/-- The invariant holds at reset, for every legal configuration and every draw. -/
def Obligations.InvariantHoldsAtReset : Prop :=
  (∀ (c : Config) (d : Draws), legalConfig c = true → Machine.Inv (State.boot c d)) ∧ Machine.Inv State.reset

/-- Every step keeps the invariant: `pc` and `mepc` even, memory in canonical form, every CSR field at a value its rule
allows. -/
def Obligations.EveryStepKeepsTheInvariant : Prop :=
  ∀ s t : State, Machine.Inv s → step s = .next t → Machine.Inv t

/-! ## The step -/

/-- When the bytes at the pc are those of bits that decode to `i`, all in `ram`, no interrupt is pending and enabled and
the run has not ended, the step is `exec` of the instruction on the state with the inputs of the step applied, then the end
of the step; a fault or a refusal is the step's own. -/
def Obligations.StepRunsTheDecodedInstruction : Prop :=
  ∀ (s : State) (r : Raw) (i : Instr), legalConfig s.cfg = true → halted (applyInputs s) = false →
    highestPriority (pendingAndEnabled (applyInputs s)) = none → decode s.cfg r = .ok i →
    (∀ (k : Nat) (b : Byte), r.bytes[k]? = some b → s.mem.get? (s.pc + BitVec.ofNat 64 k).toNat = some b) →
    RamAccess s s.pc 2 → (r.length = 4 → RamAccess s (s.pc + 2) 2) →
    i.wellFormed = true
      ∧ step s = match exec i (applyInputs s) with
        | .next t => .next (endStep t)
        | .fault f => .fault f
        | .refused r => .refused r

/-- The inputs of a step: the next entry of the list; after the list the spec's defaults, or the sequences that the
configuration names, of which nothing is known. The form is the model's (notes/assumptions/8.md). -/
def Obligations.InputsComeFromTheirSources : Prop :=
  ∀ s : State,
    (∀ i rest, s.inputs = i :: rest → currentInputs s = i)
    ∧ (s.inputs = [] → s.cfg.laterInputs = .defaults →
        currentIrq s = ⟨false, false, false⟩ ∧ (currentMtime s).toNat = s.stepNo % 2 ^ 64
          ∧ (currentInputs s).cycles = 1)
    ∧ (∀ n, s.inputs = [] → s.cfg.laterInputs = .source n →
        currentIrq s = ⟨Config.laterWire n s.stepNo 11, Config.laterWire n s.stepNo 7, Config.laterWire n s.stepNo 3⟩
          ∧ currentMtime s = Config.laterMtime n s.stepNo
          ∧ (currentInputs s).cycles = Config.laterCycles n s.stepNo)

/-- The end of a step: `mcycle` advances by the cycles of the step, modulo 2^64, when `mcountinhibit.CY` is 0 after the
instruction's own effect, and stands still when it is 1; the step number rises by one. -/
def Obligations.CyclesAreCountedAtTheEndOfTheStep : Prop :=
  ∀ s t : State, step s = .next t →
    ∃ u, interruptOrRun (applyInputs s) = .next u
      ∧ (u.mcountinhibit.cy = false →
          t.mcycle.toNat = (u.mcycle.toNat + (currentInputs s).cycles) % 2 ^ 64)
      ∧ (u.mcountinhibit.cy = true → t.mcycle = u.mcycle) ∧ t.minstret = u.minstret ∧ t.pc = u.pc ∧ t.regs = u.regs
      ∧ t.mem = u.mem

/-- No step changes the configuration; every step that has a next state is one step, and uses up one entry of the
inputs. -/
def Obligations.StepsKeepTheConfigurationAndCount : Prop :=
  ∀ s t : State, step s = .next t → t.cfg = s.cfg ∧ t.stepNo = s.stepNo + 1 ∧ t.inputs = s.inputs.tail

/-- Where the run has not ended, a pending and enabled interrupt is taken instead of the instruction: the external one
first, then software, then timer; the pc goes to the base, or in vectored mode to the base plus four times the code. -/
def Obligations.PendingInterruptIsTaken : Prop :=
  ∀ (s : State) (c : Nat), legalConfig s.cfg = true → halted (applyInputs s) = false → s.mstatus.mie = true →
    (c = 11 ∧ (currentIrq s).mei = true ∧ s.mie.mei = true
      ∨ c = 3 ∧ ((currentIrq s).mei && s.mie.mei) = false ∧ (currentIrq s).msi = true ∧ s.mie.msi = true
      ∨ c = 7 ∧ ((currentIrq s).mei && s.mie.mei) = false ∧ ((currentIrq s).msi && s.mie.msi) = false
          ∧ (currentIrq s).mti = true ∧ s.mie.mti = true) →
    ∃ t, step s = .next t ∧ t.mepc = s.pc ∧ t.mcause = ⟨true, BitVec.ofNat 63 c⟩ ∧ t.mtval = 0
      ∧ t.mstatus = { s.mstatus with mpie := true, mie := false }
      ∧ t.pc.toNat = (4 * s.mtvec.base.toNat + (if s.mtvec.mode = .vectored then 4 * c else 0)) % 2 ^ 64
      ∧ t.mip = currentIrq s ∧ t.mie = s.mie ∧ t.mtvec = s.mtvec ∧ t.mscratch = s.mscratch
      ∧ t.minstret = s.minstret ∧ t.mcountinhibit = s.mcountinhibit ∧ SameRegs s t ∧ SameMemory s t

/-- Where `mstatus.MIE` is 0, or no interrupt is both pending and enabled, no interrupt is taken: the step fetches. -/
def Obligations.MaskedInterruptIsNotTaken : Prop :=
  ∀ s : State, legalConfig s.cfg = true → halted (applyInputs s) = false →
    (s.mstatus.mie = false ∨ ((currentIrq s).mei && s.mie.mei) = false ∧ ((currentIrq s).msi && s.mie.msi) = false
      ∧ ((currentIrq s).mti && s.mie.mti) = false) →
    step s = match fetchRun (applyInputs s) with
      | .next t => .next (endStep t)
      | .fault f => .fault f
      | .refused r => .refused r

/-- A fetch outside `ram` takes the instruction access fault, with trap value `pc`, or `pc + 2` when only the second
half of a 32-bit instruction fails. -/
def Obligations.FetchOutsideRamFaults : Prop :=
  ∀ s : State, legalConfig s.cfg = true → halted (applyInputs s) = false →
    highestPriority (pendingAndEnabled (applyInputs s)) = none →
    (¬ RamAccess s s.pc 2 →
      ∃ u, Trapped 1 (mtvalAfter s s.cfg.reportVaFetchFault s.pc) (applyInputs s) u ∧ step s = .next (endStep u))
    ∧ (∀ b0 b1 : Byte, RamAccess s s.pc 2 → s.mem.get? s.pc.toNat = some b0 → s.mem.get? (s.pc.toNat + 1) = some b1 →
        b0.toNat % 4 = 3 → ¬ RamAccess s (s.pc + 2) 2 →
        ∃ u, Trapped 1 (mtvalAfter s s.cfg.reportVaFetchFault (s.pc + 2)) (applyInputs s) u
          ∧ step s = .next (endStep u))

/-- Bits that decode to nothing raise the illegal-instruction exception with the bits as trap value, or have no next
state, as the two `TRAP_ON_*` parameters say; the custom opcodes need only the first parameter. -/
def Obligations.UndecodableBitsTrap : Prop :=
  ∀ (r : Raw) (s : State), (∀ i, decode s.cfg r ≠ .ok i) →
    ((s.cfg.trapOnUnimplementedInstr = true ∧ (s.cfg.trapOnReserved = true
        ∨ ∃ w : BitVec 32, r = .word w ∧ (w.toNat % 128 = 0x0b ∨ w.toNat % 128 = 0x2b ∨ w.toNat % 128 = 0x5b
            ∨ w.toNat % 128 = 0x7b))) →
      ∃ t, runRaw r s = .next t ∧ Trapped 2 (mtvalAfter s s.cfg.reportEncodingIllegal r.toWord) s t)
    ∧ (¬ (s.cfg.trapOnUnimplementedInstr = true ∧ (s.cfg.trapOnReserved = true
        ∨ ∃ w : BitVec 32, r = .word w ∧ (w.toNat % 128 = 0x0b ∨ w.toNat % 128 = 0x2b ∨ w.toNat % 128 = 0x5b
            ∨ w.toNat % 128 = 0x7b))) →
      runRaw r s = .fault (.unpredictableInstruction r.toWord))

/-- The model's choice (notes/assumptions/7.md and 11.md): a configuration the spec does not allow is refused at every
step; under the self-loop halt rule a jump to itself that no interrupt leaves ends the run; under any other predicate a
state that meets it does, and any other state goes on. -/
def Obligations.RefusedAndEndedRuns : Prop :=
  (∀ s : State, legalConfig s.cfg = false → step s = .refused .illegalConfiguration)
    ∧ (∀ (s : State) (r : Raw), legalConfig s.cfg = true → s.cfg.haltRule = .selfLoop →
        highestPriority (pendingAndEnabled (applyInputs s)) = none →
        (decode s.cfg r = .ok (.jal 0 0) ∨ decode s.cfg r = .ok (.cJ 0)) →
        (∀ (k : Nat) (b : Byte), r.bytes[k]? = some b → s.mem.get? (s.pc + BitVec.ofNat 64 k).toNat = some b) →
        RamAccess s s.pc 2 → (r.length = 4 → RamAccess s (s.pc + 2) 2) → step s = .fault .runEnded)
    ∧ (∀ (s : State) (n : Nat), legalConfig s.cfg = true → s.cfg.haltRule = .other n →
        Config.haltPredicate n (applyInputs s) = true ∧ step s = .fault .runEnded
          ∨ Config.haltPredicate n (applyInputs s) = false ∧ step s = match interruptOrRun (applyInputs s) with
            | .next t => .next (endStep t)
            | .fault f => .fault f
            | .refused r => .refused r)

/-! ## Computation

The first clauses of a statement give the encodings of its instructions, bit 31 on the left. A register `x0` as
destination is no register to write: all the rest of `WroteReg` holds of it. -/

/-- `add`, `sub`, `addi`, `lui`, `auipc`: sums and differences modulo 2^64, for every register and immediate. -/
def Obligations.SumsAreModulo64Bits : Prop :=
  ∀ (xd xs1 xs2 : Reg) (imm : BitVec 12) (imm20 : BitVec 20) (s : State),
    encode (.add xd xs1 xs2) = .word (0b0000000#7 ++ xs2 ++ xs1 ++ 0b000#3 ++ xd ++ 0b0110011#7)
    ∧ encode (.sub xd xs1 xs2) = .word (0b0100000#7 ++ xs2 ++ xs1 ++ 0b000#3 ++ xd ++ 0b0110011#7)
    ∧ encode (.addi xd xs1 imm) = .word (imm ++ xs1 ++ 0b000#3 ++ xd ++ 0b0010011#7)
    ∧ encode (.lui xd imm20) = .word (imm20 ++ xd ++ 0b0110111#7)
    ∧ encode (.auipc xd imm20) = .word (imm20 ++ xd ++ 0b0010111#7)
    ∧ (∃ t, exec (.add xd xs1 xs2) s = .next t
      ∧ WroteReg 4 xd (BitVec.ofNat 64 ((readReg xs1 s).toNat + (readReg xs2 s).toNat)) s t)
    ∧ (∃ t, exec (.sub xd xs1 xs2) s = .next t
      ∧ WroteReg 4 xd (BitVec.ofInt 64 ((readReg xs1 s).toNat - (readReg xs2 s).toNat)) s t)
    ∧ (∃ t, exec (.addi xd xs1 imm) s = .next t
      ∧ WroteReg 4 xd (BitVec.ofInt 64 ((readReg xs1 s).toNat + imm.toInt)) s t)
    ∧ (∃ t, exec (.lui xd imm20) s = .next t ∧ WroteReg 4 xd (BitVec.ofInt 64 (4096 * imm20.toInt)) s t)
    ∧ (∃ t, exec (.auipc xd imm20) s = .next t
      ∧ WroteReg 4 xd (BitVec.ofInt 64 (s.pc.toNat + 4096 * imm20.toInt)) s t)

/-- `and`, `or`, `xor` and their immediate forms, bit by bit; bit `k` of the immediate is bit `min k 11` of its field. -/
def Obligations.LogicIsBitwise : Prop :=
  ∀ (xd xs1 xs2 : Reg) (imm : BitVec 12) (s : State),
    encode (.and xd xs1 xs2) = .word (0b0000000#7 ++ xs2 ++ xs1 ++ 0b111#3 ++ xd ++ 0b0110011#7)
    ∧ encode (.or xd xs1 xs2) = .word (0b0000000#7 ++ xs2 ++ xs1 ++ 0b110#3 ++ xd ++ 0b0110011#7)
    ∧ encode (.xor xd xs1 xs2) = .word (0b0000000#7 ++ xs2 ++ xs1 ++ 0b100#3 ++ xd ++ 0b0110011#7)
    ∧ encode (.andi xd xs1 imm) = .word (imm ++ xs1 ++ 0b111#3 ++ xd ++ 0b0010011#7)
    ∧ encode (.ori xd xs1 imm) = .word (imm ++ xs1 ++ 0b110#3 ++ xd ++ 0b0010011#7)
    ∧ encode (.xori xd xs1 imm) = .word (imm ++ xs1 ++ 0b100#3 ++ xd ++ 0b0010011#7)
    ∧ (∃ v t, exec (.and xd xs1 xs2) s = .next t ∧ WroteReg 4 xd v s t
      ∧ ∀ k, k < 64 → v.getLsbD k = ((readReg xs1 s).getLsbD k && (readReg xs2 s).getLsbD k))
    ∧ (∃ v t, exec (.or xd xs1 xs2) s = .next t ∧ WroteReg 4 xd v s t
      ∧ ∀ k, k < 64 → v.getLsbD k = ((readReg xs1 s).getLsbD k || (readReg xs2 s).getLsbD k))
    ∧ (∃ v t, exec (.xor xd xs1 xs2) s = .next t ∧ WroteReg 4 xd v s t
      ∧ ∀ k, k < 64 → v.getLsbD k = ((readReg xs1 s).getLsbD k != (readReg xs2 s).getLsbD k))
    ∧ (∃ v t, exec (.andi xd xs1 imm) s = .next t ∧ WroteReg 4 xd v s t
      ∧ ∀ k, k < 64 → v.getLsbD k = ((readReg xs1 s).getLsbD k && imm.getLsbD (min k 11)))
    ∧ (∃ v t, exec (.ori xd xs1 imm) s = .next t ∧ WroteReg 4 xd v s t
      ∧ ∀ k, k < 64 → v.getLsbD k = ((readReg xs1 s).getLsbD k || imm.getLsbD (min k 11)))
    ∧ (∃ v t, exec (.xori xd xs1 imm) s = .next t ∧ WroteReg 4 xd v s t
      ∧ ∀ k, k < 64 → v.getLsbD k = ((readReg xs1 s).getLsbD k != imm.getLsbD (min k 11)))

/-- The six 64-bit shifts, by the low six bits of `xs2` or by the six-bit field. -/
def Obligations.ShiftsOf64Bits : Prop :=
  ∀ (xd xs1 xs2 : Reg) (shamt : BitVec 6) (s : State),
    encode (.sll xd xs1 xs2) = .word (0b0000000#7 ++ xs2 ++ xs1 ++ 0b001#3 ++ xd ++ 0b0110011#7)
    ∧ encode (.srl xd xs1 xs2) = .word (0b0000000#7 ++ xs2 ++ xs1 ++ 0b101#3 ++ xd ++ 0b0110011#7)
    ∧ encode (.sra xd xs1 xs2) = .word (0b0100000#7 ++ xs2 ++ xs1 ++ 0b101#3 ++ xd ++ 0b0110011#7)
    ∧ encode (.slli xd xs1 shamt) = .word (0b000000#6 ++ shamt ++ xs1 ++ 0b001#3 ++ xd ++ 0b0010011#7)
    ∧ encode (.srli xd xs1 shamt) = .word (0b000000#6 ++ shamt ++ xs1 ++ 0b101#3 ++ xd ++ 0b0010011#7)
    ∧ encode (.srai xd xs1 shamt) = .word (0b010000#6 ++ shamt ++ xs1 ++ 0b101#3 ++ xd ++ 0b0010011#7)
    ∧ (∃ v t, exec (.sll xd xs1 xs2) s = .next t ∧ WroteReg 4 xd v s t
      ∧ v.toNat = (readReg xs1 s).toNat * 2 ^ ((readReg xs2 s).toNat % 64) % 2 ^ 64)
    ∧ (∃ v t, exec (.srl xd xs1 xs2) s = .next t ∧ WroteReg 4 xd v s t
      ∧ v.toNat = (readReg xs1 s).toNat / 2 ^ ((readReg xs2 s).toNat % 64))
    ∧ (∃ v t, exec (.sra xd xs1 xs2) s = .next t ∧ WroteReg 4 xd v s t
      ∧ v.toInt = (readReg xs1 s).toInt / 2 ^ ((readReg xs2 s).toNat % 64))
    ∧ (∃ v t, exec (.slli xd xs1 shamt) s = .next t ∧ WroteReg 4 xd v s t
      ∧ v.toNat = (readReg xs1 s).toNat * 2 ^ shamt.toNat % 2 ^ 64)
    ∧ (∃ v t, exec (.srli xd xs1 shamt) s = .next t ∧ WroteReg 4 xd v s t
      ∧ v.toNat = (readReg xs1 s).toNat / 2 ^ shamt.toNat)
    ∧ (∃ v t, exec (.srai xd xs1 shamt) s = .next t ∧ WroteReg 4 xd v s t
      ∧ v.toInt = (readReg xs1 s).toInt / 2 ^ shamt.toNat)

/-- The four comparisons write the value 1 or 0; the immediate of `sltiu` is sign-extended, then read unsigned. -/
def Obligations.ComparisonsWriteOneOrZero : Prop :=
  ∀ (xd xs1 xs2 : Reg) (imm : BitVec 12) (s : State),
    encode (.slt xd xs1 xs2) = .word (0b0000000#7 ++ xs2 ++ xs1 ++ 0b010#3 ++ xd ++ 0b0110011#7)
    ∧ encode (.sltu xd xs1 xs2) = .word (0b0000000#7 ++ xs2 ++ xs1 ++ 0b011#3 ++ xd ++ 0b0110011#7)
    ∧ encode (.slti xd xs1 imm) = .word (imm ++ xs1 ++ 0b010#3 ++ xd ++ 0b0010011#7)
    ∧ encode (.sltiu xd xs1 imm) = .word (imm ++ xs1 ++ 0b011#3 ++ xd ++ 0b0010011#7)
    ∧ (∃ t, exec (.slt xd xs1 xs2) s = .next t
      ∧ WroteReg 4 xd (if (readReg xs1 s).toInt < (readReg xs2 s).toInt then 1 else 0) s t)
    ∧ (∃ t, exec (.sltu xd xs1 xs2) s = .next t
      ∧ WroteReg 4 xd (if (readReg xs1 s).toNat < (readReg xs2 s).toNat then 1 else 0) s t)
    ∧ (∃ t, exec (.slti xd xs1 imm) s = .next t
      ∧ WroteReg 4 xd (if (readReg xs1 s).toInt < imm.toInt then 1 else 0) s t)
    ∧ (∃ t, exec (.sltiu xd xs1 imm) s = .next t
      ∧ WroteReg 4 xd (if ((readReg xs1 s).toNat : Int) < imm.toInt % 2 ^ 64 then 1 else 0) s t)

/-! ## Control transfer -/

/-- `jal` and `jalr`: the link is `pc + 4`, the target of `jalr` comes from the old `xs1` and loses bit 0. Field bit `k`
of `jal` is bit `k + 1` of the offset. -/
def Obligations.JumpsLinkAndLand : Prop :=
  ∀ (xd xs1 : Reg) (imm20 : BitVec 20) (imm : BitVec 12) (s : State),
    encode (.jal xd imm20) = .word (imm20.extractLsb' 19 1 ++ imm20.extractLsb' 0 10 ++ imm20.extractLsb' 10 1
      ++ imm20.extractLsb' 11 8 ++ xd ++ 0b1101111#7)
    ∧ encode (.jalr xd xs1 imm) = .word (imm ++ xs1 ++ 0b000#3 ++ xd ++ 0b1100111#7)
    ∧ (∃ t, exec (.jal xd imm20) s = .next t
      ∧ Jumped (BitVec.ofInt 64 (s.pc.toNat + 2 * imm20.toInt)) xd (s.pc + 4) s t)
    ∧ (∃ target t, exec (.jalr xd xs1 imm) s = .next t ∧ Jumped target xd (s.pc + 4) s t
      ∧ target.toNat = (BitVec.ofInt 64 ((readReg xs1 s).toNat + imm.toInt)).toNat / 2 * 2)

/-- The six branches: taken to `pc` plus twice the signed field, or on to `pc + 4`; nothing is written. Field bit `k` is
bit `k + 1` of the offset. -/
def Obligations.BranchesTakeOrFallThrough : Prop :=
  ∀ (xs1 xs2 : Reg) (imm : BitVec 12) (s : State),
    let target := BitVec.ofInt 64 (s.pc.toNat + 2 * imm.toInt)
    let word (f3 : BitVec 3) : Raw := .word (imm.extractLsb' 11 1 ++ imm.extractLsb' 4 6 ++ xs2 ++ xs1 ++ f3
      ++ imm.extractLsb' 0 4 ++ imm.extractLsb' 10 1 ++ 0b1100011#7)
    encode (.beq xs1 xs2 imm) = word 0b000 ∧ encode (.bne xs1 xs2 imm) = word 0b001
    ∧ encode (.blt xs1 xs2 imm) = word 0b100 ∧ encode (.bge xs1 xs2 imm) = word 0b101
    ∧ encode (.bltu xs1 xs2 imm) = word 0b110 ∧ encode (.bgeu xs1 xs2 imm) = word 0b111
    ∧ (∃ t, exec (.beq xs1 xs2 imm) s = .next t
      ∧ OnlyPc (if readReg xs1 s = readReg xs2 s then target else s.pc + 4) s t)
    ∧ (∃ t, exec (.bne xs1 xs2 imm) s = .next t
      ∧ OnlyPc (if readReg xs1 s ≠ readReg xs2 s then target else s.pc + 4) s t)
    ∧ (∃ t, exec (.blt xs1 xs2 imm) s = .next t
      ∧ OnlyPc (if (readReg xs1 s).toInt < (readReg xs2 s).toInt then target else s.pc + 4) s t)
    ∧ (∃ t, exec (.bge xs1 xs2 imm) s = .next t
      ∧ OnlyPc (if (readReg xs1 s).toInt ≥ (readReg xs2 s).toInt then target else s.pc + 4) s t)
    ∧ (∃ t, exec (.bltu xs1 xs2 imm) s = .next t
      ∧ OnlyPc (if (readReg xs1 s).toNat < (readReg xs2 s).toNat then target else s.pc + 4) s t)
    ∧ (∃ t, exec (.bgeu xs1 xs2 imm) s = .next t
      ∧ OnlyPc (if (readReg xs1 s).toNat ≥ (readReg xs2 s).toNat then target else s.pc + 4) s t)

/-! ## Multiply and divide -/

/-- The four products: the low half, or the high half of the product of signed and unsigned readings. -/
def Obligations.ProductsGiveTheirHalves : Prop :=
  ∀ (xd xs1 xs2 : Reg) (s : State),
    let a := readReg xs1 s
    let b := readReg xs2 s
    encode (.mul xd xs1 xs2) = .word (0b0000001#7 ++ xs2 ++ xs1 ++ 0b000#3 ++ xd ++ 0b0110011#7)
    ∧ encode (.mulh xd xs1 xs2) = .word (0b0000001#7 ++ xs2 ++ xs1 ++ 0b001#3 ++ xd ++ 0b0110011#7)
    ∧ encode (.mulhsu xd xs1 xs2) = .word (0b0000001#7 ++ xs2 ++ xs1 ++ 0b010#3 ++ xd ++ 0b0110011#7)
    ∧ encode (.mulhu xd xs1 xs2) = .word (0b0000001#7 ++ xs2 ++ xs1 ++ 0b011#3 ++ xd ++ 0b0110011#7)
    ∧ (∃ t, exec (.mul xd xs1 xs2) s = .next t ∧ WroteReg 4 xd (BitVec.ofNat 64 (a.toNat * b.toNat)) s t)
    ∧ (∃ t, exec (.mulh xd xs1 xs2) s = .next t ∧ WroteReg 4 xd (BitVec.ofInt 64 (a.toInt * b.toInt / 2 ^ 64)) s t)
    ∧ (∃ t, exec (.mulhsu xd xs1 xs2) s = .next t ∧ WroteReg 4 xd (BitVec.ofInt 64 (a.toInt * b.toNat / 2 ^ 64)) s t)
    ∧ (∃ t, exec (.mulhu xd xs1 xs2) s = .next t ∧ WroteReg 4 xd (BitVec.ofNat 64 (a.toNat * b.toNat / 2 ^ 64)) s t)

/-- The four divisions with their corner values; no operand traps. -/
def Obligations.DivisionsAndTheirCorners : Prop :=
  ∀ (xd xs1 xs2 : Reg) (s : State),
    let a := readReg xs1 s
    let b := readReg xs2 s
    encode (.div xd xs1 xs2) = .word (0b0000001#7 ++ xs2 ++ xs1 ++ 0b100#3 ++ xd ++ 0b0110011#7)
    ∧ encode (.divu xd xs1 xs2) = .word (0b0000001#7 ++ xs2 ++ xs1 ++ 0b101#3 ++ xd ++ 0b0110011#7)
    ∧ encode (.rem xd xs1 xs2) = .word (0b0000001#7 ++ xs2 ++ xs1 ++ 0b110#3 ++ xd ++ 0b0110011#7)
    ∧ encode (.remu xd xs1 xs2) = .word (0b0000001#7 ++ xs2 ++ xs1 ++ 0b111#3 ++ xd ++ 0b0110011#7)
    ∧ (∃ t, exec (.div xd xs1 xs2) s = .next t ∧ WroteReg 4 xd
      (if b.toNat = 0 then 0xFFFFFFFFFFFFFFFF
        else if a = 0x8000000000000000 ∧ b = 0xFFFFFFFFFFFFFFFF then 0x8000000000000000
        else BitVec.ofInt 64 (a.toInt.tdiv b.toInt)) s t)
    ∧ (∃ t, exec (.divu xd xs1 xs2) s = .next t ∧ WroteReg 4 xd
      (if b.toNat = 0 then 0xFFFFFFFFFFFFFFFF else BitVec.ofNat 64 (a.toNat / b.toNat)) s t)
    ∧ (∃ t, exec (.rem xd xs1 xs2) s = .next t ∧ WroteReg 4 xd
      (if b.toNat = 0 then a
        else if a = 0x8000000000000000 ∧ b = 0xFFFFFFFFFFFFFFFF then 0
        else BitVec.ofInt 64 (a.toInt.tmod b.toInt)) s t)
    ∧ (∃ t, exec (.remu xd xs1 xs2) s = .next t ∧ WroteReg 4 xd
      (if b.toNat = 0 then a else BitVec.ofNat 64 (a.toNat % b.toNat)) s t)

/-- Quotient times divisor plus remainder is the dividend, for `div` with `rem` and for `divu` with `remu`, on every pair
of operands, the corners included. -/
def Obligations.QuotientAndRemainderAgree : Prop :=
  ∀ (xs1 xs2 xd : Reg) (s t u : State), xd ≠ 0 →
    (exec (.div xd xs1 xs2) s = .next t → exec (.rem xd xs1 xs2) s = .next u →
      readReg xd t * readReg xs2 s + readReg xd u = readReg xs1 s)
    ∧ (exec (.divu xd xs1 xs2) s = .next t → exec (.remu xd xs1 xs2) s = .next u →
      readReg xd t * readReg xs2 s + readReg xd u = readReg xs1 s)

/-! ## The RV64 word instructions -/

/-- `addiw`, `addw`, `subw`, `mulw`: the low 32 bits of the result, sign-extended. -/
def Obligations.WordSumsAndProducts : Prop :=
  ∀ (xd xs1 xs2 : Reg) (imm : BitVec 12) (s : State),
    let a := readReg xs1 s
    let b := readReg xs2 s
    (∃ t, exec (.addiw xd xs1 imm) s = .next t
      ∧ WroteReg 4 xd (BitVec.ofInt 64 (Int.bmod (a.toNat + imm.toInt) (2 ^ 32))) s t)
    ∧ (∃ t, exec (.addw xd xs1 xs2) s = .next t
      ∧ WroteReg 4 xd (BitVec.ofInt 64 (Int.bmod (a.toNat + b.toNat) (2 ^ 32))) s t)
    ∧ (∃ t, exec (.subw xd xs1 xs2) s = .next t
      ∧ WroteReg 4 xd (BitVec.ofInt 64 (Int.bmod (a.toNat - b.toNat) (2 ^ 32))) s t)
    ∧ (∃ t, exec (.mulw xd xs1 xs2) s = .next t
      ∧ WroteReg 4 xd (BitVec.ofInt 64 (Int.bmod (a.toNat * b.toNat) (2 ^ 32))) s t)

/-- The six word shifts, on the low 32 bits, by five bits, the result sign-extended. -/
def Obligations.WordShifts : Prop :=
  ∀ (xd xs1 xs2 : Reg) (shamt : BitVec 5) (s : State),
    let a : Nat := (readReg xs1 s).toNat % 2 ^ 32
    let n : Nat := (readReg xs2 s).toNat % 32
    (∃ t, exec (.slliw xd xs1 shamt) s = .next t
      ∧ WroteReg 4 xd (BitVec.ofInt 64 (Int.bmod (a * 2 ^ shamt.toNat : Nat) (2 ^ 32))) s t)
    ∧ (∃ t, exec (.srliw xd xs1 shamt) s = .next t
      ∧ WroteReg 4 xd (BitVec.ofInt 64 (Int.bmod (a / 2 ^ shamt.toNat : Nat) (2 ^ 32))) s t)
    ∧ (∃ t, exec (.sraiw xd xs1 shamt) s = .next t
      ∧ WroteReg 4 xd (BitVec.ofInt 64 (Int.bmod a (2 ^ 32) / 2 ^ shamt.toNat)) s t)
    ∧ (∃ t, exec (.sllw xd xs1 xs2) s = .next t
      ∧ WroteReg 4 xd (BitVec.ofInt 64 (Int.bmod (a * 2 ^ n : Nat) (2 ^ 32))) s t)
    ∧ (∃ t, exec (.srlw xd xs1 xs2) s = .next t
      ∧ WroteReg 4 xd (BitVec.ofInt 64 (Int.bmod (a / 2 ^ n : Nat) (2 ^ 32))) s t)
    ∧ (∃ t, exec (.sraw xd xs1 xs2) s = .next t
      ∧ WroteReg 4 xd (BitVec.ofInt 64 (Int.bmod a (2 ^ 32) / 2 ^ n)) s t)

/-- The four word divisions, on the signed or unsigned readings of the low 32 bits, the result sign-extended. -/
def Obligations.WordDivisionsAndTheirCorners : Prop :=
  ∀ (xd xs1 xs2 : Reg) (s : State),
    let a : Nat := (readReg xs1 s).toNat % 2 ^ 32
    let b : Nat := (readReg xs2 s).toNat % 2 ^ 32
    let x : Int := Int.bmod a (2 ^ 32)
    let y : Int := Int.bmod b (2 ^ 32)
    (∃ t, exec (.divw xd xs1 xs2) s = .next t ∧ WroteReg 4 xd
      (if b = 0 then 0xFFFFFFFFFFFFFFFF else if x = -2 ^ 31 ∧ y = -1 then 0xFFFFFFFF80000000
        else BitVec.ofInt 64 (x.tdiv y)) s t)
    ∧ (∃ t, exec (.divuw xd xs1 xs2) s = .next t ∧ WroteReg 4 xd
      (if b = 0 then 0xFFFFFFFFFFFFFFFF else BitVec.ofInt 64 (Int.bmod (a / b : Nat) (2 ^ 32))) s t)
    ∧ (∃ t, exec (.remw xd xs1 xs2) s = .next t ∧ WroteReg 4 xd
      (if b = 0 then BitVec.ofInt 64 x else BitVec.ofInt 64 (x.tmod y)) s t)
    ∧ (∃ t, exec (.remuw xd xs1 xs2) s = .next t ∧ WroteReg 4 xd
      (if b = 0 then BitVec.ofInt 64 x else BitVec.ofInt 64 (Int.bmod (a % b : Nat) (2 ^ 32))) s t)

/-! ## Ordering and system instructions -/

/-- `fence` with every value of its fields, `fence.tso` and `wfi` move the pc and count, and change nothing else. For
`wfi` it is the spec's choice among what the source allows, and for a fence what one hart in program order can show
(notes/assumptions/13.md and 14.md). -/
def Obligations.FencesAndWfiOnlyMoveThePc : Prop :=
  ∀ (fm pred succ : BitVec 4) (xs1 xd : Reg) (s : State),
    (∃ t, exec (.fence fm pred succ xs1 xd) s = .next t ∧ OnlyPc (s.pc + 4) s t)
    ∧ (∃ t, exec (.fenceTso xs1 xd) s = .next t ∧ OnlyPc (s.pc + 4) s t)
    ∧ (∃ t, exec .wfi s = .next t ∧ OnlyPc (s.pc + 4) s t)

/-- `ecall` takes the environment-call exception, code 11, at its own address with trap value 0, and does not retire. That
`MPIE` takes `MIE` and `MIE` becomes 0 is read from the field descriptions (notes/assumptions/17.md). -/
def Obligations.EnvironmentCallTraps : Prop :=
  ∀ s : State, encode .ecall = .word 0x00000073
    ∧ ∃ t, exec .ecall s = .next t ∧ Trapped 11 (mtvalAfter s true 0) s t

/-- `ebreak` and `c.ebreak` take the breakpoint exception, code 3, at their own address, which is the trap value where
`REPORT_VA_IN_MTVAL_ON_BREAKPOINT` says so. -/
def Obligations.BreakpointsTrap : Prop :=
  ∀ s : State, encode .ebreak = .word 0x00100073 ∧ encode .cEbreak = .half 0x9002
    ∧ (∃ t, exec .ebreak s = .next t ∧ Trapped 3 (mtvalAfter s s.cfg.reportVaBreakpoint s.pc) s t)
    ∧ (∃ t, exec .cEbreak s = .next t ∧ Trapped 3 (mtvalAfter s s.cfg.reportVaBreakpoint s.pc) s t)

/-- `mret`: `MIE` takes the old `MPIE`, `MPIE` becomes 1, the pc becomes `mepc`, the instruction is counted, and nothing
else changes. -/
def Obligations.MretRestoresTheInterruptEnable : Prop :=
  ∀ s : State, encode .mret = .word 0x30200073
    ∧ ∃ t, exec .mret s = .next t ∧ t.pc = s.mepc ∧ t.mstatus = { s.mstatus with mie := s.mstatus.mpie, mpie := true }
      ∧ t.mie = s.mie ∧ t.mip = s.mip ∧ t.mtvec = s.mtvec ∧ t.mscratch = s.mscratch ∧ t.mepc = s.mepc
      ∧ t.mcause = s.mcause ∧ t.mtval = s.mtval ∧ Counted s t ∧ SameRegs s t ∧ SameRun s t ∧ SameMemory s t

/-! ## Exceptions -/

/-- Taking each of the eight exceptions: the registers it saves into, the pc, and what `mtval` receives under the
parameter that covers the exception. -/
def Obligations.TakingAnExceptionSavesAndVectors : Prop :=
  ∀ (tval : Word) (s : State),
    Trapped 1 (mtvalAfter s s.cfg.reportVaFetchFault tval) s (trapEntry .instructionAccessFault tval s)
    ∧ Trapped 2 (mtvalAfter s s.cfg.reportEncodingIllegal tval) s (trapEntry .illegalInstruction tval s)
    ∧ Trapped 3 (mtvalAfter s s.cfg.reportVaBreakpoint tval) s (trapEntry .breakpoint tval s)
    ∧ Trapped 4 (mtvalAfter s s.cfg.reportVaLoadMisaligned tval) s (trapEntry .loadAddressMisaligned tval s)
    ∧ Trapped 5 (mtvalAfter s s.cfg.reportVaLoadFault tval) s (trapEntry .loadAccessFault tval s)
    ∧ Trapped 6 (mtvalAfter s s.cfg.reportVaStoreMisaligned tval) s (trapEntry .storeAmoAddressMisaligned tval s)
    ∧ Trapped 7 (mtvalAfter s s.cfg.reportVaStoreFault tval) s (trapEntry .storeAmoAccessFault tval s)
    ∧ Trapped 11 (mtvalAfter s false tval) s (trapEntry .mcall tval s)

/-- `mret` right after a trap, of an exception or of an interrupt, goes back to the interrupted instruction with the
interrupt enable as it was, and leaves `MPIE` at 1. -/
def Obligations.ReturnUndoesTrapEntry : Prop :=
  ∀ (e : Exc) (tval : Word) (c : BitVec 63) (s t : State),
    (exec .mret (trapEntry e tval s) = .next t ∨ exec .mret (takeInterrupt c s) = .next t) →
    t.pc = s.pc ∧ t.mstatus.mie = s.mstatus.mie ∧ t.mstatus.mpie = true ∧ SameRegs s t ∧ SameMemory s t

/-- The only synchronous exceptions an instruction raises are the ones its class can: 3 by the breakpoints, 11 by
`ecall`, 4 and 5 by loads, 6 and 7 by stores; without one, only a CSR instruction and `mret` change a trap register, and
the instruction is counted. -/
def Obligations.OnlyTheseExceptionsAreRaised : Prop :=
  ∀ (i : Instr) (s t : State), exec i s = .next t → i.isCsr = false → i ≠ .mret →
    (SameTrapCsrs s t ∧ Counted s t ∧ SameRun s t)
    ∨ ∃ (code : BitVec 63) (tval : Word), TookTrap code tval s t
      ∧ ((i = .ebreak ∨ i = .cEbreak) ∧ code = 3 ∨ i = .ecall ∧ code = 11
        ∨ (i.access s).isSome = true ∧ i.isStore = false ∧ (code = 4 ∨ code = 5)
        ∨ i.isStore = true ∧ (code = 6 ∨ code = 7))

/-- What stops a run inside an instruction, all of it the model's choice or the spec's `unpredictable`: a load of a byte
that nothing has written (notes/assumptions/4.md) and a CSR instruction on an absent CSR where
`TRAP_ON_UNIMPLEMENTED_CSR` is false. No instruction is refused. -/
def Obligations.OnlyLoadsAndCsrAccessesCanStop : Prop :=
  ∀ (i : Instr) (s : State),
    (∀ r, exec i s ≠ .refused r)
    ∧ ∀ f, exec i s = .fault f →
      ((∃ a, f = .unwrittenByte a ∧ s.mem.get? a = none) ∧ (i.access s).isSome = true ∧ i.isStore = false)
      ∨ ((∃ a, f = .unpredictableCsr a) ∧ i.isCsr = true ∧ s.cfg.trapOnUnimplementedCsr = false)

/-! ## Loads and stores -/

/-- The loads of file 42 and `lwu`, aligned, from memory that holds the bytes `b`, `h`, `w`, `d` there: the address, the
size, the byte order and the extension. -/
def Obligations.LoadsExtendWhatMemoryHolds : Prop :=
  ∀ (xd xs1 : Reg) (imm : BitVec 12) (s : State) (b : BitVec 8) (h : BitVec 16) (w : BitVec 32) (d : BitVec 64),
    let va := BitVec.ofInt 64 ((readReg xs1 s).toNat + imm.toInt)
    (RamAccess s va 1 → HoldsLe s va 1 b →
      (∃ t, exec (.lb xd xs1 imm) s = .next t ∧ WroteReg 4 xd (BitVec.ofInt 64 b.toInt) s t)
      ∧ ∃ t, exec (.lbu xd xs1 imm) s = .next t ∧ WroteReg 4 xd (BitVec.ofNat 64 b.toNat) s t)
    ∧ (va.toNat % 2 = 0 → RamAccess s va 2 → HoldsLe s va 2 h →
      (∃ t, exec (.lh xd xs1 imm) s = .next t ∧ WroteReg 4 xd (BitVec.ofInt 64 h.toInt) s t)
      ∧ ∃ t, exec (.lhu xd xs1 imm) s = .next t ∧ WroteReg 4 xd (BitVec.ofNat 64 h.toNat) s t)
    ∧ (va.toNat % 4 = 0 → RamAccess s va 4 → HoldsLe s va 4 w →
      (∃ t, exec (.lw xd xs1 imm) s = .next t ∧ WroteReg 4 xd (BitVec.ofInt 64 w.toInt) s t)
      ∧ ∃ t, exec (.lwu xd xs1 imm) s = .next t ∧ WroteReg 4 xd (BitVec.ofNat 64 w.toNat) s t)
    ∧ (va.toNat % 8 = 0 → RamAccess s va 8 → HoldsLe s va 8 d →
      ∃ t, exec (.ld xd xs1 imm) s = .next t ∧ WroteReg 4 xd d s t)

/-- The stores of file 42, aligned, into memory: `Stored` says every byte of memory after the store. -/
def Obligations.StoresWriteTheLowBytes : Prop :=
  ∀ (xs1 xs2 : Reg) (imm : BitVec 12) (s : State),
    let va := BitVec.ofInt 64 ((readReg xs1 s).toNat + imm.toInt)
    (RamAccess s va 1 → ∃ t, exec (.sb xs1 xs2 imm) s = .next t ∧ Stored 4 va 1 (readReg xs2 s) s t)
    ∧ (va.toNat % 2 = 0 → RamAccess s va 2 →
      ∃ t, exec (.sh xs1 xs2 imm) s = .next t ∧ Stored 4 va 2 (readReg xs2 s) s t)
    ∧ (va.toNat % 4 = 0 → RamAccess s va 4 →
      ∃ t, exec (.sw xs1 xs2 imm) s = .next t ∧ Stored 4 va 4 (readReg xs2 s) s t)
    ∧ (va.toNat % 8 = 0 → RamAccess s va 8 →
      ∃ t, exec (.sd xs1 xs2 imm) s = .next t ∧ Stored 4 va 8 (readReg xs2 s) s t)

/-- A data access that is aligned, or that its granule makes atomic, is one access for all 19 loads and stores: it
transfers the `n` bytes at `va`, or takes the access fault with the address as trap value. That a misaligned access across
2^PHYS_ADDR_WIDTH can be atomic, and then faults as a whole, is the model's choice (notes/assumptions/38.md). -/
def Obligations.WholeAccessesTransferOrFault : Prop :=
  ∀ (i : Instr) (s : State) (va : Word) (n : Nat), i.access s = some (va, n) → va.toNat % n = 0 ∨ Atomic s va n →
    (∀ (xd : Reg) (v : BitVec (8 * n)), i.isStore = false → i.dest = some xd → RamAccess s va n → HoldsLe s va n v →
      ∃ t, exec i s = .next t ∧ WroteReg i.len xd (i.loaded n v.toNat) s t)
    ∧ (i.isStore = true → RamAccess s va n →
      ∃ t, exec i s = .next t ∧ Stored i.len va n (readReg i.storeSource s) s t)
    ∧ (i.isStore = false → BadAccess s va n →
      ∃ t, exec i s = .next t ∧ Trapped 5 (mtvalAfter s s.cfg.reportVaLoadFault va) s t)
    ∧ (i.isStore = true → BadAccess s va n →
      ∃ t, exec i s = .next t ∧ Trapped 7 (mtvalAfter s s.cfg.reportVaStoreFault va) s t)

/-- With `MISALIGNED_LDST` false a misaligned access that no granule makes atomic traps and transfers nothing: with
priority `low` and a failing access check as an access fault, else as a misaligned address. -/
def Obligations.MisalignedAccessesTrap : Prop :=
  ∀ (i : Instr) (s : State) (va : Word) (n : Nat), i.access s = some (va, n) → va.toNat % n ≠ 0 → ¬ Atomic s va n →
    s.cfg.misalignedLdst = false →
    (s.cfg.misalignedPriority = .low → BadAccess s va n →
      ∃ t, exec i s = .next t
        ∧ (i.isStore = false → Trapped 5 (mtvalAfter s s.cfg.reportVaLoadFault va) s t)
        ∧ (i.isStore = true → Trapped 7 (mtvalAfter s s.cfg.reportVaStoreFault va) s t))
    ∧ (s.cfg.misalignedPriority = .high ∨ ¬ BadAccess s va n →
      ∃ t, exec i s = .next t
        ∧ (i.isStore = false → Trapped 4 (mtvalAfter s s.cfg.reportVaLoadMisaligned va) s t)
        ∧ (i.isStore = true → Trapped 6 (mtvalAfter s s.cfg.reportVaStoreMisaligned va) s t))

/-- With `MISALIGNED_LDST` true a misaligned access that no granule makes atomic goes byte by byte, the addresses modulo
2^64: a load joins the bytes, a store writes each of them and no other. -/
def Obligations.SplitAccessesGoByteByByte : Prop :=
  ∀ (i : Instr) (s : State) (va : Word) (n : Nat), i.access s = some (va, n) → va.toNat % n ≠ 0 → ¬ Atomic s va n →
    s.cfg.misalignedLdst = true → SplitRam s va n →
    (∀ (xd : Reg) (v : BitVec (8 * n)), i.isStore = false → i.dest = some xd →
      (∀ k, k < n → s.mem.get? (va + BitVec.ofNat 64 k).toNat = some (v.extractLsb' (8 * k) 8)) →
      ∃ t, exec i s = .next t ∧ WroteReg i.len xd (i.loaded n v.toNat) s t)
    ∧ (i.isStore = true →
      ∃ t, exec i s = .next t
        ∧ (∀ k, k < n →
            t.mem.get? (va + BitVec.ofNat 64 k).toNat = some ((readReg i.storeSource s).extractLsb' (8 * k) 8))
        ∧ (∀ a, (∀ k, k < n → a ≠ (va + BitVec.ofNat 64 k).toNat) → t.mem.get? a = s.mem.get? a)
        ∧ t.ioLog = s.ioLog ∧ t.pc = s.pc + i.len ∧ Counted s t ∧ SameRegs s t ∧ SameTrapCsrs s t ∧ SameRun s t)

/-- A split access whose byte `j` is the first to fail its check faults with that byte's address: a load writes no register
and no memory, a store leaves the bytes before it written and no other, and the devices among the bytes before it were
accessed. That an access that crosses 2^PHYS_ADDR_WIDTH is split where `Atomic` denies it is in part the model's choice
(notes/assumptions/38.md). -/
def Obligations.SplitAccessesFaultAtTheFirstBadByte : Prop :=
  ∀ (i : Instr) (s : State) (va : Word) (n j : Nat), i.access s = some (va, n) → va.toNat % n ≠ 0 → ¬ Atomic s va n →
    s.cfg.misalignedLdst = true → j < n → SplitPasses s va j → BadAccess s (va + BitVec.ofNat 64 j) 1 →
    (i.isStore = false →
      (∀ k, k < j → deviceByte s va k = false → (s.mem.get? (va + BitVec.ofNat 64 k).toNat).isSome = true) →
      ∃ t, exec i s = .next t
        ∧ TookTrap 5 (mtvalAfter s s.cfg.reportVaLoadFault (va + BitVec.ofNat 64 j)) s t ∧ DeviceReads va j s t
        ∧ SameMemoryBytes s t)
    ∧ (i.isStore = true →
      ∃ t, exec i s = .next t
        ∧ TookTrap 7 (mtvalAfter s s.cfg.reportVaStoreFault (va + BitVec.ofNat 64 j)) s t
        ∧ DeviceWrites va j (readReg i.storeSource s) s t ∧ SplitStored va j (readReg i.storeSource s) s t)

/-- An access to a device that is aligned, or that its granule makes atomic, is one host event and leaves memory alone; what
a load reads is some `n`-byte value that nothing else says (notes/assumptions/9.md). A split access is one host event for
each of its bytes that is a device's, in ascending order; its other bytes are those of memory. -/
def Obligations.DeviceAccessesAreHostEvents : Prop :=
  (∀ (i : Instr) (s : State) (va : Word) (n d : Nat), i.access s = some (va, n) → va.toNat % n = 0 ∨ Atomic s va n →
    IoAccess s d va n →
    (∀ xd, i.isStore = false → i.dest = some xd →
      ∃ v t, v < 256 ^ n ∧ exec i s = .next t ∧ t.ioLog = .read va.toNat n :: s.ioLog
        ∧ WroteReg i.len xd (i.loaded n v) s { t with ioLog := s.ioLog })
    ∧ (i.isStore = true →
      ∃ t, exec i s = .next t ∧ t.ioLog = .write va.toNat n ((readReg i.storeSource s).toNat % 256 ^ n) :: s.ioLog
        ∧ OnlyPc (s.pc + i.len) s { t with ioLog := s.ioLog }))
  ∧ (∀ (i : Instr) (s : State) (va : Word) (n : Nat), i.access s = some (va, n) → va.toNat % n ≠ 0 → ¬ Atomic s va n →
    s.cfg.misalignedLdst = true → SplitPasses s va n →
    (∀ xd, i.isStore = false → i.dest = some xd →
      (∀ k, k < n → deviceByte s va k = false → (s.mem.get? (va + BitVec.ofNat 64 k).toNat).isSome = true) →
      ∃ (v : BitVec (8 * n)) (t : State), exec i s = .next t ∧ DeviceReads va n s t
        ∧ WroteReg i.len xd (i.loaded n v.toNat) s { t with ioLog := s.ioLog }
        ∧ ∀ k, k < n → deviceByte s va k = false →
            s.mem.get? (va + BitVec.ofNat 64 k).toNat = some (v.extractLsb' (8 * k) 8))
    ∧ (i.isStore = true →
      ∃ t, exec i s = .next t ∧ DeviceWrites va n (readReg i.storeSource s) s t
        ∧ SplitStored va n (readReg i.storeSource s) s t ∧ t.pc = s.pc + i.len ∧ Counted s t ∧ SameRegs s t
        ∧ SameTrapCsrs s t ∧ SameRun s t))

/-- The model's choice (notes/assumptions/4.md): a load stops at the first of its bytes of memory that nothing has written,
whether it is one access or goes byte by byte. -/
def Obligations.UnwrittenBytesStopALoad : Prop :=
  ∀ (i : Instr) (s : State) (va : Word) (n j : Nat), i.access s = some (va, n) → i.isStore = false → j < n →
    (va.toNat % n = 0 ∨ Atomic s va n → RamAccess s va n →
      (∀ k, k < j → (s.mem.get? (va.toNat + k)).isSome = true) → s.mem.get? (va.toNat + j) = none →
      exec i s = .fault (.unwrittenByte (va.toNat + j)))
    ∧ (va.toNat % n ≠ 0 → ¬ Atomic s va n → s.cfg.misalignedLdst = true → SplitPasses s va j →
      (∀ k, k < j → deviceByte s va k = false → (s.mem.get? (va + BitVec.ofNat 64 k).toNat).isSome = true) →
      RamAccess s (va + BitVec.ofNat 64 j) 1 → s.mem.get? (va + BitVec.ofNat 64 j).toNat = none →
      exec i s = .fault (.unwrittenByte (va + BitVec.ofNat 64 j).toNat))

/-! ## The compressed instructions

The instruction list, the encodings and the rule `pc + 2` are general knowledge that the spec takes over
(notes/assumptions/6.md and 31.md). `r` names the registers `x8` to `x15`. -/

/-- The compressed sums and moves, each with its immediate as a number. -/
def Obligations.CompressedSums : Prop :=
  ∀ (xd xs2 : Reg) (c c2 : CReg) (imm : BitVec 6) (imm8 : BitVec 8) (s : State),
    let r (f : CReg) : Reg := BitVec.ofNat 5 (8 + f.toNat)
    let x (k : Reg) : Int := (readReg k s).toNat
    (∃ t, exec (.cAddi4spn c imm8) s = .next t ∧ WroteReg 2 (r c) (BitVec.ofInt 64 (x 2 + 4 * imm8.toNat)) s t)
    ∧ (∃ t, exec (.cNop imm) s = .next t ∧ OnlyPc (s.pc + 2) s t)
    ∧ (∃ t, exec (.cAddi xd imm) s = .next t ∧ WroteReg 2 xd (BitVec.ofInt 64 (x xd + imm.toInt)) s t)
    ∧ (∃ t, exec (.cAddiw xd imm) s = .next t
      ∧ WroteReg 2 xd (BitVec.ofInt 64 (Int.bmod (x xd + imm.toInt) (2 ^ 32))) s t)
    ∧ (∃ t, exec (.cLi xd imm) s = .next t ∧ WroteReg 2 xd (BitVec.ofInt 64 imm.toInt) s t)
    ∧ (∃ t, exec (.cAddi16sp imm) s = .next t ∧ WroteReg 2 2 (BitVec.ofInt 64 (x 2 + 16 * imm.toInt)) s t)
    ∧ (∃ t, exec (.cLui xd imm) s = .next t ∧ WroteReg 2 xd (BitVec.ofInt 64 (4096 * imm.toInt)) s t)
    ∧ (∃ t, exec (.cSub c c2) s = .next t ∧ WroteReg 2 (r c) (BitVec.ofInt 64 (x (r c) - x (r c2))) s t)
    ∧ (∃ t, exec (.cSubw c c2) s = .next t
      ∧ WroteReg 2 (r c) (BitVec.ofInt 64 (Int.bmod (x (r c) - x (r c2)) (2 ^ 32))) s t)
    ∧ (∃ t, exec (.cAddw c c2) s = .next t
      ∧ WroteReg 2 (r c) (BitVec.ofInt 64 (Int.bmod (x (r c) + x (r c2)) (2 ^ 32))) s t)
    ∧ (∃ t, exec (.cMv xd xs2) s = .next t ∧ WroteReg 2 xd (readReg xs2 s) s t)
    ∧ (∃ t, exec (.cAdd xd xs2) s = .next t ∧ WroteReg 2 xd (BitVec.ofInt 64 (x xd + x xs2)) s t)

/-- The compressed logic and shifts. -/
def Obligations.CompressedLogicAndShifts : Prop :=
  ∀ (xd : Reg) (c c2 : CReg) (imm : BitVec 6) (s : State),
    let r (f : CReg) : Reg := BitVec.ofNat 5 (8 + f.toNat)
    (∃ v t, exec (.cSrli c imm) s = .next t ∧ WroteReg 2 (r c) v s t
      ∧ v.toNat = (readReg (r c) s).toNat / 2 ^ imm.toNat)
    ∧ (∃ v t, exec (.cSrai c imm) s = .next t ∧ WroteReg 2 (r c) v s t
      ∧ v.toInt = (readReg (r c) s).toInt / 2 ^ imm.toNat)
    ∧ (∃ v t, exec (.cSlli xd imm) s = .next t ∧ WroteReg 2 xd v s t
      ∧ v.toNat = (readReg xd s).toNat * 2 ^ imm.toNat % 2 ^ 64)
    ∧ (∃ v t, exec (.cAndi c imm) s = .next t ∧ WroteReg 2 (r c) v s t
      ∧ ∀ k, k < 64 → v.getLsbD k = ((readReg (r c) s).getLsbD k && imm.getLsbD (min k 5)))
    ∧ (∃ v t, exec (.cXor c c2) s = .next t ∧ WroteReg 2 (r c) v s t
      ∧ ∀ k, k < 64 → v.getLsbD k = ((readReg (r c) s).getLsbD k != (readReg (r c2) s).getLsbD k))
    ∧ (∃ v t, exec (.cOr c c2) s = .next t ∧ WroteReg 2 (r c) v s t
      ∧ ∀ k, k < 64 → v.getLsbD k = ((readReg (r c) s).getLsbD k || (readReg (r c2) s).getLsbD k))
    ∧ (∃ v t, exec (.cAnd c c2) s = .next t ∧ WroteReg 2 (r c) v s t
      ∧ ∀ k, k < 64 → v.getLsbD k = ((readReg (r c) s).getLsbD k && (readReg (r c2) s).getLsbD k))

/-- The compressed loads, aligned: the scaled unsigned offsets, the registers and the extension. -/
def Obligations.CompressedLoads : Prop :=
  ∀ (xd : Reg) (c c1 : CReg) (imm : BitVec 5) (imm6 : BitVec 6) (s : State) (va : Word) (w : BitVec 32) (d : BitVec 64),
    let r (f : CReg) : Reg := BitVec.ofNat 5 (8 + f.toNat)
    (va.toNat % 4 = 0 → RamAccess s va 4 → HoldsLe s va 4 w →
      (va = BitVec.ofNat 64 ((readReg (r c1) s).toNat + 4 * imm.toNat) →
        ∃ t, exec (.cLw c c1 imm) s = .next t ∧ WroteReg 2 (r c) (BitVec.ofInt 64 w.toInt) s t)
      ∧ (va = BitVec.ofNat 64 ((readReg 2 s).toNat + 4 * imm6.toNat) →
        ∃ t, exec (.cLwsp xd imm6) s = .next t ∧ WroteReg 2 xd (BitVec.ofInt 64 w.toInt) s t))
    ∧ (va.toNat % 8 = 0 → RamAccess s va 8 → HoldsLe s va 8 d →
      (va = BitVec.ofNat 64 ((readReg (r c1) s).toNat + 8 * imm.toNat) →
        ∃ t, exec (.cLd c c1 imm) s = .next t ∧ WroteReg 2 (r c) d s t)
      ∧ (va = BitVec.ofNat 64 ((readReg 2 s).toNat + 8 * imm6.toNat) →
        ∃ t, exec (.cLdsp xd imm6) s = .next t ∧ WroteReg 2 xd d s t))

/-- The compressed stores, aligned. -/
def Obligations.CompressedStores : Prop :=
  ∀ (xs2 : Reg) (c1 c2 : CReg) (imm : BitVec 5) (imm6 : BitVec 6) (s : State) (va : Word),
    let r (f : CReg) : Reg := BitVec.ofNat 5 (8 + f.toNat)
    (va.toNat % 4 = 0 → RamAccess s va 4 →
      (va = BitVec.ofNat 64 ((readReg (r c1) s).toNat + 4 * imm.toNat) →
        ∃ t, exec (.cSw c1 c2 imm) s = .next t ∧ Stored 2 va 4 (readReg (r c2) s) s t)
      ∧ (va = BitVec.ofNat 64 ((readReg 2 s).toNat + 4 * imm6.toNat) →
        ∃ t, exec (.cSwsp xs2 imm6) s = .next t ∧ Stored 2 va 4 (readReg xs2 s) s t))
    ∧ (va.toNat % 8 = 0 → RamAccess s va 8 →
      (va = BitVec.ofNat 64 ((readReg (r c1) s).toNat + 8 * imm.toNat) →
        ∃ t, exec (.cSd c1 c2 imm) s = .next t ∧ Stored 2 va 8 (readReg (r c2) s) s t)
      ∧ (va = BitVec.ofNat 64 ((readReg 2 s).toNat + 8 * imm6.toNat) →
        ∃ t, exec (.cSdsp xs2 imm6) s = .next t ∧ Stored 2 va 8 (readReg xs2 s) s t))

/-- The compressed jumps and branches: offsets from their own address, targets without bit 0, the link `pc + 2` in `x1`
for `c.jalr` alone. -/
def Obligations.CompressedControlTransfer : Prop :=
  ∀ (xs1 : Reg) (c : CReg) (imm11 : BitVec 11) (imm8 : BitVec 8) (s : State),
    let r (f : CReg) : Reg := BitVec.ofNat 5 (8 + f.toNat)
    let target := BitVec.ofInt 64 (s.pc.toNat + 2 * imm8.toInt)
    (∃ t, exec (.cJ imm11) s = .next t ∧ OnlyPc (BitVec.ofInt 64 (s.pc.toNat + 2 * imm11.toInt)) s t)
    ∧ (∃ npc t, exec (.cJr xs1) s = .next t ∧ OnlyPc npc s t ∧ npc.toNat = (readReg xs1 s).toNat / 2 * 2)
    ∧ (∃ npc t, exec (.cJalr xs1) s = .next t ∧ Jumped npc 1 (s.pc + 2) s t
      ∧ npc.toNat = (readReg xs1 s).toNat / 2 * 2)
    ∧ (∃ t, exec (.cBeqz c imm8) s = .next t
      ∧ OnlyPc (if (readReg (r c) s).toNat = 0 then target else s.pc + 2) s t)
    ∧ (∃ t, exec (.cBnez c imm8) s = .next t
      ∧ OnlyPc (if (readReg (r c) s).toNat ≠ 0 then target else s.pc + 2) s t)

/-! ## Control and status registers -/

/-- What software reads from each of the 19 CSRs, field by field as a number. Fields of modes the hart lacks read 0, the
spec's decision (notes/assumptions/22.md), as are the constants of `misa` and the zero of an unimplemented one (21.md) and
the zeros above 32-bit CSRs (27.md). -/
def Obligations.CsrsReadAsTheirFields : Prop :=
  ∀ s : State,
    (csrRead .mstatus s).toNat = 0x1800 + 128 * s.mstatus.mpie.toNat + 8 * s.mstatus.mie.toNat
      + 2 ^ 22 * s.mstatus.tsr.toNat + 2 ^ 21 * s.mstatus.tw.toNat + 2 ^ 19 * s.mstatus.mxr.toNat
    ∧ (csrRead .misa s).toNat =
        (if s.cfg.misaCsrImplemented then 0x8000000000000104 + 2 ^ 12 * s.cfg.mImplemented.toNat else 0)
    ∧ (csrRead .mie s).toNat = 2 ^ 11 * s.mie.mei.toNat + 2 ^ 7 * s.mie.mti.toNat + 2 ^ 3 * s.mie.msi.toNat
    ∧ (csrRead .mip s).toNat = 2 ^ 11 * s.mip.mei.toNat + 2 ^ 7 * s.mip.mti.toNat + 2 ^ 3 * s.mip.msi.toNat
    ∧ (csrRead .mtvec s).toNat = 4 * s.mtvec.base.toNat + (if s.mtvec.mode = .vectored then 1 else 0)
    ∧ (csrRead .mcountinhibit s).toNat = 4 * s.mcountinhibit.ir.toNat + s.mcountinhibit.cy.toNat
    ∧ csrRead .mscratch s = s.mscratch ∧ (csrRead .mepc s).toNat = s.mepc.toNat / 2 * 2
    ∧ (csrRead .mcause s).toNat = 2 ^ 63 * s.mcause.int.toNat + s.mcause.code.toNat ∧ csrRead .mtval s = s.mtval
    ∧ csrRead .mcycle s = s.mcycle ∧ csrRead .minstret s = s.minstret ∧ csrRead .cycle s = s.mcycle
    ∧ csrRead .instret s = s.minstret
    ∧ csrRead .time s = (currentInputs s).mtime
    ∧ (csrRead .mvendorid s).toNat = 128 * s.cfg.vendorIdBank.toNat + s.cfg.vendorIdOffset.toNat
    ∧ csrRead .marchid s = (if s.cfg.marchidImplemented then s.cfg.archIdValue else 0)
    ∧ csrRead .mimpid s = (if s.cfg.mimpidImplemented then s.cfg.impIdValue else 0) ∧ csrRead .mhartid s = s.cfg.hartId

/-- The four forms that only read, on every CSR that exists, read-only ones too, and for every `xd`. -/
def Obligations.ReadingFormsReadAlone : Prop :=
  ∀ (r : Csr) (xd : Reg) (s : State), r.exists? s.cfg = true →
    (∃ t, exec (.csrrs xd r.address 0) s = .next t ∧ WroteReg 4 xd (csrRead r s) s t)
    ∧ (∃ t, exec (.csrrc xd r.address 0) s = .next t ∧ WroteReg 4 xd (csrRead r s) s t)
    ∧ (∃ t, exec (.csrrsi xd r.address 0) s = .next t ∧ WroteReg 4 xd (csrRead r s) s t)
    ∧ (∃ t, exec (.csrrci xd r.address 0) s = .next t ∧ WroteReg 4 xd (csrRead r s) s t)

/-- The six instructions where they write: what each writes to a writable CSR, what `CsrWrote` says every CSR then
holds, and the old value in `xd`. A write of `mcause` that is no valid cause is left to the next statement where it
traps. That a CSR write of `minstret` is not counted is the spec's decision (notes/assumptions/15.md), and the outcome
of an illegal `mtvec` write under `custom` a free value (10.md). -/
def Obligations.CsrWritesStore : Prop :=
  ∀ (r : Csr) (xd xs1 : Reg) (uimm : BitVec 5) (s : State),
    r ∉ [.cycle, .time, .instret, .mvendorid, .marchid, .mimpid, .mhartid] →
    let old := csrRead r s
    let takes (v : Word) : Prop := r = .mcause → CauseLegal s v ∨ s.cfg.trapOnIllegalWlrl = false
    let x := readReg xs1 s
    let u := BitVec.ofNat 64 uimm.toNat
    (takes x → ∃ t, exec (.csrrw xd r.address xs1) s = .next t ∧ CsrWrote r xd old x s t)
    ∧ (xs1 ≠ 0 → takes (old ||| x) → ∃ t, exec (.csrrs xd r.address xs1) s = .next t ∧ CsrWrote r xd old (old ||| x) s t)
    ∧ (xs1 ≠ 0 → takes (old &&& ~~~x) →
      ∃ t, exec (.csrrc xd r.address xs1) s = .next t ∧ CsrWrote r xd old (old &&& ~~~x) s t)
    ∧ (takes u → ∃ t, exec (.csrrwi xd r.address uimm) s = .next t ∧ CsrWrote r xd old u s t)
    ∧ (uimm ≠ 0 → takes (old ||| u) →
      ∃ t, exec (.csrrsi xd r.address uimm) s = .next t ∧ CsrWrote r xd old (old ||| u) s t)
    ∧ (uimm ≠ 0 → takes (old &&& ~~~u) →
      ∃ t, exec (.csrrci xd r.address uimm) s = .next t ∧ CsrWrote r xd old (old &&& ~~~u) s t)

/-- Where `TRAP_ON_ILLEGAL_WLRL` is true, a write of `mcause` with a value that is no valid cause raises the
illegal-instruction exception with the instruction's word as trap value, and writes no register. -/
def Obligations.IllegalCauseWritesTrap : Prop :=
  ∀ (xd xs1 : Reg) (uimm : BitVec 5) (s : State), s.cfg.trapOnIllegalWlrl = true →
    let old := csrRead .mcause s
    let x := readReg xs1 s
    let u := BitVec.ofNat 64 uimm.toNat
    let word (f3 : BitVec 3) (src : BitVec 5) : BitVec 32 := 0x342#12 ++ src ++ f3 ++ xd ++ 0b1110011#7
    let trapped (w : BitVec 32) (t : State) : Prop :=
      Trapped 2 (mtvalAfter s s.cfg.reportEncodingIllegal (w.setWidth 64)) s t
    (¬ CauseLegal s x → ∃ t, exec (.csrrw xd 0x342 xs1) s = .next t ∧ trapped (word 0b001 xs1) t)
    ∧ (xs1 ≠ 0 → ¬ CauseLegal s (old ||| x) → ∃ t, exec (.csrrs xd 0x342 xs1) s = .next t ∧ trapped (word 0b010 xs1) t)
    ∧ (xs1 ≠ 0 → ¬ CauseLegal s (old &&& ~~~x) →
      ∃ t, exec (.csrrc xd 0x342 xs1) s = .next t ∧ trapped (word 0b011 xs1) t)
    ∧ (¬ CauseLegal s u → ∃ t, exec (.csrrwi xd 0x342 uimm) s = .next t ∧ trapped (word 0b101 uimm) t)
    ∧ (uimm ≠ 0 → ¬ CauseLegal s (old ||| u) →
      ∃ t, exec (.csrrsi xd 0x342 uimm) s = .next t ∧ trapped (word 0b110 uimm) t)
    ∧ (uimm ≠ 0 → ¬ CauseLegal s (old &&& ~~~u) →
      ∃ t, exec (.csrrci xd 0x342 uimm) s = .next t ∧ trapped (word 0b111 uimm) t)

/-- A form that writes raises the illegal-instruction exception on a read-only CSR that exists: `csrrw` and `csrrwi`
always, the others unless their source is register 0 or the immediate 0. Which CSRs are read-only is the spec's decision
(notes/assumptions/27.md). -/
def Obligations.ReadOnlyCsrsRefuseWrites : Prop :=
  ∀ (r : Csr) (xd xs1 : Reg) (uimm : BitVec 5) (s : State),
    r ∈ [.cycle, .time, .instret, .mvendorid, .marchid, .mimpid, .mhartid] → r.exists? s.cfg = true →
    let word (f3 : BitVec 3) (src : BitVec 5) : BitVec 32 := r.address ++ src ++ f3 ++ xd ++ 0b1110011#7
    let trapped (w : BitVec 32) (t : State) : Prop :=
      Trapped 2 (mtvalAfter s s.cfg.reportEncodingIllegal (w.setWidth 64)) s t
    (∃ t, exec (.csrrw xd r.address xs1) s = .next t ∧ trapped (word 0b001 xs1) t)
    ∧ (xs1 ≠ 0 → ∃ t, exec (.csrrs xd r.address xs1) s = .next t ∧ trapped (word 0b010 xs1) t)
    ∧ (xs1 ≠ 0 → ∃ t, exec (.csrrc xd r.address xs1) s = .next t ∧ trapped (word 0b011 xs1) t)
    ∧ (∃ t, exec (.csrrwi xd r.address uimm) s = .next t ∧ trapped (word 0b101 uimm) t)
    ∧ (uimm ≠ 0 → ∃ t, exec (.csrrsi xd r.address uimm) s = .next t ∧ trapped (word 0b110 uimm) t)
    ∧ (uimm ≠ 0 → ∃ t, exec (.csrrci xd r.address uimm) s = .next t ∧ trapped (word 0b111 uimm) t)

/-- An address that names no CSR of the configuration: every form raises the illegal-instruction exception where
`TRAP_ON_UNIMPLEMENTED_CSR` is true, reads and register 0 included, and has no next state where it is false. -/
def Obligations.AbsentCsrsTrap : Prop :=
  ∀ (i : Instr) (xd src : Reg) (a : CsrAddr) (f3 : BitVec 3) (s : State),
    (i = .csrrw xd a src ∧ f3 = 0b001 ∨ i = .csrrs xd a src ∧ f3 = 0b010 ∨ i = .csrrc xd a src ∧ f3 = 0b011
      ∨ i = .csrrwi xd a src ∧ f3 = 0b101 ∨ i = .csrrsi xd a src ∧ f3 = 0b110 ∨ i = .csrrci xd a src ∧ f3 = 0b111) →
    (a.toNat ∉ [0x300, 0x301, 0x304, 0x305, 0x320, 0x340, 0x341, 0x342, 0x343, 0x344, 0xB00, 0xB02, 0xF11, 0xF12, 0xF13,
      0xF14]) →
    (s.cfg.zicntrImplemented = true → a.toNat ≠ 0xC00 ∧ a.toNat ≠ 0xC02) →
    (s.cfg.zicntrImplemented = true → s.cfg.timeCsrImplemented = true → a.toNat ≠ 0xC01) →
    (s.cfg.trapOnUnimplementedCsr = true →
      ∃ t, exec i s = .next t ∧ Trapped 2 (mtvalAfter s s.cfg.reportEncodingIllegal
        ((a ++ src ++ f3 ++ xd ++ 0b1110011#7 : BitVec 32).setWidth 64)) s t)
    ∧ (s.cfg.trapOnUnimplementedCsr = false → exec i s = .fault (.unpredictableCsr a))

/-! ## Registers, memory, and what instructions leave alone -/

/-- Reading after writing a register: the value, for every other register the old one, and 0 for `x0`. That `x0` is 0 is
the spec's decision (notes/assumptions/18.md). -/
def Obligations.RegistersReadBack : Prop :=
  ∀ (r x : Reg) (v : Word) (s : State),
    readReg r (writeReg x v s) = if r = 0 then 0 else if r = x then v else readReg r s

/-- Reading after writing memory: `n` stored bytes read back as the number stored modulo 256^n, every other byte reads as
before, and the canonical form is kept. -/
def Obligations.MemoryReadsBack : Prop :=
  ∀ (m : Memory) (a n v : Nat),
    readLe (writeLe m a n v) a n = .ok (v % 256 ^ n)
    ∧ (∀ x, x < a ∨ a + n ≤ x → (writeLe m a n v).get? x = m.get? x)
    ∧ (m.wf = true → (writeLe m a n v).wf = true)

/-- No instruction, completing or trapping, changes a register other than its destination. -/
def Obligations.OnlyTheDestinationRegisterChanges : Prop :=
  ∀ (i : Instr) (s t : State) (r : Reg), exec i s = .next t → i.dest ≠ some r → readReg r t = readReg r s

/-- No instruction but a store changes a byte of memory, and a store changes none outside its own `n` bytes; no
instruction changes `mip`, the configuration, the inputs or the step number. -/
def Obligations.OnlyStoresChangeMemory : Prop :=
  ∀ (i : Instr) (s t : State), exec i s = .next t →
    (i.isStore = false → SameMemoryBytes s t)
    ∧ (∀ va n, i.isStore = true → i.access s = some (va, n) →
        ∀ a, (∀ k, k < n → a ≠ (va + BitVec.ofNat 64 k).toNat) → t.mem.get? a = s.mem.get? a)
    ∧ t.mip = s.mip ∧ t.cfg = s.cfg ∧ t.inputs = s.inputs ∧ t.stepNo = s.stepNo
end

