-- ==== Sys2Proof/Laws/Encoding.lean ====
section
/-! SUPPORT. Every field of every layout reads back as what was encoded, a word is the layout of its fields, and
what reading bytes and decoding answer. -/

-- One thread at a time: many small theorems at once ask for more threads than the checker's memory limit allows.
set_option Elab.async false

namespace Sys2Proof

@[simp] theorem opcodeOf_rWord (f7 : BitVec 7) (xs2 xs1 : Reg) (f3 : BitVec 3) (xd : Reg) (op : BitVec 7) :
    opcodeOf (rWord f7 xs2 xs1 f3 xd op) = op := by
  apply BitVec.eq_of_getLsbD_eq
  intro i hi
  simp only [opcodeOf, rWord, BitVec.getLsbD_extractLsb', BitVec.getLsbD_append]
  interval_cases i <;> simp

@[simp] theorem funct3Of_rWord (f7 : BitVec 7) (xs2 xs1 : Reg) (f3 : BitVec 3) (xd : Reg) (op : BitVec 7) :
    funct3Of (rWord f7 xs2 xs1 f3 xd op) = f3 := by
  apply BitVec.eq_of_getLsbD_eq
  intro i hi
  simp only [funct3Of, rWord, BitVec.getLsbD_extractLsb', BitVec.getLsbD_append]
  interval_cases i <;> simp

@[simp] theorem funct7Of_rWord (f7 : BitVec 7) (xs2 xs1 : Reg) (f3 : BitVec 3) (xd : Reg) (op : BitVec 7) :
    funct7Of (rWord f7 xs2 xs1 f3 xd op) = f7 := by
  apply BitVec.eq_of_getLsbD_eq
  intro i hi
  simp only [funct7Of, rWord, BitVec.getLsbD_extractLsb', BitVec.getLsbD_append]
  interval_cases i <;> simp

@[simp] theorem xdOf_rWord (f7 : BitVec 7) (xs2 xs1 : Reg) (f3 : BitVec 3) (xd : Reg) (op : BitVec 7) :
    xdOf (rWord f7 xs2 xs1 f3 xd op) = xd := by
  apply BitVec.eq_of_getLsbD_eq
  intro i hi
  simp only [xdOf, rWord, BitVec.getLsbD_extractLsb', BitVec.getLsbD_append]
  interval_cases i <;> simp

@[simp] theorem xs1Of_rWord (f7 : BitVec 7) (xs2 xs1 : Reg) (f3 : BitVec 3) (xd : Reg) (op : BitVec 7) :
    xs1Of (rWord f7 xs2 xs1 f3 xd op) = xs1 := by
  apply BitVec.eq_of_getLsbD_eq
  intro i hi
  simp only [xs1Of, rWord, BitVec.getLsbD_extractLsb', BitVec.getLsbD_append]
  interval_cases i <;> simp

@[simp] theorem xs2Of_rWord (f7 : BitVec 7) (xs2 xs1 : Reg) (f3 : BitVec 3) (xd : Reg) (op : BitVec 7) :
    xs2Of (rWord f7 xs2 xs1 f3 xd op) = xs2 := by
  apply BitVec.eq_of_getLsbD_eq
  intro i hi
  simp only [xs2Of, rWord, BitVec.getLsbD_extractLsb', BitVec.getLsbD_append]
  interval_cases i <;> simp

@[simp] theorem opcodeOf_iWord (imm : BitVec 12) (xs1 : Reg) (f3 : BitVec 3) (xd : Reg) (op : BitVec 7) :
    opcodeOf (iWord imm xs1 f3 xd op) = op := by
  apply BitVec.eq_of_getLsbD_eq
  intro i hi
  simp only [opcodeOf, iWord, BitVec.getLsbD_extractLsb', BitVec.getLsbD_append]
  interval_cases i <;> simp

@[simp] theorem funct3Of_iWord (imm : BitVec 12) (xs1 : Reg) (f3 : BitVec 3) (xd : Reg) (op : BitVec 7) :
    funct3Of (iWord imm xs1 f3 xd op) = f3 := by
  apply BitVec.eq_of_getLsbD_eq
  intro i hi
  simp only [funct3Of, iWord, BitVec.getLsbD_extractLsb', BitVec.getLsbD_append]
  interval_cases i <;> simp

@[simp] theorem xdOf_iWord (imm : BitVec 12) (xs1 : Reg) (f3 : BitVec 3) (xd : Reg) (op : BitVec 7) :
    xdOf (iWord imm xs1 f3 xd op) = xd := by
  apply BitVec.eq_of_getLsbD_eq
  intro i hi
  simp only [xdOf, iWord, BitVec.getLsbD_extractLsb', BitVec.getLsbD_append]
  interval_cases i <;> simp

@[simp] theorem xs1Of_iWord (imm : BitVec 12) (xs1 : Reg) (f3 : BitVec 3) (xd : Reg) (op : BitVec 7) :
    xs1Of (iWord imm xs1 f3 xd op) = xs1 := by
  apply BitVec.eq_of_getLsbD_eq
  intro i hi
  simp only [xs1Of, iWord, BitVec.getLsbD_extractLsb', BitVec.getLsbD_append]
  interval_cases i <;> simp

@[simp] theorem iImmOf_iWord (imm : BitVec 12) (xs1 : Reg) (f3 : BitVec 3) (xd : Reg) (op : BitVec 7) :
    iImmOf (iWord imm xs1 f3 xd op) = imm := by
  apply BitVec.eq_of_getLsbD_eq
  intro i hi
  simp only [iImmOf, iWord, BitVec.getLsbD_extractLsb', BitVec.getLsbD_append]
  interval_cases i <;> simp

@[simp] theorem opcodeOf_shiftWord (f6 shamt : BitVec 6) (xs1 : Reg) (f3 : BitVec 3) (xd : Reg) (op : BitVec 7) :
    opcodeOf (shiftWord f6 shamt xs1 f3 xd op) = op := by
  apply BitVec.eq_of_getLsbD_eq
  intro i hi
  simp only [opcodeOf, shiftWord, BitVec.getLsbD_extractLsb', BitVec.getLsbD_append]
  interval_cases i <;> simp

@[simp] theorem funct3Of_shiftWord (f6 shamt : BitVec 6) (xs1 : Reg) (f3 : BitVec 3) (xd : Reg) (op : BitVec 7) :
    funct3Of (shiftWord f6 shamt xs1 f3 xd op) = f3 := by
  apply BitVec.eq_of_getLsbD_eq
  intro i hi
  simp only [funct3Of, shiftWord, BitVec.getLsbD_extractLsb', BitVec.getLsbD_append]
  interval_cases i <;> simp

@[simp] theorem funct6Of_shiftWord (f6 shamt : BitVec 6) (xs1 : Reg) (f3 : BitVec 3) (xd : Reg) (op : BitVec 7) :
    funct6Of (shiftWord f6 shamt xs1 f3 xd op) = f6 := by
  apply BitVec.eq_of_getLsbD_eq
  intro i hi
  simp only [funct6Of, shiftWord, BitVec.getLsbD_extractLsb', BitVec.getLsbD_append]
  interval_cases i <;> simp

@[simp] theorem shamt6Of_shiftWord (f6 shamt : BitVec 6) (xs1 : Reg) (f3 : BitVec 3) (xd : Reg) (op : BitVec 7) :
    shamt6Of (shiftWord f6 shamt xs1 f3 xd op) = shamt := by
  apply BitVec.eq_of_getLsbD_eq
  intro i hi
  simp only [shamt6Of, shiftWord, BitVec.getLsbD_extractLsb', BitVec.getLsbD_append]
  interval_cases i <;> simp

@[simp] theorem xdOf_shiftWord (f6 shamt : BitVec 6) (xs1 : Reg) (f3 : BitVec 3) (xd : Reg) (op : BitVec 7) :
    xdOf (shiftWord f6 shamt xs1 f3 xd op) = xd := by
  apply BitVec.eq_of_getLsbD_eq
  intro i hi
  simp only [xdOf, shiftWord, BitVec.getLsbD_extractLsb', BitVec.getLsbD_append]
  interval_cases i <;> simp

@[simp] theorem xs1Of_shiftWord (f6 shamt : BitVec 6) (xs1 : Reg) (f3 : BitVec 3) (xd : Reg) (op : BitVec 7) :
    xs1Of (shiftWord f6 shamt xs1 f3 xd op) = xs1 := by
  apply BitVec.eq_of_getLsbD_eq
  intro i hi
  simp only [xs1Of, shiftWord, BitVec.getLsbD_extractLsb', BitVec.getLsbD_append]
  interval_cases i <;> simp

@[simp] theorem opcodeOf_sWord (imm : BitVec 12) (xs2 xs1 : Reg) (f3 : BitVec 3) (op : BitVec 7) :
    opcodeOf (sWord imm xs2 xs1 f3 op) = op := by
  apply BitVec.eq_of_getLsbD_eq
  intro i hi
  simp only [opcodeOf, sWord, BitVec.getLsbD_extractLsb', BitVec.getLsbD_append]
  interval_cases i <;> simp

@[simp] theorem funct3Of_sWord (imm : BitVec 12) (xs2 xs1 : Reg) (f3 : BitVec 3) (op : BitVec 7) :
    funct3Of (sWord imm xs2 xs1 f3 op) = f3 := by
  apply BitVec.eq_of_getLsbD_eq
  intro i hi
  simp only [funct3Of, sWord, BitVec.getLsbD_extractLsb', BitVec.getLsbD_append]
  interval_cases i <;> simp

@[simp] theorem xs1Of_sWord (imm : BitVec 12) (xs2 xs1 : Reg) (f3 : BitVec 3) (op : BitVec 7) :
    xs1Of (sWord imm xs2 xs1 f3 op) = xs1 := by
  apply BitVec.eq_of_getLsbD_eq
  intro i hi
  simp only [xs1Of, sWord, BitVec.getLsbD_extractLsb', BitVec.getLsbD_append]
  interval_cases i <;> simp

@[simp] theorem xs2Of_sWord (imm : BitVec 12) (xs2 xs1 : Reg) (f3 : BitVec 3) (op : BitVec 7) :
    xs2Of (sWord imm xs2 xs1 f3 op) = xs2 := by
  apply BitVec.eq_of_getLsbD_eq
  intro i hi
  simp only [xs2Of, sWord, BitVec.getLsbD_extractLsb', BitVec.getLsbD_append]
  interval_cases i <;> simp

@[simp] theorem sImmOf_sWord (imm : BitVec 12) (xs2 xs1 : Reg) (f3 : BitVec 3) (op : BitVec 7) :
    sImmOf (sWord imm xs2 xs1 f3 op) = imm := by
  apply BitVec.eq_of_getLsbD_eq
  intro i hi
  simp only [sImmOf, sWord, BitVec.getLsbD_extractLsb', BitVec.getLsbD_append]
  interval_cases i <;> simp

@[simp] theorem opcodeOf_bWord (imm : BitVec 12) (xs2 xs1 : Reg) (f3 : BitVec 3) (op : BitVec 7) :
    opcodeOf (bWord imm xs2 xs1 f3 op) = op := by
  apply BitVec.eq_of_getLsbD_eq
  intro i hi
  simp only [opcodeOf, bWord, BitVec.getLsbD_extractLsb', BitVec.getLsbD_append]
  interval_cases i <;> simp

@[simp] theorem funct3Of_bWord (imm : BitVec 12) (xs2 xs1 : Reg) (f3 : BitVec 3) (op : BitVec 7) :
    funct3Of (bWord imm xs2 xs1 f3 op) = f3 := by
  apply BitVec.eq_of_getLsbD_eq
  intro i hi
  simp only [funct3Of, bWord, BitVec.getLsbD_extractLsb', BitVec.getLsbD_append]
  interval_cases i <;> simp

@[simp] theorem xs1Of_bWord (imm : BitVec 12) (xs2 xs1 : Reg) (f3 : BitVec 3) (op : BitVec 7) :
    xs1Of (bWord imm xs2 xs1 f3 op) = xs1 := by
  apply BitVec.eq_of_getLsbD_eq
  intro i hi
  simp only [xs1Of, bWord, BitVec.getLsbD_extractLsb', BitVec.getLsbD_append]
  interval_cases i <;> simp

@[simp] theorem xs2Of_bWord (imm : BitVec 12) (xs2 xs1 : Reg) (f3 : BitVec 3) (op : BitVec 7) :
    xs2Of (bWord imm xs2 xs1 f3 op) = xs2 := by
  apply BitVec.eq_of_getLsbD_eq
  intro i hi
  simp only [xs2Of, bWord, BitVec.getLsbD_extractLsb', BitVec.getLsbD_append]
  interval_cases i <;> simp

@[simp] theorem bImmOf_bWord (imm : BitVec 12) (xs2 xs1 : Reg) (f3 : BitVec 3) (op : BitVec 7) :
    bImmOf (bWord imm xs2 xs1 f3 op) = imm := by
  apply BitVec.eq_of_getLsbD_eq
  intro i hi
  simp only [bImmOf, bWord, BitVec.getLsbD_extractLsb', BitVec.getLsbD_append]
  interval_cases i <;> simp

@[simp] theorem opcodeOf_uWord (imm : BitVec 20) (xd : Reg) (op : BitVec 7) :
    opcodeOf (uWord imm xd op) = op := by
  apply BitVec.eq_of_getLsbD_eq
  intro i hi
  simp only [opcodeOf, uWord, BitVec.getLsbD_extractLsb', BitVec.getLsbD_append]
  interval_cases i <;> simp

@[simp] theorem xdOf_uWord (imm : BitVec 20) (xd : Reg) (op : BitVec 7) :
    xdOf (uWord imm xd op) = xd := by
  apply BitVec.eq_of_getLsbD_eq
  intro i hi
  simp only [xdOf, uWord, BitVec.getLsbD_extractLsb', BitVec.getLsbD_append]
  interval_cases i <;> simp

@[simp] theorem uImmOf_uWord (imm : BitVec 20) (xd : Reg) (op : BitVec 7) :
    uImmOf (uWord imm xd op) = imm := by
  apply BitVec.eq_of_getLsbD_eq
  intro i hi
  simp only [uImmOf, uWord, BitVec.getLsbD_extractLsb', BitVec.getLsbD_append]
  interval_cases i <;> simp

@[simp] theorem opcodeOf_jWord (imm : BitVec 20) (xd : Reg) (op : BitVec 7) :
    opcodeOf (jWord imm xd op) = op := by
  apply BitVec.eq_of_getLsbD_eq
  intro i hi
  simp only [opcodeOf, jWord, BitVec.getLsbD_extractLsb', BitVec.getLsbD_append]
  interval_cases i <;> simp

@[simp] theorem xdOf_jWord (imm : BitVec 20) (xd : Reg) (op : BitVec 7) :
    xdOf (jWord imm xd op) = xd := by
  apply BitVec.eq_of_getLsbD_eq
  intro i hi
  simp only [xdOf, jWord, BitVec.getLsbD_extractLsb', BitVec.getLsbD_append]
  interval_cases i <;> simp

@[simp] theorem jImmOf_jWord (imm : BitVec 20) (xd : Reg) (op : BitVec 7) :
    jImmOf (jWord imm xd op) = imm := by
  apply BitVec.eq_of_getLsbD_eq
  intro i hi
  simp only [jImmOf, jWord, BitVec.getLsbD_extractLsb', BitVec.getLsbD_append]
  interval_cases i <;> simp

@[simp] theorem opcodeOf_fenceWord (fm pred succ : BitVec 4) (xs1 xd : Reg) :
    opcodeOf (fenceWord fm pred succ xs1 xd) = 0x0f := by
  apply BitVec.eq_of_getLsbD_eq
  intro i hi
  simp only [opcodeOf, fenceWord, BitVec.getLsbD_extractLsb', BitVec.getLsbD_append]
  interval_cases i <;> simp

@[simp] theorem funct3Of_fenceWord (fm pred succ : BitVec 4) (xs1 xd : Reg) :
    funct3Of (fenceWord fm pred succ xs1 xd) = 0 := by
  apply BitVec.eq_of_getLsbD_eq
  intro i hi
  simp only [funct3Of, fenceWord, BitVec.getLsbD_extractLsb', BitVec.getLsbD_append]
  interval_cases i <;> simp

@[simp] theorem xs1Of_fenceWord (fm pred succ : BitVec 4) (xs1 xd : Reg) :
    xs1Of (fenceWord fm pred succ xs1 xd) = xs1 := by
  apply BitVec.eq_of_getLsbD_eq
  intro i hi
  simp only [xs1Of, fenceWord, BitVec.getLsbD_extractLsb', BitVec.getLsbD_append]
  interval_cases i <;> simp

@[simp] theorem xdOf_fenceWord (fm pred succ : BitVec 4) (xs1 xd : Reg) :
    xdOf (fenceWord fm pred succ xs1 xd) = xd := by
  apply BitVec.eq_of_getLsbD_eq
  intro i hi
  simp only [xdOf, fenceWord, BitVec.getLsbD_extractLsb', BitVec.getLsbD_append]
  interval_cases i <;> simp

@[simp] theorem fm_fenceWord (fm pred succ : BitVec 4) (xs1 xd : Reg) :
    (fenceWord fm pred succ xs1 xd).extractLsb' 28 4 = fm := by
  apply BitVec.eq_of_getLsbD_eq
  intro i hi
  simp only [fenceWord, BitVec.getLsbD_extractLsb', BitVec.getLsbD_append]
  interval_cases i <;> simp

@[simp] theorem pred_fenceWord (fm pred succ : BitVec 4) (xs1 xd : Reg) :
    (fenceWord fm pred succ xs1 xd).extractLsb' 24 4 = pred := by
  apply BitVec.eq_of_getLsbD_eq
  intro i hi
  simp only [fenceWord, BitVec.getLsbD_extractLsb', BitVec.getLsbD_append]
  interval_cases i <;> simp

@[simp] theorem succ_fenceWord (fm pred succ : BitVec 4) (xs1 xd : Reg) :
    (fenceWord fm pred succ xs1 xd).extractLsb' 20 4 = succ := by
  apply BitVec.eq_of_getLsbD_eq
  intro i hi
  simp only [fenceWord, BitVec.getLsbD_extractLsb', BitVec.getLsbD_append]
  interval_cases i <;> simp

@[simp] theorem cOpOf_ciHalf (f3 : BitVec 3) (imm : BitVec 6) (rd : Reg) (op : BitVec 2) :
    cOpOf (ciHalf f3 imm rd op) = op := by
  apply BitVec.eq_of_getLsbD_eq
  intro i hi
  simp only [cOpOf, ciHalf, BitVec.getLsbD_extractLsb', BitVec.getLsbD_append]
  interval_cases i <;> simp

@[simp] theorem cFunct3Of_ciHalf (f3 : BitVec 3) (imm : BitVec 6) (rd : Reg) (op : BitVec 2) :
    cFunct3Of (ciHalf f3 imm rd op) = f3 := by
  apply BitVec.eq_of_getLsbD_eq
  intro i hi
  simp only [cFunct3Of, ciHalf, BitVec.getLsbD_extractLsb', BitVec.getLsbD_append]
  interval_cases i <;> simp

@[simp] theorem cRdOf_ciHalf (f3 : BitVec 3) (imm : BitVec 6) (rd : Reg) (op : BitVec 2) :
    cRdOf (ciHalf f3 imm rd op) = rd := by
  apply BitVec.eq_of_getLsbD_eq
  intro i hi
  simp only [cRdOf, ciHalf, BitVec.getLsbD_extractLsb', BitVec.getLsbD_append]
  interval_cases i <;> simp

@[simp] theorem cImm6Of_ciHalf (f3 : BitVec 3) (imm : BitVec 6) (rd : Reg) (op : BitVec 2) :
    cImm6Of (ciHalf f3 imm rd op) = imm := by
  apply BitVec.eq_of_getLsbD_eq
  intro i hi
  simp only [cImm6Of, ciHalf, BitVec.getLsbD_extractLsb', BitVec.getLsbD_append]
  interval_cases i <;> simp

@[simp] theorem cOpOf_caHalf (f6 : BitVec 6) (rd : CReg) (f2 : BitVec 2) (rs2 : CReg) :
    cOpOf (caHalf f6 rd f2 rs2) = 1 := by
  apply BitVec.eq_of_getLsbD_eq
  intro i hi
  simp only [cOpOf, caHalf, BitVec.getLsbD_extractLsb', BitVec.getLsbD_append]
  interval_cases i <;> simp

@[simp] theorem cFunct3Of_caHalf (f6 : BitVec 6) (rd : CReg) (f2 : BitVec 2) (rs2 : CReg) :
    cFunct3Of (caHalf f6 rd f2 rs2) = f6.extractLsb' 3 3 := by
  apply BitVec.eq_of_getLsbD_eq
  intro i hi
  simp only [cFunct3Of, caHalf, BitVec.getLsbD_extractLsb', BitVec.getLsbD_append]
  interval_cases i <;> simp

@[simp] theorem cBit12Of_caHalf (f6 : BitVec 6) (rd : CReg) (f2 : BitVec 2) (rs2 : CReg) :
    cBit12Of (caHalf f6 rd f2 rs2) = f6.extractLsb' 2 1 := by
  apply BitVec.eq_of_getLsbD_eq
  intro i hi
  simp only [cBit12Of, caHalf, BitVec.getLsbD_extractLsb', BitVec.getLsbD_append]
  interval_cases i
  simp

@[simp] theorem mid_caHalf (f6 : BitVec 6) (rd : CReg) (f2 : BitVec 2) (rs2 : CReg) :
    (caHalf f6 rd f2 rs2).extractLsb' 10 2 = f6.extractLsb' 0 2 := by
  apply BitVec.eq_of_getLsbD_eq
  intro i hi
  simp only [caHalf, BitVec.getLsbD_extractLsb', BitVec.getLsbD_append]
  interval_cases i <;> simp

@[simp] theorem funct2_caHalf (f6 : BitVec 6) (rd : CReg) (f2 : BitVec 2) (rs2 : CReg) :
    (caHalf f6 rd f2 rs2).extractLsb' 5 2 = f2 := by
  apply BitVec.eq_of_getLsbD_eq
  intro i hi
  simp only [caHalf, BitVec.getLsbD_extractLsb', BitVec.getLsbD_append]
  interval_cases i <;> simp

@[simp] theorem cRdPOf_caHalf (f6 : BitVec 6) (rd : CReg) (f2 : BitVec 2) (rs2 : CReg) :
    cRdPOf (caHalf f6 rd f2 rs2) = rd := by
  apply BitVec.eq_of_getLsbD_eq
  intro i hi
  simp only [cRdPOf, caHalf, BitVec.getLsbD_extractLsb', BitVec.getLsbD_append]
  interval_cases i <;> simp

@[simp] theorem cRs2POf_caHalf (f6 : BitVec 6) (rd : CReg) (f2 : BitVec 2) (rs2 : CReg) :
    cRs2POf (caHalf f6 rd f2 rs2) = rs2 := by
  apply BitVec.eq_of_getLsbD_eq
  intro i hi
  simp only [cRs2POf, caHalf, BitVec.getLsbD_extractLsb', BitVec.getLsbD_append]
  interval_cases i <;> simp

@[simp] theorem cOpOf_cbArithHalf (f2 : BitVec 2) (imm : BitVec 6) (rd : CReg) :
    cOpOf (cbArithHalf f2 imm rd) = 1 := by
  apply BitVec.eq_of_getLsbD_eq
  intro i hi
  simp only [cOpOf, cbArithHalf, BitVec.getLsbD_extractLsb', BitVec.getLsbD_append]
  interval_cases i <;> simp

@[simp] theorem cFunct3Of_cbArithHalf (f2 : BitVec 2) (imm : BitVec 6) (rd : CReg) :
    cFunct3Of (cbArithHalf f2 imm rd) = 4 := by
  apply BitVec.eq_of_getLsbD_eq
  intro i hi
  simp only [cFunct3Of, cbArithHalf, BitVec.getLsbD_extractLsb', BitVec.getLsbD_append]
  interval_cases i <;> simp

@[simp] theorem mid_cbArithHalf (f2 : BitVec 2) (imm : BitVec 6) (rd : CReg) :
    (cbArithHalf f2 imm rd).extractLsb' 10 2 = f2 := by
  apply BitVec.eq_of_getLsbD_eq
  intro i hi
  simp only [cbArithHalf, BitVec.getLsbD_extractLsb', BitVec.getLsbD_append]
  interval_cases i <;> simp

@[simp] theorem cRdPOf_cbArithHalf (f2 : BitVec 2) (imm : BitVec 6) (rd : CReg) :
    cRdPOf (cbArithHalf f2 imm rd) = rd := by
  apply BitVec.eq_of_getLsbD_eq
  intro i hi
  simp only [cRdPOf, cbArithHalf, BitVec.getLsbD_extractLsb', BitVec.getLsbD_append]
  interval_cases i <;> simp

@[simp] theorem cImm6Of_cbArithHalf (f2 : BitVec 2) (imm : BitVec 6) (rd : CReg) :
    cImm6Of (cbArithHalf f2 imm rd) = imm := by
  apply BitVec.eq_of_getLsbD_eq
  intro i hi
  simp only [cImm6Of, cbArithHalf, BitVec.getLsbD_extractLsb', BitVec.getLsbD_append]
  interval_cases i <;> simp

@[simp] theorem cOpOf_cbBranchHalf (f3 : BitVec 3) (rs1 : CReg) (imm : BitVec 8) :
    cOpOf (cbBranchHalf f3 rs1 imm) = 1 := by
  apply BitVec.eq_of_getLsbD_eq
  intro i hi
  simp only [cOpOf, cbBranchHalf, BitVec.getLsbD_extractLsb', BitVec.getLsbD_append]
  interval_cases i <;> simp

@[simp] theorem cFunct3Of_cbBranchHalf (f3 : BitVec 3) (rs1 : CReg) (imm : BitVec 8) :
    cFunct3Of (cbBranchHalf f3 rs1 imm) = f3 := by
  apply BitVec.eq_of_getLsbD_eq
  intro i hi
  simp only [cFunct3Of, cbBranchHalf, BitVec.getLsbD_extractLsb', BitVec.getLsbD_append]
  interval_cases i <;> simp

@[simp] theorem cRdPOf_cbBranchHalf (f3 : BitVec 3) (rs1 : CReg) (imm : BitVec 8) :
    cRdPOf (cbBranchHalf f3 rs1 imm) = rs1 := by
  apply BitVec.eq_of_getLsbD_eq
  intro i hi
  simp only [cRdPOf, cbBranchHalf, BitVec.getLsbD_extractLsb', BitVec.getLsbD_append]
  interval_cases i <;> simp

@[simp] theorem cBImmOf_cbBranchHalf (f3 : BitVec 3) (rs1 : CReg) (imm : BitVec 8) :
    cBImmOf (cbBranchHalf f3 rs1 imm) = imm := by
  apply BitVec.eq_of_getLsbD_eq
  intro i hi
  simp only [cBImmOf, cbBranchHalf, BitVec.getLsbD_extractLsb', BitVec.getLsbD_append]
  interval_cases i <;> simp

@[simp] theorem cOpOf_clwHalf (f3 : BitVec 3) (rs1 r : CReg) (imm : BitVec 5) :
    cOpOf (clwHalf f3 rs1 r imm) = 0 := by
  apply BitVec.eq_of_getLsbD_eq
  intro i hi
  simp only [cOpOf, clwHalf, BitVec.getLsbD_extractLsb', BitVec.getLsbD_append]
  interval_cases i <;> simp

@[simp] theorem cFunct3Of_clwHalf (f3 : BitVec 3) (rs1 r : CReg) (imm : BitVec 5) :
    cFunct3Of (clwHalf f3 rs1 r imm) = f3 := by
  apply BitVec.eq_of_getLsbD_eq
  intro i hi
  simp only [cFunct3Of, clwHalf, BitVec.getLsbD_extractLsb', BitVec.getLsbD_append]
  interval_cases i <;> simp

@[simp] theorem cRdPOf_clwHalf (f3 : BitVec 3) (rs1 r : CReg) (imm : BitVec 5) :
    cRdPOf (clwHalf f3 rs1 r imm) = rs1 := by
  apply BitVec.eq_of_getLsbD_eq
  intro i hi
  simp only [cRdPOf, clwHalf, BitVec.getLsbD_extractLsb', BitVec.getLsbD_append]
  interval_cases i <;> simp

@[simp] theorem cRs2POf_clwHalf (f3 : BitVec 3) (rs1 r : CReg) (imm : BitVec 5) :
    cRs2POf (clwHalf f3 rs1 r imm) = r := by
  apply BitVec.eq_of_getLsbD_eq
  intro i hi
  simp only [cRs2POf, clwHalf, BitVec.getLsbD_extractLsb', BitVec.getLsbD_append]
  interval_cases i <;> simp

@[simp] theorem cLwImmOf_clwHalf (f3 : BitVec 3) (rs1 r : CReg) (imm : BitVec 5) :
    cLwImmOf (clwHalf f3 rs1 r imm) = imm := by
  apply BitVec.eq_of_getLsbD_eq
  intro i hi
  simp only [cLwImmOf, clwHalf, BitVec.getLsbD_extractLsb', BitVec.getLsbD_append]
  interval_cases i <;> simp

@[simp] theorem cOpOf_cldHalf (f3 : BitVec 3) (rs1 r : CReg) (imm : BitVec 5) :
    cOpOf (cldHalf f3 rs1 r imm) = 0 := by
  apply BitVec.eq_of_getLsbD_eq
  intro i hi
  simp only [cOpOf, cldHalf, BitVec.getLsbD_extractLsb', BitVec.getLsbD_append]
  interval_cases i <;> simp

@[simp] theorem cFunct3Of_cldHalf (f3 : BitVec 3) (rs1 r : CReg) (imm : BitVec 5) :
    cFunct3Of (cldHalf f3 rs1 r imm) = f3 := by
  apply BitVec.eq_of_getLsbD_eq
  intro i hi
  simp only [cFunct3Of, cldHalf, BitVec.getLsbD_extractLsb', BitVec.getLsbD_append]
  interval_cases i <;> simp

@[simp] theorem cRdPOf_cldHalf (f3 : BitVec 3) (rs1 r : CReg) (imm : BitVec 5) :
    cRdPOf (cldHalf f3 rs1 r imm) = rs1 := by
  apply BitVec.eq_of_getLsbD_eq
  intro i hi
  simp only [cRdPOf, cldHalf, BitVec.getLsbD_extractLsb', BitVec.getLsbD_append]
  interval_cases i <;> simp

@[simp] theorem cRs2POf_cldHalf (f3 : BitVec 3) (rs1 r : CReg) (imm : BitVec 5) :
    cRs2POf (cldHalf f3 rs1 r imm) = r := by
  apply BitVec.eq_of_getLsbD_eq
  intro i hi
  simp only [cRs2POf, cldHalf, BitVec.getLsbD_extractLsb', BitVec.getLsbD_append]
  interval_cases i <;> simp

@[simp] theorem cLdImmOf_cldHalf (f3 : BitVec 3) (rs1 r : CReg) (imm : BitVec 5) :
    cLdImmOf (cldHalf f3 rs1 r imm) = imm := by
  apply BitVec.eq_of_getLsbD_eq
  intro i hi
  simp only [cLdImmOf, cldHalf, BitVec.getLsbD_extractLsb', BitVec.getLsbD_append]
  interval_cases i <;> simp

@[simp] theorem cOpOf_cAddi4spnHalf (rd : CReg) (imm : BitVec 8) :
    cOpOf (cAddi4spnHalf rd imm) = 0 := by
  apply BitVec.eq_of_getLsbD_eq
  intro i hi
  simp only [cOpOf, cAddi4spnHalf, BitVec.getLsbD_extractLsb', BitVec.getLsbD_append]
  interval_cases i <;> simp

@[simp] theorem cFunct3Of_cAddi4spnHalf (rd : CReg) (imm : BitVec 8) :
    cFunct3Of (cAddi4spnHalf rd imm) = 0 := by
  apply BitVec.eq_of_getLsbD_eq
  intro i hi
  simp only [cFunct3Of, cAddi4spnHalf, BitVec.getLsbD_extractLsb', BitVec.getLsbD_append]
  interval_cases i <;> simp

@[simp] theorem cRs2POf_cAddi4spnHalf (rd : CReg) (imm : BitVec 8) :
    cRs2POf (cAddi4spnHalf rd imm) = rd := by
  apply BitVec.eq_of_getLsbD_eq
  intro i hi
  simp only [cRs2POf, cAddi4spnHalf, BitVec.getLsbD_extractLsb', BitVec.getLsbD_append]
  interval_cases i <;> simp

@[simp] theorem cAddi4spnImmOf_cAddi4spnHalf (rd : CReg) (imm : BitVec 8) :
    cAddi4spnImmOf (cAddi4spnHalf rd imm) = imm := by
  apply BitVec.eq_of_getLsbD_eq
  intro i hi
  simp only [cAddi4spnImmOf, cAddi4spnHalf, BitVec.getLsbD_extractLsb', BitVec.getLsbD_append]
  interval_cases i <;> simp

@[simp] theorem cOpOf_cAddi16spHalf (imm : BitVec 6) :
    cOpOf (cAddi16spHalf imm) = 1 := by
  apply BitVec.eq_of_getLsbD_eq
  intro i hi
  simp only [cOpOf, cAddi16spHalf, BitVec.getLsbD_extractLsb', BitVec.getLsbD_append]
  interval_cases i <;> simp

@[simp] theorem cFunct3Of_cAddi16spHalf (imm : BitVec 6) :
    cFunct3Of (cAddi16spHalf imm) = 3 := by
  apply BitVec.eq_of_getLsbD_eq
  intro i hi
  simp only [cFunct3Of, cAddi16spHalf, BitVec.getLsbD_extractLsb', BitVec.getLsbD_append]
  interval_cases i <;> simp

@[simp] theorem cRdOf_cAddi16spHalf (imm : BitVec 6) :
    cRdOf (cAddi16spHalf imm) = 2 := by
  apply BitVec.eq_of_getLsbD_eq
  intro i hi
  simp only [cRdOf, cAddi16spHalf, BitVec.getLsbD_extractLsb', BitVec.getLsbD_append]
  interval_cases i <;> simp

@[simp] theorem cAddi16spImmOf_cAddi16spHalf (imm : BitVec 6) :
    cAddi16spImmOf (cAddi16spHalf imm) = imm := by
  apply BitVec.eq_of_getLsbD_eq
  intro i hi
  simp only [cAddi16spImmOf, cAddi16spHalf, BitVec.getLsbD_extractLsb', BitVec.getLsbD_append]
  interval_cases i <;> simp

@[simp] theorem cOpOf_cJHalf (imm : BitVec 11) :
    cOpOf (cJHalf imm) = 1 := by
  apply BitVec.eq_of_getLsbD_eq
  intro i hi
  simp only [cOpOf, cJHalf, BitVec.getLsbD_extractLsb', BitVec.getLsbD_append]
  interval_cases i <;> simp

@[simp] theorem cFunct3Of_cJHalf (imm : BitVec 11) :
    cFunct3Of (cJHalf imm) = 5 := by
  apply BitVec.eq_of_getLsbD_eq
  intro i hi
  simp only [cFunct3Of, cJHalf, BitVec.getLsbD_extractLsb', BitVec.getLsbD_append]
  interval_cases i <;> simp

@[simp] theorem cJImmOf_cJHalf (imm : BitVec 11) :
    cJImmOf (cJHalf imm) = imm := by
  apply BitVec.eq_of_getLsbD_eq
  intro i hi
  simp only [cJImmOf, cJHalf, BitVec.getLsbD_extractLsb', BitVec.getLsbD_append]
  interval_cases i <;> simp

@[simp] theorem cOpOf_cLwspHalf (rd : Reg) (imm : BitVec 6) :
    cOpOf (cLwspHalf rd imm) = 2 := by
  apply BitVec.eq_of_getLsbD_eq
  intro i hi
  simp only [cOpOf, cLwspHalf, BitVec.getLsbD_extractLsb', BitVec.getLsbD_append]
  interval_cases i <;> simp

@[simp] theorem cFunct3Of_cLwspHalf (rd : Reg) (imm : BitVec 6) :
    cFunct3Of (cLwspHalf rd imm) = 2 := by
  apply BitVec.eq_of_getLsbD_eq
  intro i hi
  simp only [cFunct3Of, cLwspHalf, BitVec.getLsbD_extractLsb', BitVec.getLsbD_append]
  interval_cases i <;> simp

@[simp] theorem cRdOf_cLwspHalf (rd : Reg) (imm : BitVec 6) :
    cRdOf (cLwspHalf rd imm) = rd := by
  apply BitVec.eq_of_getLsbD_eq
  intro i hi
  simp only [cRdOf, cLwspHalf, BitVec.getLsbD_extractLsb', BitVec.getLsbD_append]
  interval_cases i <;> simp

@[simp] theorem cLwspImmOf_cLwspHalf (rd : Reg) (imm : BitVec 6) :
    cLwspImmOf (cLwspHalf rd imm) = imm := by
  apply BitVec.eq_of_getLsbD_eq
  intro i hi
  simp only [cLwspImmOf, cLwspHalf, BitVec.getLsbD_extractLsb', BitVec.getLsbD_append]
  interval_cases i <;> simp

@[simp] theorem cOpOf_cLdspHalf (rd : Reg) (imm : BitVec 6) :
    cOpOf (cLdspHalf rd imm) = 2 := by
  apply BitVec.eq_of_getLsbD_eq
  intro i hi
  simp only [cOpOf, cLdspHalf, BitVec.getLsbD_extractLsb', BitVec.getLsbD_append]
  interval_cases i <;> simp

@[simp] theorem cFunct3Of_cLdspHalf (rd : Reg) (imm : BitVec 6) :
    cFunct3Of (cLdspHalf rd imm) = 3 := by
  apply BitVec.eq_of_getLsbD_eq
  intro i hi
  simp only [cFunct3Of, cLdspHalf, BitVec.getLsbD_extractLsb', BitVec.getLsbD_append]
  interval_cases i <;> simp

@[simp] theorem cRdOf_cLdspHalf (rd : Reg) (imm : BitVec 6) :
    cRdOf (cLdspHalf rd imm) = rd := by
  apply BitVec.eq_of_getLsbD_eq
  intro i hi
  simp only [cRdOf, cLdspHalf, BitVec.getLsbD_extractLsb', BitVec.getLsbD_append]
  interval_cases i <;> simp

@[simp] theorem cLdspImmOf_cLdspHalf (rd : Reg) (imm : BitVec 6) :
    cLdspImmOf (cLdspHalf rd imm) = imm := by
  apply BitVec.eq_of_getLsbD_eq
  intro i hi
  simp only [cLdspImmOf, cLdspHalf, BitVec.getLsbD_extractLsb', BitVec.getLsbD_append]
  interval_cases i <;> simp

@[simp] theorem cOpOf_cSwspHalf (rs2 : Reg) (imm : BitVec 6) :
    cOpOf (cSwspHalf rs2 imm) = 2 := by
  apply BitVec.eq_of_getLsbD_eq
  intro i hi
  simp only [cOpOf, cSwspHalf, BitVec.getLsbD_extractLsb', BitVec.getLsbD_append]
  interval_cases i <;> simp

@[simp] theorem cFunct3Of_cSwspHalf (rs2 : Reg) (imm : BitVec 6) :
    cFunct3Of (cSwspHalf rs2 imm) = 6 := by
  apply BitVec.eq_of_getLsbD_eq
  intro i hi
  simp only [cFunct3Of, cSwspHalf, BitVec.getLsbD_extractLsb', BitVec.getLsbD_append]
  interval_cases i <;> simp

@[simp] theorem cRs2Of_cSwspHalf (rs2 : Reg) (imm : BitVec 6) :
    cRs2Of (cSwspHalf rs2 imm) = rs2 := by
  apply BitVec.eq_of_getLsbD_eq
  intro i hi
  simp only [cRs2Of, cSwspHalf, BitVec.getLsbD_extractLsb', BitVec.getLsbD_append]
  interval_cases i <;> simp

@[simp] theorem cSwspImmOf_cSwspHalf (rs2 : Reg) (imm : BitVec 6) :
    cSwspImmOf (cSwspHalf rs2 imm) = imm := by
  apply BitVec.eq_of_getLsbD_eq
  intro i hi
  simp only [cSwspImmOf, cSwspHalf, BitVec.getLsbD_extractLsb', BitVec.getLsbD_append]
  interval_cases i <;> simp

@[simp] theorem cOpOf_cSdspHalf (rs2 : Reg) (imm : BitVec 6) :
    cOpOf (cSdspHalf rs2 imm) = 2 := by
  apply BitVec.eq_of_getLsbD_eq
  intro i hi
  simp only [cOpOf, cSdspHalf, BitVec.getLsbD_extractLsb', BitVec.getLsbD_append]
  interval_cases i <;> simp

@[simp] theorem cFunct3Of_cSdspHalf (rs2 : Reg) (imm : BitVec 6) :
    cFunct3Of (cSdspHalf rs2 imm) = 7 := by
  apply BitVec.eq_of_getLsbD_eq
  intro i hi
  simp only [cFunct3Of, cSdspHalf, BitVec.getLsbD_extractLsb', BitVec.getLsbD_append]
  interval_cases i <;> simp

@[simp] theorem cRs2Of_cSdspHalf (rs2 : Reg) (imm : BitVec 6) :
    cRs2Of (cSdspHalf rs2 imm) = rs2 := by
  apply BitVec.eq_of_getLsbD_eq
  intro i hi
  simp only [cRs2Of, cSdspHalf, BitVec.getLsbD_extractLsb', BitVec.getLsbD_append]
  interval_cases i <;> simp

@[simp] theorem cSdspImmOf_cSdspHalf (rs2 : Reg) (imm : BitVec 6) :
    cSdspImmOf (cSdspHalf rs2 imm) = imm := by
  apply BitVec.eq_of_getLsbD_eq
  intro i hi
  simp only [cSdspImmOf, cSdspHalf, BitVec.getLsbD_extractLsb', BitVec.getLsbD_append]
  interval_cases i <;> simp

@[simp] theorem cOpOf_crHalf (f4 : BitVec 4) (rd rs2 : Reg) (op : BitVec 2) :
    cOpOf (crHalf f4 rd rs2 op) = op := by
  apply BitVec.eq_of_getLsbD_eq
  intro i hi
  simp only [cOpOf, crHalf, BitVec.getLsbD_extractLsb', BitVec.getLsbD_append]
  interval_cases i <;> simp

@[simp] theorem cFunct3Of_crHalf (f4 : BitVec 4) (rd rs2 : Reg) (op : BitVec 2) :
    cFunct3Of (crHalf f4 rd rs2 op) = f4.extractLsb' 1 3 := by
  apply BitVec.eq_of_getLsbD_eq
  intro i hi
  simp only [cFunct3Of, crHalf, BitVec.getLsbD_extractLsb', BitVec.getLsbD_append]
  interval_cases i <;> simp

@[simp] theorem cBit12Of_crHalf (f4 : BitVec 4) (rd rs2 : Reg) (op : BitVec 2) :
    cBit12Of (crHalf f4 rd rs2 op) = f4.extractLsb' 0 1 := by
  apply BitVec.eq_of_getLsbD_eq
  intro i hi
  simp only [cBit12Of, crHalf, BitVec.getLsbD_extractLsb', BitVec.getLsbD_append]
  interval_cases i
  simp

@[simp] theorem cRdOf_crHalf (f4 : BitVec 4) (rd rs2 : Reg) (op : BitVec 2) :
    cRdOf (crHalf f4 rd rs2 op) = rd := by
  apply BitVec.eq_of_getLsbD_eq
  intro i hi
  simp only [cRdOf, crHalf, BitVec.getLsbD_extractLsb', BitVec.getLsbD_append]
  interval_cases i <;> simp

@[simp] theorem cRs2Of_crHalf (f4 : BitVec 4) (rd rs2 : Reg) (op : BitVec 2) :
    cRs2Of (crHalf f4 rd rs2 op) = rs2 := by
  apply BitVec.eq_of_getLsbD_eq
  intro i hi
  simp only [cRs2Of, crHalf, BitVec.getLsbD_extractLsb', BitVec.getLsbD_append]
  interval_cases i <;> simp

theorem eq_rWord (w : BitVec 32) :
    w = rWord (funct7Of w) (xs2Of w) (xs1Of w) (funct3Of w) (xdOf w) (opcodeOf w) := by
  apply BitVec.eq_of_getLsbD_eq
  intro i hi
  simp only [rWord, funct7Of, xs2Of, xs1Of, funct3Of, xdOf, opcodeOf, BitVec.getLsbD_extractLsb', BitVec.getLsbD_append]
  interval_cases i <;> simp

theorem eq_iWord (w : BitVec 32) :
    w = iWord (iImmOf w) (xs1Of w) (funct3Of w) (xdOf w) (opcodeOf w) := by
  apply BitVec.eq_of_getLsbD_eq
  intro i hi
  simp only [iWord, iImmOf, xs1Of, funct3Of, xdOf, opcodeOf, BitVec.getLsbD_extractLsb', BitVec.getLsbD_append]
  interval_cases i <;> simp

theorem eq_shiftWord (w : BitVec 32) :
    w = shiftWord (funct6Of w) (shamt6Of w) (xs1Of w) (funct3Of w) (xdOf w) (opcodeOf w) := by
  apply BitVec.eq_of_getLsbD_eq
  intro i hi
  simp only [shiftWord, funct6Of, shamt6Of, xs1Of, funct3Of, xdOf, opcodeOf, BitVec.getLsbD_extractLsb', BitVec.getLsbD_append]
  interval_cases i <;> simp

theorem eq_sWord (w : BitVec 32) :
    w = sWord (sImmOf w) (xs2Of w) (xs1Of w) (funct3Of w) (opcodeOf w) := by
  apply BitVec.eq_of_getLsbD_eq
  intro i hi
  simp only [sWord, sImmOf, xs2Of, xs1Of, funct3Of, opcodeOf, BitVec.getLsbD_extractLsb', BitVec.getLsbD_append]
  interval_cases i <;> simp

theorem eq_bWord (w : BitVec 32) :
    w = bWord (bImmOf w) (xs2Of w) (xs1Of w) (funct3Of w) (opcodeOf w) := by
  apply BitVec.eq_of_getLsbD_eq
  intro i hi
  simp only [bWord, bImmOf, xs2Of, xs1Of, funct3Of, opcodeOf, BitVec.getLsbD_extractLsb', BitVec.getLsbD_append]
  interval_cases i <;> simp

theorem eq_uWord (w : BitVec 32) :
    w = uWord (uImmOf w) (xdOf w) (opcodeOf w) := by
  apply BitVec.eq_of_getLsbD_eq
  intro i hi
  simp only [uWord, uImmOf, xdOf, opcodeOf, BitVec.getLsbD_extractLsb', BitVec.getLsbD_append]
  interval_cases i <;> simp

theorem eq_jWord (w : BitVec 32) :
    w = jWord (jImmOf w) (xdOf w) (opcodeOf w) := by
  apply BitVec.eq_of_getLsbD_eq
  intro i hi
  simp only [jWord, jImmOf, xdOf, opcodeOf, BitVec.getLsbD_extractLsb', BitVec.getLsbD_append]
  interval_cases i <;> simp

/-- The six-bit field that `c.lui` and `c.addi16sp` share is zero exactly when the immediate is (R609). -/
theorem cImm6Of_cAddi16spHalf_eq_zero (imm : BitVec 6) : cImm6Of (cAddi16spHalf imm) = 0 ↔ imm = 0 := by
  revert imm
  decide

/-! ## Bytes and decoding -/

/-- The length rule in numbers (R252). -/
theorem isWordHalf_iff (h : BitVec 16) : isWordHalf h = true ↔ h.toNat % 4 = 3 := by
  simp [isWordHalf, cOpOf, ← BitVec.toNat_inj, BitVec.extractLsb'_toNat]

/-- The bytes of a halfword that begins no 32-bit instruction are read back as the halfword. -/
theorem rawOfBytes_half {h : BitVec 16} (l : isWordHalf h = false) (rest : List Byte) :
    rawOfBytes ((Raw.half h).bytes ++ rest) = .ok (.half h, rest) := by
  have e : halfOfBytes (h.extractLsb' 0 8) (h.extractLsb' 8 8) = h := by
    apply BitVec.eq_of_getLsbD_eq
    intro i hi
    simp only [halfOfBytes, BitVec.getLsbD_append, BitVec.getLsbD_extractLsb']
    interval_cases i <;> simp
  simp [Raw.bytes, rawOfBytes, e, l]

/-- The bytes of a word whose first halfword announces 32 bits are read back as the word. -/
theorem rawOfBytes_word {w : BitVec 32} (l : isWordHalf (w.extractLsb' 0 16) = true) (rest : List Byte) :
    rawOfBytes ((Raw.word w).bytes ++ rest) = .ok (.word w, rest) := by
  have lo : halfOfBytes (w.extractLsb' 0 8) (w.extractLsb' 8 8) = w.extractLsb' 0 16 := by
    apply BitVec.eq_of_getLsbD_eq
    intro i hi
    simp only [halfOfBytes, BitVec.getLsbD_append, BitVec.getLsbD_extractLsb']
    interval_cases i <;> simp
  have hi : halfOfBytes (w.extractLsb' 16 8) (w.extractLsb' 24 8) = w.extractLsb' 16 16 := by
    apply BitVec.eq_of_getLsbD_eq
    intro i hi
    simp only [halfOfBytes, BitVec.getLsbD_append, BitVec.getLsbD_extractLsb']
    interval_cases i <;> simp
  have all : wordOfHalves (w.extractLsb' 0 16) (w.extractLsb' 16 16) = w := by
    apply BitVec.eq_of_getLsbD_eq
    intro i hi
    simp only [wordOfHalves, BitVec.getLsbD_append, BitVec.getLsbD_extractLsb']
    interval_cases i <;> simp
  simp [Raw.bytes, rawOfBytes, lo, hi, all, l]

/-- What decoding answers: the instruction the bits name, where it is enabled. -/
theorem decode_eq_ok_iff {c : Config} {r : Raw} {i : Instr} :
    decode c r = .ok i ↔ decodeRow c.cDecode r = some i ∧ i.enabled c = true := by
  unfold decode
  split
  next j e =>
    rw [e]
    by_cases hj : j.enabled c = true
    · simp only [hj, if_true, Except.ok.injEq, Option.some.injEq]
      exact ⟨fun a => ⟨a, a ▸ hj⟩, And.left⟩
    · simp only [hj, if_false, reduceCtorEq, Option.some.injEq, false_iff, not_and]
      exact fun a => a ▸ hj
  next e => simp [e]

/-- Bits that decode to no instruction are unimplemented, and nothing else (R280). -/
theorem decode_error {c : Config} {r : Raw} {e : DecodeError} (h : decode c r = .error e) : e = .unimplemented r := by
  unfold decode at h
  split at h
  · split at h
    · cases h
    · exact (Except.error.inj h).symm
  · exact (Except.error.inj h).symm

/-- A value that the changes give a halfword stands among them. -/
theorem mem_of_changeAt {l : List (BitVec 16 × Option Instr)} {h : BitVec 16} {v : Option Instr}
    (e : changeAt l h = some v) : (h, v) ∈ l := by
  induction l with
  | nil => cases e
  | cons p l ih =>
    obtain ⟨h', v'⟩ := p
    rw [changeAt] at e
    split at e
    next same => cases e; exact same ▸ List.mem_cons_self
    · exact List.mem_cons_of_mem _ (ih e)

/-- The changes that list the values of a function at some halfwords give those values. -/
theorem changeAt_map (f : BitVec 16 → Option Instr) {l : List (BitVec 16)} {h : BitVec 16} (m : h ∈ l) :
    changeAt (l.map fun x => (x, f x)) h = some (f h) := by
  induction l with
  | nil => cases m
  | cons a l ih =>
    rw [List.map_cons, changeAt]
    split
    next same => rw [same]
    next other => exact ih ((List.mem_cons.mp m).resolve_left fun same => other same.symm)

@[simp] theorem changeAt_nil (h : BitVec 16) : changeAt [] h = none := rfl

theorem CDecode.apply_of_change {d : CDecode} {h : BitVec 16} {v : Option Instr} (e : changeAt d.changes h = some v) :
    d.apply h = v := by
  rw [CDecode.apply, e]

theorem CDecode.apply_standard {d : CDecode} {h : BitVec 16} (e : changeAt d.changes h = none) (t : d.table = .standard) :
    d.apply h = decodeHalf h := by
  rw [CDecode.apply, e, t]

theorem CDecode.apply_nothing {d : CDecode} {h : BitVec 16} (e : changeAt d.changes h = none) (t : d.table = .nothing) :
    d.apply h = none := by
  rw [CDecode.apply, e, t]

/-- Bits that the tables read name the instruction the tables of R266 and R633 give. -/
theorem decodeRow_byTable {c : Config} {r : Raw} (b : r.byTable c = true) :
    decodeRow c.cDecode r = match r with
      | .half h => decodeHalf h
      | .word w => decodeWord w := by
  cases r with
  | word w => rfl
  | half h =>
    simp only [Raw.byTable, Bool.and_eq_true, beq_iff_eq] at b
    exact CDecode.apply_standard b.2 b.1

end Sys2Proof
end

