-- ==== Sys2Proof/Laws/State.lean ====
section
/-! SUPPORT. One lemma per field of State per update, true by rfl, so that no proof unfolds a record update. -/

-- One thread at a time: many small theorems at once ask for more threads than the checker's memory limit allows.
set_option Elab.async false

namespace Sys2Proof.Machine

variable (s : State)

/-! ## writeReg -/

@[simp] theorem writeReg_cfg (r : Reg) (v : Word) : (writeReg r v s).cfg = s.cfg := rfl
@[simp] theorem writeReg_regs (r : Reg) (v : Word) : (writeReg r v s).regs = setRegs r v s.regs := rfl
@[simp] theorem writeReg_pc (r : Reg) (v : Word) : (writeReg r v s).pc = s.pc := rfl
@[simp] theorem writeReg_mem (r : Reg) (v : Word) : (writeReg r v s).mem = s.mem := rfl
@[simp] theorem writeReg_mstatus (r : Reg) (v : Word) : (writeReg r v s).mstatus = s.mstatus := rfl
@[simp] theorem writeReg_mie (r : Reg) (v : Word) : (writeReg r v s).mie = s.mie := rfl
@[simp] theorem writeReg_mip (r : Reg) (v : Word) : (writeReg r v s).mip = s.mip := rfl
@[simp] theorem writeReg_mtvec (r : Reg) (v : Word) : (writeReg r v s).mtvec = s.mtvec := rfl
@[simp] theorem writeReg_mscratch (r : Reg) (v : Word) : (writeReg r v s).mscratch = s.mscratch := rfl
@[simp] theorem writeReg_mepc (r : Reg) (v : Word) : (writeReg r v s).mepc = s.mepc := rfl
@[simp] theorem writeReg_mcause (r : Reg) (v : Word) : (writeReg r v s).mcause = s.mcause := rfl
@[simp] theorem writeReg_mtval (r : Reg) (v : Word) : (writeReg r v s).mtval = s.mtval := rfl
@[simp] theorem writeReg_mcountinhibit (r : Reg) (v : Word) : (writeReg r v s).mcountinhibit = s.mcountinhibit := rfl
@[simp] theorem writeReg_mcycle (r : Reg) (v : Word) : (writeReg r v s).mcycle = s.mcycle := rfl
@[simp] theorem writeReg_minstret (r : Reg) (v : Word) : (writeReg r v s).minstret = s.minstret := rfl
@[simp] theorem writeReg_inputs (r : Reg) (v : Word) : (writeReg r v s).inputs = s.inputs := rfl
@[simp] theorem writeReg_stepNo (r : Reg) (v : Word) : (writeReg r v s).stepNo = s.stepNo := rfl
@[simp] theorem writeReg_ioLog (r : Reg) (v : Word) : (writeReg r v s).ioLog = s.ioLog := rfl

/-! ## trapEntry -/

@[simp] theorem trapEntry_cfg (e : Exc) (tval : Word) : (trapEntry e tval s).cfg = s.cfg := rfl
@[simp] theorem trapEntry_regs (e : Exc) (tval : Word) : (trapEntry e tval s).regs = s.regs := rfl
@[simp] theorem trapEntry_pc (e : Exc) (tval : Word) : (trapEntry e tval s).pc = s.mtvec.target := rfl
@[simp] theorem trapEntry_mem (e : Exc) (tval : Word) : (trapEntry e tval s).mem = s.mem := rfl
@[simp] theorem trapEntry_mstatus (e : Exc) (tval : Word) : (trapEntry e tval s).mstatus = { s.mstatus with mpie := s.mstatus.mie, mie := false } := rfl
@[simp] theorem trapEntry_mie (e : Exc) (tval : Word) : (trapEntry e tval s).mie = s.mie := rfl
@[simp] theorem trapEntry_mip (e : Exc) (tval : Word) : (trapEntry e tval s).mip = s.mip := rfl
@[simp] theorem trapEntry_mtvec (e : Exc) (tval : Word) : (trapEntry e tval s).mtvec = s.mtvec := rfl
@[simp] theorem trapEntry_mscratch (e : Exc) (tval : Word) : (trapEntry e tval s).mscratch = s.mscratch := rfl
@[simp] theorem trapEntry_mepc (e : Exc) (tval : Word) : (trapEntry e tval s).mepc = s.pc := rfl
@[simp] theorem trapEntry_mcause (e : Exc) (tval : Word) : (trapEntry e tval s).mcause = { int := false, code := e.code } := rfl
@[simp] theorem trapEntry_mtval (e : Exc) (tval : Word) : (trapEntry e tval s).mtval = if mtvalReadonly s.cfg then s.mtval else mtvalClip s.cfg (mtvalFor s.cfg e tval) := rfl
@[simp] theorem trapEntry_mcountinhibit (e : Exc) (tval : Word) : (trapEntry e tval s).mcountinhibit = s.mcountinhibit := rfl
@[simp] theorem trapEntry_mcycle (e : Exc) (tval : Word) : (trapEntry e tval s).mcycle = s.mcycle := rfl
@[simp] theorem trapEntry_minstret (e : Exc) (tval : Word) : (trapEntry e tval s).minstret = s.minstret := rfl
@[simp] theorem trapEntry_inputs (e : Exc) (tval : Word) : (trapEntry e tval s).inputs = s.inputs := rfl
@[simp] theorem trapEntry_stepNo (e : Exc) (tval : Word) : (trapEntry e tval s).stepNo = s.stepNo := rfl
@[simp] theorem trapEntry_ioLog (e : Exc) (tval : Word) : (trapEntry e tval s).ioLog = s.ioLog := rfl

/-! ## trapReturn -/

@[simp] theorem trapReturn_cfg : (trapReturn s).cfg = s.cfg := rfl
@[simp] theorem trapReturn_regs : (trapReturn s).regs = s.regs := rfl
@[simp] theorem trapReturn_pc : (trapReturn s).pc = s.mepc := rfl
@[simp] theorem trapReturn_mem : (trapReturn s).mem = s.mem := rfl
@[simp] theorem trapReturn_mstatus : (trapReturn s).mstatus = { s.mstatus with mie := s.mstatus.mpie, mpie := true } := rfl
@[simp] theorem trapReturn_mie : (trapReturn s).mie = s.mie := rfl
@[simp] theorem trapReturn_mip : (trapReturn s).mip = s.mip := rfl
@[simp] theorem trapReturn_mtvec : (trapReturn s).mtvec = s.mtvec := rfl
@[simp] theorem trapReturn_mscratch : (trapReturn s).mscratch = s.mscratch := rfl
@[simp] theorem trapReturn_mepc : (trapReturn s).mepc = s.mepc := rfl
@[simp] theorem trapReturn_mcause : (trapReturn s).mcause = s.mcause := rfl
@[simp] theorem trapReturn_mtval : (trapReturn s).mtval = s.mtval := rfl
@[simp] theorem trapReturn_mcountinhibit : (trapReturn s).mcountinhibit = s.mcountinhibit := rfl
@[simp] theorem trapReturn_mcycle : (trapReturn s).mcycle = s.mcycle := rfl
@[simp] theorem trapReturn_minstret : (trapReturn s).minstret = s.minstret := rfl
@[simp] theorem trapReturn_inputs : (trapReturn s).inputs = s.inputs := rfl
@[simp] theorem trapReturn_stepNo : (trapReturn s).stepNo = s.stepNo := rfl
@[simp] theorem trapReturn_ioLog : (trapReturn s).ioLog = s.ioLog := rfl

/-! ## takeInterrupt -/

@[simp] theorem takeInterrupt_cfg (c : BitVec 63) : (takeInterrupt c s).cfg = s.cfg := rfl
@[simp] theorem takeInterrupt_regs (c : BitVec 63) : (takeInterrupt c s).regs = s.regs := rfl
@[simp] theorem takeInterrupt_pc (c : BitVec 63) : (takeInterrupt c s).pc = s.mtvec.vector c := rfl
@[simp] theorem takeInterrupt_mem (c : BitVec 63) : (takeInterrupt c s).mem = s.mem := rfl
@[simp] theorem takeInterrupt_mstatus (c : BitVec 63) : (takeInterrupt c s).mstatus = { s.mstatus with mpie := s.mstatus.mie, mie := false } := rfl
@[simp] theorem takeInterrupt_mie (c : BitVec 63) : (takeInterrupt c s).mie = s.mie := rfl
@[simp] theorem takeInterrupt_mip (c : BitVec 63) : (takeInterrupt c s).mip = s.mip := rfl
@[simp] theorem takeInterrupt_mtvec (c : BitVec 63) : (takeInterrupt c s).mtvec = s.mtvec := rfl
@[simp] theorem takeInterrupt_mscratch (c : BitVec 63) : (takeInterrupt c s).mscratch = s.mscratch := rfl
@[simp] theorem takeInterrupt_mepc (c : BitVec 63) : (takeInterrupt c s).mepc = s.pc := rfl
@[simp] theorem takeInterrupt_mcause (c : BitVec 63) : (takeInterrupt c s).mcause = { int := true, code := c } := rfl
@[simp] theorem takeInterrupt_mtval (c : BitVec 63) : (takeInterrupt c s).mtval = 0 := rfl
@[simp] theorem takeInterrupt_mcountinhibit (c : BitVec 63) : (takeInterrupt c s).mcountinhibit = s.mcountinhibit := rfl
@[simp] theorem takeInterrupt_mcycle (c : BitVec 63) : (takeInterrupt c s).mcycle = s.mcycle := rfl
@[simp] theorem takeInterrupt_minstret (c : BitVec 63) : (takeInterrupt c s).minstret = s.minstret := rfl
@[simp] theorem takeInterrupt_inputs (c : BitVec 63) : (takeInterrupt c s).inputs = s.inputs := rfl
@[simp] theorem takeInterrupt_stepNo (c : BitVec 63) : (takeInterrupt c s).stepNo = s.stepNo := rfl
@[simp] theorem takeInterrupt_ioLog (c : BitVec 63) : (takeInterrupt c s).ioLog = s.ioLog := rfl

/-! ## retireTo -/

@[simp] theorem retireTo_cfg (npc : Word) : (retireTo npc s).cfg = s.cfg := rfl
@[simp] theorem retireTo_regs (npc : Word) : (retireTo npc s).regs = s.regs := rfl
@[simp] theorem retireTo_pc (npc : Word) : (retireTo npc s).pc = npc := rfl
@[simp] theorem retireTo_mem (npc : Word) : (retireTo npc s).mem = s.mem := rfl
@[simp] theorem retireTo_mstatus (npc : Word) : (retireTo npc s).mstatus = s.mstatus := rfl
@[simp] theorem retireTo_mie (npc : Word) : (retireTo npc s).mie = s.mie := rfl
@[simp] theorem retireTo_mip (npc : Word) : (retireTo npc s).mip = s.mip := rfl
@[simp] theorem retireTo_mtvec (npc : Word) : (retireTo npc s).mtvec = s.mtvec := rfl
@[simp] theorem retireTo_mscratch (npc : Word) : (retireTo npc s).mscratch = s.mscratch := rfl
@[simp] theorem retireTo_mepc (npc : Word) : (retireTo npc s).mepc = s.mepc := rfl
@[simp] theorem retireTo_mcause (npc : Word) : (retireTo npc s).mcause = s.mcause := rfl
@[simp] theorem retireTo_mtval (npc : Word) : (retireTo npc s).mtval = s.mtval := rfl
@[simp] theorem retireTo_mcountinhibit (npc : Word) : (retireTo npc s).mcountinhibit = s.mcountinhibit := rfl
@[simp] theorem retireTo_mcycle (npc : Word) : (retireTo npc s).mcycle = s.mcycle := rfl
@[simp] theorem retireTo_minstret (npc : Word) : (retireTo npc s).minstret = if s.mcountinhibit.ir then s.minstret else s.minstret + 1 := rfl
@[simp] theorem retireTo_inputs (npc : Word) : (retireTo npc s).inputs = s.inputs := rfl
@[simp] theorem retireTo_stepNo (npc : Word) : (retireTo npc s).stepNo = s.stepNo := rfl
@[simp] theorem retireTo_ioLog (npc : Word) : (retireTo npc s).ioLog = s.ioLog := rfl

/-! ## retire -/

@[simp] theorem retire_cfg (len : Word) : (retire len s).cfg = s.cfg := rfl
@[simp] theorem retire_regs (len : Word) : (retire len s).regs = s.regs := rfl
@[simp] theorem retire_pc (len : Word) : (retire len s).pc = s.pc + len := rfl
@[simp] theorem retire_mem (len : Word) : (retire len s).mem = s.mem := rfl
@[simp] theorem retire_mstatus (len : Word) : (retire len s).mstatus = s.mstatus := rfl
@[simp] theorem retire_mie (len : Word) : (retire len s).mie = s.mie := rfl
@[simp] theorem retire_mip (len : Word) : (retire len s).mip = s.mip := rfl
@[simp] theorem retire_mtvec (len : Word) : (retire len s).mtvec = s.mtvec := rfl
@[simp] theorem retire_mscratch (len : Word) : (retire len s).mscratch = s.mscratch := rfl
@[simp] theorem retire_mepc (len : Word) : (retire len s).mepc = s.mepc := rfl
@[simp] theorem retire_mcause (len : Word) : (retire len s).mcause = s.mcause := rfl
@[simp] theorem retire_mtval (len : Word) : (retire len s).mtval = s.mtval := rfl
@[simp] theorem retire_mcountinhibit (len : Word) : (retire len s).mcountinhibit = s.mcountinhibit := rfl
@[simp] theorem retire_mcycle (len : Word) : (retire len s).mcycle = s.mcycle := rfl
@[simp] theorem retire_minstret (len : Word) : (retire len s).minstret = if s.mcountinhibit.ir then s.minstret else s.minstret + 1 := rfl
@[simp] theorem retire_inputs (len : Word) : (retire len s).inputs = s.inputs := rfl
@[simp] theorem retire_stepNo (len : Word) : (retire len s).stepNo = s.stepNo := rfl
@[simp] theorem retire_ioLog (len : Word) : (retire len s).ioLog = s.ioLog := rfl

/-! ## endStep -/

@[simp] theorem endStep_cfg : (endStep s).cfg = s.cfg := rfl
@[simp] theorem endStep_regs : (endStep s).regs = s.regs := rfl
@[simp] theorem endStep_pc : (endStep s).pc = s.pc := rfl
@[simp] theorem endStep_mem : (endStep s).mem = s.mem := rfl
@[simp] theorem endStep_mstatus : (endStep s).mstatus = s.mstatus := rfl
@[simp] theorem endStep_mie : (endStep s).mie = s.mie := rfl
@[simp] theorem endStep_mip : (endStep s).mip = s.mip := rfl
@[simp] theorem endStep_mtvec : (endStep s).mtvec = s.mtvec := rfl
@[simp] theorem endStep_mscratch : (endStep s).mscratch = s.mscratch := rfl
@[simp] theorem endStep_mepc : (endStep s).mepc = s.mepc := rfl
@[simp] theorem endStep_mcause : (endStep s).mcause = s.mcause := rfl
@[simp] theorem endStep_mtval : (endStep s).mtval = s.mtval := rfl
@[simp] theorem endStep_mcountinhibit : (endStep s).mcountinhibit = s.mcountinhibit := rfl
@[simp] theorem endStep_mcycle : (endStep s).mcycle = if s.mcountinhibit.cy then s.mcycle
      else s.mcycle + BitVec.ofNat 64 (currentInputs s).cycles := rfl
@[simp] theorem endStep_minstret : (endStep s).minstret = s.minstret := rfl
@[simp] theorem endStep_inputs : (endStep s).inputs = s.inputs.tail := rfl
@[simp] theorem endStep_stepNo : (endStep s).stepNo = s.stepNo + 1 := rfl
@[simp] theorem endStep_ioLog : (endStep s).ioLog = s.ioLog := rfl

/-! ## applyInputs -/

@[simp] theorem applyInputs_cfg : (applyInputs s).cfg = s.cfg := rfl
@[simp] theorem applyInputs_regs : (applyInputs s).regs = s.regs := rfl
@[simp] theorem applyInputs_pc : (applyInputs s).pc = s.pc := rfl
@[simp] theorem applyInputs_mem : (applyInputs s).mem = s.mem := rfl
@[simp] theorem applyInputs_mstatus : (applyInputs s).mstatus = s.mstatus := rfl
@[simp] theorem applyInputs_mie : (applyInputs s).mie = s.mie := rfl
@[simp] theorem applyInputs_mip : (applyInputs s).mip = currentIrq s := rfl
@[simp] theorem applyInputs_mtvec : (applyInputs s).mtvec = s.mtvec := rfl
@[simp] theorem applyInputs_mscratch : (applyInputs s).mscratch = s.mscratch := rfl
@[simp] theorem applyInputs_mepc : (applyInputs s).mepc = s.mepc := rfl
@[simp] theorem applyInputs_mcause : (applyInputs s).mcause = s.mcause := rfl
@[simp] theorem applyInputs_mtval : (applyInputs s).mtval = s.mtval := rfl
@[simp] theorem applyInputs_mcountinhibit : (applyInputs s).mcountinhibit = s.mcountinhibit := rfl
@[simp] theorem applyInputs_mcycle : (applyInputs s).mcycle = s.mcycle := rfl
@[simp] theorem applyInputs_minstret : (applyInputs s).minstret = s.minstret := rfl
@[simp] theorem applyInputs_inputs : (applyInputs s).inputs = s.inputs := rfl
@[simp] theorem applyInputs_stepNo : (applyInputs s).stepNo = s.stepNo := rfl
@[simp] theorem applyInputs_ioLog : (applyInputs s).ioLog = s.ioLog := rfl

end Sys2Proof.Machine
end

