-- ==== Sys2Proof/Laws/Memory.lean ====
section
/-! SUPPORT. Reading after writing, and that every memory operation keeps the canonical form. -/

-- One thread at a time: many small theorems at once ask for more threads than the checker's memory limit allows.
set_option Elab.async false

namespace Sys2Proof.Machine

theorem unlisted_eq (a : Nat) : unlisted a = none := rfl

theorem Memory.set_eq_insert (m : Memory) (a : Nat) (b : Byte) : m.set a b = m.insert a b := by
  simp [Memory.set, unlisted]

/-- A byte reads as the value written to it, every other byte as before. -/
theorem Memory.get?_set (m : Memory) (a : Nat) (b : Byte) (x : Nat) :
    (m.set a b).get? x = if x = a then some b else m.get? x := by
  rw [Memory.set_eq_insert]
  induction m with
  | nil =>
    by_cases h : x = a
    · simp [Memory.insert, Memory.get?, h]
    · have h' : ¬ a = x := fun e => h e.symm
      simp only [Memory.insert, Memory.get?, if_neg h', if_neg h]
  | cons p rest ih =>
    obtain ⟨a', b'⟩ := p
    simp only [Memory.insert]
    split
    · by_cases h : x = a
      · simp [Memory.get?, h]
      · have h' : ¬ a = x := fun e => h e.symm
        simp only [Memory.get?, if_neg h', if_neg h]
    · split
      · rename_i h1 h2
        subst h2
        by_cases h : x = a
        · simp [Memory.get?, h]
        · have : ¬ a = x := fun e => h e.symm
          simp [Memory.get?, h, this]
      · rename_i h1 h2
        simp only [Memory.get?, ih]
        by_cases h : a' = x
        · have : x ≠ a := by omega
          simp [h, this]
        · simp [h]

theorem Memory.above_insert {c a : Nat} (b : Byte) : ∀ {m : Memory}, c < a → Memory.above c m = true →
    Memory.above c (Memory.insert m a b) = true
  | [], h, _ => by simp [Memory.insert, Memory.above, h]
  | (a', b') :: rest, h, hm => by
    simp only [Memory.above, Bool.and_eq_true, decide_eq_true_eq] at hm
    simp only [Memory.insert]
    split
    · simp [Memory.above, h, hm]
    · split
      · simp [Memory.above, h, hm]
      · simp [Memory.above, hm, Memory.above_insert b h hm.2]

theorem Memory.above_trans {c a : Nat} : ∀ {m : Memory}, c < a → Memory.above a m = true → Memory.above c m = true
  | [], _, _ => rfl
  | (a', _) :: rest, h, hm => by
    simp only [Memory.above, Bool.and_eq_true, decide_eq_true_eq] at hm ⊢
    exact ⟨by omega, Memory.above_trans h hm.2⟩

/-- A write keeps the canonical form. -/
theorem Memory.wf_set (m : Memory) (a : Nat) (b : Byte) (h : m.wf = true) : (m.set a b).wf = true := by
  rw [Memory.set_eq_insert]
  induction m with
  | nil => simp [Memory.insert, Memory.wf, Memory.above, unlisted]
  | cons p rest ih =>
    obtain ⟨a', b'⟩ := p
    simp only [Memory.wf, Bool.and_eq_true] at h
    simp only [Memory.insert]
    split
    · rename_i h1
      simp [Memory.wf, Memory.above, h, h1, unlisted, Memory.above_trans h1 h.1.2]
    · split
      · rename_i h1 h2
        subst h2
        simp [Memory.wf, h, unlisted]
      · rename_i h1 h2
        simp [Memory.wf, h.1.1, ih h.2, Memory.above_insert b (show a' < a by omega) h.1.2]

/-- Removing an entry keeps the canonical form. -/
theorem Memory.wf_erase (m : Memory) (a : Nat) (h : m.wf = true) : (m.erase a).wf = true := by
  induction m with
  | nil => rfl
  | cons p rest ih =>
    obtain ⟨a', b'⟩ := p
    simp only [Memory.wf, Bool.and_eq_true] at h
    simp only [Memory.erase]
    split
    · exact h.2
    · have habove : ∀ {c : Nat} (m' : Memory), Memory.above c m' = true → Memory.above c (m'.erase a) = true := by
        intro c m' hm'
        induction m' with
        | nil => rfl
        | cons q r ihr =>
          obtain ⟨a2, b2⟩ := q
          simp only [Memory.above, Bool.and_eq_true] at hm'
          simp only [Memory.erase]
          split
          · exact hm'.2
          · simp [Memory.above, hm'.1, ihr hm'.2]
      simp [Memory.wf, h.1.1, ih h.2, habove rest h.1.2]

/-- Storing the low bytes of a number keeps the canonical form. -/
theorem writeLe_wf (n : Nat) : ∀ (m : Memory) (a v : Nat), m.wf = true → (writeLe m a n v).wf = true := by
  induction n with
  | zero => intro m a v h; exact h
  | succ n ih => intro m a v h; exact ih _ _ _ (Memory.wf_set _ _ _ h)

/-- What a byte reads as after the low `n` bytes of `v` are stored at `a`. -/
theorem get?_writeLe (n : Nat) : ∀ (m : Memory) (a v x : Nat),
    (writeLe m a n v).get? x =
      if a ≤ x ∧ x < a + n then some (BitVec.ofNat 8 (v / 256 ^ (x - a))) else m.get? x := by
  induction n with
  | zero =>
    intro m a v x
    rw [writeLe, if_neg (by omega)]
  | succ n ih =>
    intro m a v x
    simp only [writeLe, ih, Memory.get?_set]
    by_cases h1 : a + 1 ≤ x ∧ x < a + 1 + n
    · have h2 : a ≤ x ∧ x < a + (n + 1) := by omega
      have h3 : x - a = (x - (a + 1)) + 1 := by omega
      simp only [h1, h2, and_self, if_true]
      rw [h3, pow_succ, Nat.mul_comm, Nat.div_div_eq_div_mul]
    · by_cases h4 : x = a
      · subst h4
        simp
      · have h2 : ¬ (a ≤ x ∧ x < a + (n + 1)) := by omega
        rw [if_neg h1, if_neg h2, if_neg h4]

/-- Placing bytes keeps the canonical form. -/
theorem placeBytes_wf : ∀ (bs : List Byte) (m : Memory) (pa : Word), m.wf = true → (placeBytes m pa bs).wf = true
  | [], _, _, h => h
  | b :: bs, m, pa, h => placeBytes_wf bs (m.set pa.toNat b) (pa + 1) (Memory.wf_set _ _ _ h)

/-- Reading `n` bytes succeeds where every one of them has a value. -/
theorem readLe_ok (n : Nat) : ∀ (m : Memory) (a : Nat), (∀ i, i < n → (m.get? (a + i)).isSome) →
    ∃ v, readLe m a n = .ok v ∧ v < 256 ^ n ∧ ∀ i, i < n → m.get? (a + i) = some (BitVec.ofNat 8 (v / 256 ^ i)) := by
  induction n with
  | zero => intro m a _; exact ⟨0, rfl, by simp, fun i hi => absurd hi (by omega)⟩
  | succ n ih =>
    intro m a h
    obtain ⟨b, hb⟩ := Option.isSome_iff_exists.mp (h 0 (by omega))
    obtain ⟨v, hv, hlt, hby⟩ := ih m (a + 1) (fun i hi => by
      have := h (i + 1) (by omega); rwa [show a + 1 + i = a + (i + 1) by omega])
    simp only [Nat.add_zero] at hb
    refine ⟨b.toNat + 256 * v, by simp [readLe, hb, hv], ?_, ?_⟩
    · have := b.isLt; rw [pow_succ]; omega
    · intro i hi
      cases i with
      | zero =>
        rw [Nat.add_zero, hb, pow_zero, Nat.div_one]
        congr 1
        apply BitVec.eq_of_toNat_eq
        have := b.isLt
        simp only [BitVec.toNat_ofNat]; omega
      | succ i =>
        have h3 := hby i (by omega)
        rw [show a + (i + 1) = a + 1 + i by omega, h3, pow_succ, Nat.mul_comm (256 ^ i) 256, ← Nat.div_div_eq_div_mul]
        have h4 : (b.toNat + 256 * v) / 256 = v := by have := b.isLt; omega
        rw [h4]

end Sys2Proof.Machine
end

