-- ==== Sys2Proof/Laws/Registers.lean ====
section
/-! SUPPORT. What reading a register gives after each update. -/

-- One thread at a time: many small theorems at once ask for more threads than the checker's memory limit allows.
set_option Elab.async false

namespace Sys2Proof.Machine

theorem regIndex_inj {r r' : Reg} (h : r ≠ 0) (h' : r' ≠ 0) (e : regIndex r = regIndex r') : r = r' := by
  have h1 := congrArg Fin.val e
  simp only [regIndex] at h1
  have h2 : r.toNat ≠ 0 := fun k => h (BitVec.eq_of_toNat_eq (by simpa using k))
  have h3 : r'.toNat ≠ 0 := fun k => h' (BitVec.eq_of_toNat_eq (by simpa using k))
  exact BitVec.eq_of_toNat_eq (by omega)

@[simp] theorem readReg_zero (s : State) : readReg 0 s = 0 := rfl

/-- Reading depends on the register file alone. -/
theorem readReg_congr {s t : State} (h : t.regs = s.regs) (r : Reg) : readReg r t = readReg r s := by
  simp [readReg, h]

/-- The written register holds the value, unless it is `x0`. -/
@[simp] theorem readReg_writeReg_same (r : Reg) (v : Word) (s : State) :
    readReg r (writeReg r v s) = held r v := by
  by_cases h : r = 0
  · subst h; rfl
  · simp only [readReg, held, setRegs, writeReg, if_neg h, Vector.get_eq_getElem, Vector.getElem_set_self]

/-- Every other register keeps its value. -/
theorem readReg_writeReg_of_ne {r r' : Reg} (h : r' ≠ r) (v : Word) (s : State) :
    readReg r' (writeReg r v s) = readReg r' s := by
  unfold readReg
  by_cases h' : r' = 0
  · rw [if_pos h', if_pos h']
  · by_cases hr : r = 0
    · subst hr; rfl
    · have hne : (regIndex r).val ≠ (regIndex r').val :=
        fun e => h (regIndex_inj h' hr (Fin.ext e).symm)
      simp only [if_neg h', setRegs, writeReg, if_neg hr, Vector.get_eq_getElem, Vector.getElem_set_ne _ _ hne]

theorem sameRegsExcept_writeReg (xd : Reg) (v : Word) (s : State) : SameRegsExcept xd s (writeReg xd v s) :=
  fun _ h => readReg_writeReg_of_ne h v s

@[simp] theorem readReg_retireTo (r : Reg) (npc : Word) (s : State) : readReg r (retireTo npc s) = readReg r s := rfl
@[simp] theorem readReg_retire (r : Reg) (len : Word) (s : State) : readReg r (retire len s) = readReg r s := rfl
@[simp] theorem readReg_trapEntry (r : Reg) (e : Exc) (v : Word) (s : State) :
    readReg r (trapEntry e v s) = readReg r s := rfl
@[simp] theorem readReg_trapReturn (r : Reg) (s : State) : readReg r (trapReturn s) = readReg r s := rfl
@[simp] theorem readReg_takeInterrupt (r : Reg) (c : BitVec 63) (s : State) :
    readReg r (takeInterrupt c s) = readReg r s := rfl
@[simp] theorem readReg_endStep (r : Reg) (s : State) : readReg r (endStep s) = readReg r s := rfl
@[simp] theorem readReg_applyInputs (r : Reg) (s : State) : readReg r (applyInputs s) = readReg r s := rfl

/-- A write of `x0` changes nothing. -/
@[simp] theorem writeReg_zero (v : Word) (s : State) : writeReg 0 v s = s := rfl

end Sys2Proof.Machine
end

