-- ==== Sys2Proof/Laws/Ops.lean ====
section
/-! SUPPORT. One lemma per shared operation that says what it can do: the access check, the data accesses, the fetch, the
CSR write, the CSR access path, the endings of an instruction, the launch check and the step. -/

-- One thread at a time: many small theorems at once ask for more threads than the checker's memory limit allows.
set_option Elab.async false

namespace Sys2Proof.Machine

/-! ## The access check -/

theorem allKind_iff (map : MemoryMap) (k : RegionKind) (n : Nat) :
    ∀ a, allKind map k a n = true ↔ ∀ i, i < n → (attrAt map (a + i)).kind = k := by
  induction n with
  | zero => intro a; simp [allKind]
  | succ n ih =>
    intro a
    simp only [allKind, Bool.and_eq_true, beq_iff_eq, ih]
    constructor
    · rintro ⟨h0, h⟩ i hi
      cases i with
      | zero => exact h0
      | succ i => have := h i (by omega); rwa [show a + 1 + i = a + (i + 1) by omega] at this
    · intro h
      refine ⟨h 0 (by omega), fun i hi => ?_⟩
      have := h (i + 1) (by omega)
      rwa [show a + (i + 1) = a + 1 + i by omega] at this

theorem inBounds_iff (c : Config) (a n : Nat) :
    inBounds c a n = true ↔ a + (if c.accessCheckSizeInBits then 8 * n else n) ≤ 2 ^ c.physAddrWidth := by
  simp [inBounds]

/-- The access check passes to memory exactly where `RamAccess` holds (R206, R220). -/
theorem accessCheck_ram_iff (s : State) (va : Word) {n : Nat} (hn : 0 < n) :
    accessCheck s.cfg va.toNat n = .ram ↔ RamAccess s va n := by
  unfold accessCheck RamAccess
  rw [← inBounds_iff]
  constructor
  · intro h
    split at h
    · rename_i hb
      split at h
      · split at h
        · rename_i hk; exact ⟨hb, (allKind_iff _ _ _ _).mp hk⟩
        · cases h
      · split at h <;> cases h
      · cases h
    · cases h
  · rintro ⟨hb, hk⟩
    have h0 := hk 0 hn
    rw [Nat.add_zero] at h0
    rw [if_pos hb, h0]
    simp only
    rw [if_pos ((allKind_iff _ _ _ _).mpr hk)]

/-- The access check passes to device `d` exactly where `IoAccess` holds (R206, R220). -/
theorem accessCheck_io_iff (s : State) (d : Nat) (va : Word) {n : Nat} (hn : 0 < n) :
    accessCheck s.cfg va.toNat n = .io d ↔ IoAccess s d va n := by
  unfold accessCheck IoAccess
  rw [← inBounds_iff]
  constructor
  · intro h
    split at h
    · rename_i hb
      split at h
      · split at h <;> cases h
      · split at h
        · rename_i hk; cases h; exact ⟨hb, (allKind_iff _ _ _ _).mp hk⟩
        · cases h
      · cases h
    · cases h
  · rintro ⟨hb, hk⟩
    have h0 := hk 0 hn
    rw [Nat.add_zero] at h0
    rw [if_pos hb, h0]
    simp only
    rw [if_pos ((allKind_iff _ _ _ _).mpr hk)]

/-- The access check fails exactly where `BadAccess` holds. -/
theorem accessCheck_denied_iff (s : State) (va : Word) {n : Nat} (hn : 0 < n) :
    accessCheck s.cfg va.toNat n = .denied ↔ BadAccess s va n := by
  unfold BadAccess
  rw [← accessCheck_ram_iff s va hn]
  simp only [← accessCheck_io_iff s _ va hn]
  cases h : accessCheck s.cfg va.toNat n <;> simp

/-! ## Trap values -/

theorem mtvalReadonly_eq (c : Config) :
    mtvalReadonly c = true ↔ ¬ (c.reportEncodingIllegal ∨ c.reportVaBreakpoint ∨ c.reportVaFetchFault
      ∨ c.reportVaFetchMisaligned ∨ c.reportVaLoadFault ∨ c.reportVaLoadMisaligned ∨ c.reportVaStoreFault
      ∨ c.reportVaStoreMisaligned) := by
  simp [mtvalReadonly, and_assoc]

/-- Trap entry does to `mtval` what `mtvalAfter` says, for a parameter `report` that filters the trap value. -/
theorem trapEntry_mtvalAfter (e : Exc) (tval : Word) (s : State) (report : Bool)
    (h : mtvalFor s.cfg e tval = if report then tval else 0) :
    (trapEntry e tval s).mtval = mtvalAfter s report tval := by
  rw [trapEntry_mtval, mtvalAfter, h]
  by_cases hr : mtvalReadonly s.cfg = true
  · rw [if_pos hr, if_neg ((mtvalReadonly_eq _).mp hr)]
  · rw [if_neg hr, if_pos (not_not.mp fun k => hr ((mtvalReadonly_eq _).mpr k))]
    rfl

/-- The trap target is four times the base. -/
theorem toNat_target (t : Mtvec) : t.target.toNat = 4 * t.base.toNat := by
  rw [Mtvec.target, BitVec.toNat_append, Nat.shiftLeft_eq, show (0 : BitVec 2).toNat = 0 from rfl, Nat.or_zero]
  omega

/-- Trap entry, as the statements say it. -/
theorem trapped_trapEntry (e : Exc) (tval : Word) (s : State) :
    Trapped e.code (trapEntry e tval s).mtval s (trapEntry e tval s) :=
  ⟨⟨rfl, rfl, rfl, rfl, toNat_target s.mtvec, rfl, rfl, rfl, rfl, rfl, fun _ => rfl, ⟨rfl, rfl, rfl, rfl, rfl⟩⟩,
    fun _ => rfl, rfl⟩

/-- Trap entry for an exception with code `code` whose trap value the parameter `report` filters. -/
theorem trapped_of {e : Exc} {code : BitVec 63} (hc : e.code = code) (tval : Word) (s : State) {report : Bool}
    (h : mtvalFor s.cfg e tval = if report then tval else 0) :
    Trapped code (mtvalAfter s report tval) s (trapEntry e tval s) := by
  have h1 := trapped_trapEntry e tval s
  rwa [trapEntry_mtvalAfter e tval s report h, hc] at h1

/-! ## Data accesses -/

/-- `t` is `s` but for memory and the host's log. -/
def OnlyMemory (s t : State) : Prop := t = { s with mem := t.mem, ioLog := t.ioLog }

theorem OnlyMemory.refl (s : State) : OnlyMemory s s := rfl

theorem OnlyMemory.trans {s t u : State} (h : OnlyMemory s t) (k : OnlyMemory t u) : OnlyMemory s u := by
  unfold OnlyMemory at *
  rw [k, h]

/-- What a checked read can do: answer with memory unchanged, or the load access fault, or a fault of the model. -/
theorem readWhole_cases (va : Word) (n : Nat) (s : State) :
    (∃ v s', readWhole va n s = .done v s' ∧ OnlyMemory s s' ∧ s'.mem = s.mem)
      ∨ readWhole va n s = .trap .loadAccessFault va s
      ∨ ∃ a, readWhole va n s = .stuck (.unwrittenByte a) := by
  unfold readWhole
  cases accessCheck s.cfg va.toNat n with
  | ram =>
    cases h : readLe s.mem va.toNat n with
    | ok v => exact .inl ⟨v, s, by simp, rfl, rfl⟩
    | error a => exact .inr (.inr ⟨a, by simp⟩)
  | io d => exact .inl ⟨_, _, rfl, rfl, rfl⟩
  | denied => exact .inr (.inl rfl)

/-- What a split read can do. -/
theorem readSplit_cases (n : Nat) : ∀ (va : Word) (s : State),
    (∃ v s', readSplit va n s = .done v s' ∧ OnlyMemory s s' ∧ s'.mem = s.mem)
      ∨ (∃ t s', readSplit va n s = .trap .loadAccessFault t s' ∧ OnlyMemory s s' ∧ s'.mem = s.mem)
      ∨ ∃ a, readSplit va n s = .stuck (.unwrittenByte a) := by
  induction n with
  | zero => intro va s; exact .inl ⟨0, s, rfl, rfl, rfl⟩
  | succ n ih =>
    intro va s
    simp only [readSplit]
    rcases readWhole_cases va 1 s with ⟨b, s1, h1, o1, m1⟩ | h1 | ⟨a, h1⟩
    · rw [h1]
      simp only
      rcases ih (va + 1) s1 with ⟨v, s2, h2, o2, m2⟩ | ⟨t, s2, h2, o2, m2⟩ | ⟨a, h2⟩
      · exact .inl ⟨_, s2, by rw [h2], o1.trans o2, m2.trans m1⟩
      · exact .inr (.inl ⟨t, s2, by rw [h2], o1.trans o2, m2.trans m1⟩)
      · exact .inr (.inr ⟨a, by rw [h2]⟩)
    · exact .inr (.inl ⟨va, s, by rw [h1], rfl, rfl⟩)
    · exact .inr (.inr ⟨a, by rw [h1]⟩)

/-- What `MemRead` can do (R214): a value, one of the two load exceptions, or a fault of the model; memory and every
register stay. -/
theorem memRead_cases (va : Word) (n : Nat) (s : State) :
    (∃ v s', memRead va n s = .done v s' ∧ OnlyMemory s s' ∧ s'.mem = s.mem)
      ∨ (∃ e t s', memRead va n s = .trap e t s' ∧ (e = .loadAccessFault ∨ e = .loadAddressMisaligned)
          ∧ OnlyMemory s s' ∧ s'.mem = s.mem)
      ∨ ∃ a, memRead va n s = .stuck (.unwrittenByte a) := by
  have whole : (∃ v s', readWhole va n s = .done v s' ∧ OnlyMemory s s' ∧ s'.mem = s.mem)
      ∨ (∃ e t s', readWhole va n s = .trap e t s' ∧ (e = .loadAccessFault ∨ e = .loadAddressMisaligned)
          ∧ OnlyMemory s s' ∧ s'.mem = s.mem)
      ∨ ∃ a, readWhole va n s = .stuck (.unwrittenByte a) := by
    rcases readWhole_cases va n s with h | h | h
    · exact .inl h
    · exact .inr (.inl ⟨_, _, _, h, .inl rfl, rfl, rfl⟩)
    · exact .inr (.inr h)
  unfold memRead
  split
  · exact whole
  · split
    · exact whole
    · split
      · rcases readSplit_cases n va s with h | ⟨t, s', h, o, m⟩ | h
        · exact .inl h
        · exact .inr (.inl ⟨_, t, s', h, .inl rfl, o, m⟩)
        · exact .inr (.inr h)
      · split
        · exact .inr (.inl ⟨_, _, _, rfl, .inl rfl, rfl, rfl⟩)
        · exact .inr (.inl ⟨_, _, _, rfl, .inr rfl, rfl, rfl⟩)

/-- What a checked write can do. -/
theorem writeWhole_cases (va : Word) (n v : Nat) (s : State) :
    (∃ s', writeWhole va n v s = .done () s' ∧ OnlyMemory s s' ∧ (s.mem.wf = true → s'.mem.wf = true))
      ∨ writeWhole va n v s = .trap .storeAmoAccessFault va s := by
  unfold writeWhole
  cases accessCheck s.cfg va.toNat n with
  | ram => exact .inl ⟨_, rfl, rfl, writeLe_wf n _ _ _⟩
  | io d => exact .inl ⟨_, rfl, rfl, id⟩
  | denied => exact .inr rfl

/-- What a split write can do; a trap may leave memory partly written (R213). -/
theorem writeSplit_cases (n : Nat) : ∀ (va : Word) (v : Nat) (s : State),
    (∃ s', writeSplit va n v s = .done () s' ∧ OnlyMemory s s' ∧ (s.mem.wf = true → s'.mem.wf = true))
      ∨ ∃ t s', writeSplit va n v s = .trap .storeAmoAccessFault t s' ∧ OnlyMemory s s'
          ∧ (s.mem.wf = true → s'.mem.wf = true) := by
  induction n with
  | zero => intro va v s; exact .inl ⟨s, rfl, rfl, id⟩
  | succ n ih =>
    intro va v s
    simp only [writeSplit]
    rcases writeWhole_cases va 1 (v % 256) s with ⟨s1, h1, o1, m1⟩ | h1
    · rw [h1]
      simp only
      rcases ih (va + 1) (v / 256) s1 with ⟨s2, h2, o2, m2⟩ | ⟨t, s2, h2, o2, m2⟩
      · exact .inl ⟨s2, h2, o1.trans o2, m2 ∘ m1⟩
      · exact .inr ⟨t, s2, h2, o1.trans o2, m2 ∘ m1⟩
    · exact .inr ⟨va, s, by rw [h1], rfl, id⟩

/-- What `MemWrite` can do (R215): memory changes, or one of the two store exceptions, and nothing else. -/
theorem memWrite_cases (va : Word) (n v : Nat) (s : State) :
    (∃ s', memWrite va n v s = .done () s' ∧ OnlyMemory s s' ∧ (s.mem.wf = true → s'.mem.wf = true))
      ∨ ∃ e t s', memWrite va n v s = .trap e t s' ∧ (e = .storeAmoAccessFault ∨ e = .storeAmoAddressMisaligned)
          ∧ OnlyMemory s s' ∧ (s.mem.wf = true → s'.mem.wf = true) := by
  have whole : (∃ s', writeWhole va n v s = .done () s' ∧ OnlyMemory s s' ∧ (s.mem.wf = true → s'.mem.wf = true))
      ∨ ∃ e t s', writeWhole va n v s = .trap e t s' ∧ (e = .storeAmoAccessFault ∨ e = .storeAmoAddressMisaligned)
          ∧ OnlyMemory s s' ∧ (s.mem.wf = true → s'.mem.wf = true) := by
    rcases writeWhole_cases va n v s with h | h
    · exact .inl h
    · exact .inr ⟨_, _, _, h, .inl rfl, rfl, id⟩
  unfold memWrite
  split
  · exact whole
  · split
    · exact whole
    · split
      · rcases writeSplit_cases n va v s with h | ⟨t, s', h, o, m⟩
        · exact .inl h
        · exact .inr ⟨_, t, s', h, .inl rfl, o, m⟩
      · split
        · exact .inr ⟨_, _, _, rfl, .inl rfl, rfl, id⟩
        · exact .inr ⟨_, _, _, rfl, .inr rfl, rfl, id⟩

/-! ## Fetch -/

/-- What the fetch of a halfword can do: it changes no state. -/
theorem fetchHalf_cases (va : Word) (s : State) :
    (∃ h, fetchHalf va s = .done h s) ∨ fetchHalf va s = .trap .instructionAccessFault va s
      ∨ ∃ a, fetchHalf va s = .stuck (.unwrittenByte a) := by
  unfold fetchHalf
  split
  · cases h : readLe s.mem va.toNat 2 with
    | ok v => exact .inl ⟨_, rfl⟩
    | error a => exact .inr (.inr ⟨a, rfl⟩)
  · exact .inr (.inl rfl)

/-- What the fetch can do (R216): it changes no state, and its only exception is the instruction access fault at `pc` or
`pc + 2`. -/
theorem fetch_cases (s : State) :
    (∃ r, fetch s = .done r s)
      ∨ (∃ t, fetch s = .trap .instructionAccessFault t s ∧ (t = s.pc ∨ t = s.pc + 2))
      ∨ ∃ a, fetch s = .stuck (.unwrittenByte a) := by
  unfold fetch
  rcases fetchHalf_cases s.pc s with ⟨lo, h⟩ | h | ⟨a, h⟩
  · rw [h]
    simp only
    split
    · rcases fetchHalf_cases (s.pc + 2) s with ⟨hi, k⟩ | k | ⟨a, k⟩
      · rw [k]; exact .inl ⟨_, rfl⟩
      · rw [k]; exact .inr (.inl ⟨_, rfl, .inr rfl⟩)
      · rw [k]; exact .inr (.inr ⟨a, rfl⟩)
    · exact .inl ⟨_, rfl⟩
  · rw [h]; exact .inr (.inl ⟨_, rfl, .inl rfl⟩)
  · rw [h]; exact .inr (.inr ⟨a, rfl⟩)

/-! ## Endings -/

@[simp] theorem complete_eq (len : Word) (xd : Reg) (v : Word) (s : State) :
    complete len xd v s = .next (retire len (writeReg xd v s)) := rfl
@[simp] theorem completeNop_eq (len : Word) (s : State) : completeNop len s = .next (retire len s) := rfl
@[simp] theorem jumpLink_eq (len : Word) (xd : Reg) (target : Word) (s : State) :
    jumpLink len xd target s = .next (retireTo target (writeReg xd (s.pc + len) s)) := rfl
@[simp] theorem branch_eq (len : Word) (taken : Bool) (offset : Word) (s : State) :
    branch len taken offset s = .next (retireTo (if taken then s.pc + offset else s.pc + len) s) := rfl
@[simp] theorem raiseExc_eq (e : Exc) (tval : Word) (s : State) : raiseExc e tval s = .next (trapEntry e tval s) := rfl

/-- An instruction that completes with a register write did what `WroteReg` says. -/
theorem wroteReg_retire (len : Word) (xd : Reg) (v : Word) (s : State) :
    WroteReg len xd v s (retire len (writeReg xd v s)) :=
  ⟨fun h => (readReg_writeReg_same xd v s).trans (if_neg h), rfl, rfl, sameRegsExcept_writeReg xd v s,
    ⟨rfl, rfl, rfl, rfl, rfl, rfl, rfl, rfl⟩, ⟨rfl, rfl, rfl, rfl, rfl⟩, fun _ => rfl, rfl⟩

/-- An instruction that only moves the pc did what `OnlyPc` says. -/
theorem onlyPc_retireTo (npc : Word) (s : State) : OnlyPc npc s (retireTo npc s) :=
  ⟨rfl, rfl, fun _ => rfl, ⟨rfl, rfl, rfl, rfl, rfl, rfl, rfl, rfl⟩, ⟨rfl, rfl, rfl, rfl, rfl⟩, fun _ => rfl, rfl⟩

/-- What a load can do: write `xd` and go on, take one of the two load exceptions, or a fault of the model; `ext` is its
extension. -/
theorem load_cases (va : Word) (n : Nat) (len : Word) (xd : Reg) (ext : Nat → Word) (s : State) :
    (∃ v s', (memRead va n s).finish (fun v s' => retire len (writeReg xd (ext v) s'))
        = .next (retire len (writeReg xd (ext v) s')) ∧ OnlyMemory s s' ∧ s'.mem = s.mem)
      ∨ (∃ e t s', (memRead va n s).finish (fun v s' => retire len (writeReg xd (ext v) s')) = .next (trapEntry e t s')
          ∧ (e = .loadAccessFault ∨ e = .loadAddressMisaligned) ∧ OnlyMemory s s' ∧ s'.mem = s.mem)
      ∨ ∃ a, (memRead va n s).finish (fun v s' => retire len (writeReg xd (ext v) s')) = .fault (.unwrittenByte a) := by
  rcases memRead_cases va n s with ⟨v, s', h, o, m⟩ | ⟨e, t, s', h, he, o, m⟩ | ⟨a, h⟩
  · exact .inl ⟨v, s', by rw [h]; rfl, o, m⟩
  · exact .inr (.inl ⟨e, t, s', by rw [h]; rfl, he, o, m⟩)
  · exact .inr (.inr ⟨a, by rw [h]; rfl⟩)

/-- What a store can do: change memory and go on, or take one of the two store exceptions. -/
theorem store_cases (len : Word) (n : Nat) (xs2 : Reg) (va : Word) (s : State) :
    (∃ s', store len n xs2 va s = .next (retire len s') ∧ OnlyMemory s s' ∧ (s.mem.wf = true → s'.mem.wf = true))
      ∨ ∃ e t s', store len n xs2 va s = .next (trapEntry e t s')
          ∧ (e = .storeAmoAccessFault ∨ e = .storeAmoAddressMisaligned) ∧ OnlyMemory s s'
          ∧ (s.mem.wf = true → s'.mem.wf = true) := by
  unfold store
  rcases memWrite_cases va n (readReg xs2 s).toNat s with ⟨s', h, o, m⟩ | ⟨e, t, s', h, he, o, m⟩
  · exact .inl ⟨s', by rw [h]; rfl, o, m⟩
  · exact .inr ⟨e, t, s', by rw [h]; rfl, he, o, m⟩

/-! ## CSRs -/

/-- `t` is `s` but for the CSR fields that software can write. -/
def OnlyCsrs (s t : State) : Prop :=
  t = { s with
    mstatus := t.mstatus, mie := t.mie, mtvec := t.mtvec, mcountinhibit := t.mcountinhibit,
    mscratch := t.mscratch, mepc := t.mepc, mcause := t.mcause, mtval := t.mtval, mcycle := t.mcycle,
    minstret := t.minstret }

/-- A software write changes CSR fields alone. -/
theorem csrWrite_onlyCsrs {r : Csr} {v : Word} {s s' : State} (h : csrWrite r v s = some s') : OnlyCsrs s s' := by
  cases r <;> simp only [csrWrite, Option.some.injEq] at h <;> first
    | (subst h; rfl)
    | (split at h
       · cases h; rfl
       · split at h
         · cases h
         · cases h; rfl)

/-- Only an illegal write of `mcause` raises (R142). -/
theorem csrWrite_none {r : Csr} {v : Word} {s : State} (h : csrWrite r v s = none) :
    r = .mcause ∧ mcauseLegal s.cfg (mcauseOfWord v) = false ∧ s.cfg.trapOnIllegalWlrl = true := by
  cases r <;> simp only [csrWrite, reduceCtorEq] at h
  split at h
  · cases h
  · rename_i hl
    split at h
    · rename_i ht; exact ⟨rfl, by simpa using hl, ht⟩
    · cases h

/-- What the access path of the CSR instructions can do (R410). -/
theorem csrAccess_cases (ins : Word) (a : CsrAddr) (xd : Reg) (will : Bool) (new : Word → Word) (s : State) :
    csrAccess ins a xd will new s = .next (trapEntry .illegalInstruction ins s)
      ∨ csrAccess ins a xd will new s = .fault (.unpredictableCsr a)
      ∨ (∃ r, csrLookup s.cfg a = some r ∧ will = false
          ∧ csrAccess ins a xd will new s = .next (retire 4 (writeReg xd (csrRead r s) s)))
      ∨ ∃ r s', csrLookup s.cfg a = some r ∧ will = true ∧ csrReadOnly a = false
          ∧ csrWrite r (new (csrRead r s)) s = some s'
          ∧ csrAccess ins a xd will new s = .next (csrRetire r (writeReg xd (csrRead r s) s')) := by
  unfold csrAccess
  cases hl : csrLookup s.cfg a with
  | none =>
    simp only
    split
    · exact .inl rfl
    · exact .inr (.inl rfl)
  | some r =>
    simp only
    cases will with
    | false => exact .inr (.inr (.inl ⟨r, rfl, rfl, rfl⟩))
    | true =>
      cases hro : csrReadOnly a with
      | true => exact .inl rfl
      | false =>
        simp only [Bool.and_false, Bool.false_eq_true, if_false, if_true]
        cases hw : csrWrite r (new (csrRead r s)) s with
        | none => exact .inl rfl
        | some s' => exact .inr (.inr (.inr ⟨r, s', rfl, trivial, trivial, hw, rfl⟩))

/-! ## Launch and the step -/

/-- What a legal change of `C_DECODE` says (R450). -/
theorem cDecodeOk_change {d : CDecode} {h : BitVec 16} {v : Option Instr} (l : cDecodeOk d = true)
    (e : changeAt d.changes h = some v) :
    h.toNat % 4 ≠ 3 ∧ ∀ i, v = some i → (encode i).length = 2 ∧ i.wellFormed = true := by
  have k := (List.all_eq_true.mp l) (h, v) (mem_of_changeAt e)
  simp only [Bool.and_eq_true, Bool.not_eq_true', ← Bool.not_eq_true, isWordHalf_iff] at k
  refine ⟨k.1, fun i same => ?_⟩
  subst same
  simpa using k.2

/-- The configuration of a legal launch has a legal `C_DECODE`. -/
theorem cDecodeOk_of_legalConfig {c : Config} (l : legalConfig c = true) : cDecodeOk c.cDecode = true := by
  simp only [legalConfig, Bool.and_eq_true] at l
  exact l.2

theorem halted_never {s : State} (h : s.cfg.haltRule = .never) : halted s = false := by
  rw [halted, h]

theorem halted_selfLoop {s : State} (h : s.cfg.haltRule = .selfLoop) : halted s = selfLoop s := by
  rw [halted, h]

theorem halted_other {s : State} {n : Nat} (h : s.cfg.haltRule = .other n) : halted s = Config.haltPredicate n s := by
  rw [halted, h]

/-- What one step can do (R550). -/
theorem cycle_cases (s : State) :
    legalConfig s.cfg = false ∧ cycle s = .refused .illegalConfiguration
      ∨ legalConfig s.cfg = true ∧ halted (applyInputs s) = true ∧ cycle s = .fault .runEnded
      ∨ legalConfig s.cfg = true ∧ halted (applyInputs s) = false
        ∧ cycle s = closeStep (interruptOrRun (applyInputs s)) := by
  unfold cycle
  cases legalConfig s.cfg with
  | false => exact .inl ⟨rfl, rfl⟩
  | true =>
    cases halted (applyInputs s) with
    | true => exact .inr (.inl ⟨rfl, rfl, rfl⟩)
    | false => exact .inr (.inr ⟨rfl, rfl, rfl⟩)

/-- The instruction of a step: an interrupt if one is pending and enabled, else what is fetched. -/
theorem interruptOrRun_none {s : State} (h : highestPriority (pendingAndEnabled s) = none) :
    interruptOrRun s = fetchRun s := by
  rw [interruptOrRun, h]

end Sys2Proof.Machine
end

