-- ==== Sys2Proof/Laws/Access.lean ====
section
/-! SUPPORT. The data accesses in the terms of the statements: what memory holds and what a read answers, when an access
is made whole, what a split access does byte by byte, and that every load and store is one of the two shared
operations. -/

-- One thread at a time: many small theorems at once ask for more threads than the checker's memory limit allows.
set_option Elab.async false

namespace Sys2Proof.Machine

/-! ## Memory and numbers -/

theorem pow_256_succ (n : Nat) : 256 ^ (n + 1) = 256 * 256 ^ n := by rw [pow_succ, Nat.mul_comm]

/-- Bytes that are those of `v` read as `v` modulo 256^n. -/
theorem readLe_of_bytes (n : Nat) : ∀ (m : Memory) (a v : Nat),
    (∀ i, i < n → m.get? (a + i) = some (BitVec.ofNat 8 (v / 256 ^ i))) → readLe m a n = .ok (v % 256 ^ n) := by
  induction n with
  | zero => intro m a v _; simp [readLe, Nat.mod_one]
  | succ n ih =>
    intro m a v h
    have h0 := h 0 (by omega)
    simp only [Nat.add_zero, pow_zero, Nat.div_one] at h0
    have h1 := ih m (a + 1) (v / 256) (fun i hi => by
      rw [show a + 1 + i = a + (i + 1) by omega, h (i + 1) (by omega), Nat.div_div_eq_div_mul, pow_256_succ])
    simp only [readLe, h0, h1, BitVec.toNat_ofNat]
    congr 1
    rw [pow_256_succ, Nat.mod_mul]

/-- Reading stops at the first byte without a value. -/
theorem readLe_unwritten (n : Nat) : ∀ (m : Memory) (a j : Nat), j < n →
    (∀ k, k < j → (m.get? (a + k)).isSome = true) → m.get? (a + j) = none → readLe m a n = .error (a + j) := by
  induction n with
  | zero => intro m a j h; omega
  | succ n ih =>
    intro m a j hj hk hn
    cases j with
    | zero => simp only [Nat.add_zero] at hn ⊢; simp [readLe, hn]
    | succ j =>
      obtain ⟨b, hb⟩ := Option.isSome_iff_exists.mp (hk 0 (by omega))
      have h1 := ih m (a + 1) j (by omega)
        (fun k hk' => by rw [show a + 1 + k = a + (k + 1) by omega]; exact hk _ (by omega))
        (by rw [show a + 1 + j = a + (j + 1) by omega]; exact hn)
      simp only [Nat.add_zero] at hb
      simp [readLe, hb, h1]; omega

/-- A byte of a 64-bit value, as bits and as a quotient. -/
theorem byte_of_word (x : Word) (k : Nat) : BitVec.ofNat 8 (x.toNat / 256 ^ k) = x.extractLsb' (8 * k) 8 := by
  apply BitVec.eq_of_toNat_eq
  simp [BitVec.extractLsb'_toNat, Nat.shiftRight_eq_div_pow, pow_mul]

/-- A byte of an `n`-byte value, as bits and as a quotient. -/
theorem byte_of_bytes {n : Nat} (v : BitVec (8 * n)) (k : Nat) :
    v.extractLsb' (8 * k) 8 = BitVec.ofNat 8 (v.toNat / 256 ^ k) := by
  apply BitVec.eq_of_toNat_eq
  simp [BitVec.extractLsb'_toNat, Nat.shiftRight_eq_div_pow, pow_mul]

theorem mod_of_bytes {n : Nat} (v : BitVec (8 * n)) : v.toNat % 256 ^ n = v.toNat := by
  have h := v.isLt
  rw [show 256 ^ n = 2 ^ (8 * n) by rw [pow_mul]; norm_num]
  exact Nat.mod_eq_of_lt h

/-- Memory that holds `v` reads as `v` (R201). -/
theorem readLe_of_holds {s : State} {va : Word} {n : Nat} {v : BitVec (8 * n)} (h : HoldsLe s va n v) :
    readLe s.mem va.toNat n = .ok v.toNat := by
  rw [readLe_of_bytes n s.mem va.toNat v.toNat (fun i hi => by rw [h i hi, byte_of_bytes]), mod_of_bytes]

/-! ## Whole accesses -/

theorem readWhole_of_holds {s : State} {va : Word} {n : Nat} (hn : 0 < n) {v : BitVec (8 * n)}
    (hr : RamAccess s va n) (h : HoldsLe s va n v) : readWhole va n s = .done v.toNat s := by
  simp [readWhole, (accessCheck_ram_iff s va hn).mpr hr, readLe_of_holds h]

theorem allMag_iff (map : MemoryMap) (g : Mag) (n : Nat) :
    ∀ a, allMag map g a n = true ↔ ∀ i, i < n → (attrAt map (a + i)).mag = g := by
  induction n with
  | zero => intro a; simp [allMag]
  | succ n ih =>
    intro a
    simp only [allMag, Bool.and_eq_true, beq_iff_eq, ih]
    constructor
    · rintro ⟨h0, h⟩ i hi
      cases i with
      | zero => exact h0
      | succ i => have := h i (by omega); rwa [show a + 1 + i = a + (i + 1) by omega] at this
    · intro h
      refine ⟨h 0 (by omega), fun i hi => ?_⟩
      have := h (i + 1) (by omega)
      rwa [show a + (i + 1) = a + 1 + i by omega] at this

theorem inBlock_iff {g n : Nat} (hg : 0 < g) (hn : 0 < n) (a : Nat) : inBlock g a n = true ↔ a % g + n ≤ g := by
  simp only [inBlock, beq_iff_eq]
  have h1 := Nat.div_add_mod a g
  have h2 := Nat.mod_lt a hg
  constructor
  · intro h
    have h3 := Nat.div_add_mod (a + n - 1) g
    have h4 := Nat.mod_lt (a + n - 1) hg
    rw [← h] at h3
    omega
  · intro h
    rw [show a + n - 1 = g * (a / g) + (a % g + n - 1) by omega, Nat.mul_add_div hg,
      Nat.div_eq_of_lt (a := a % g + n - 1) (by omega)]
    omega

/-- `misaligned_is_atomic?` is `Atomic` (R212). -/
theorem misalignedAtomic_iff (s : State) (va : Word) {n : Nat} (hn : 0 < n) :
    misalignedAtomic s.cfg va.toNat n = true ↔ Atomic s va n := by
  simp only [misalignedAtomic, Atomic, Bool.and_eq_true, Bool.or_eq_true, allMag_iff,
    inBlock_iff (g := 16) (by omega) hn, inBlock_iff (g := 8) (by omega) hn, inBlock_iff (g := 4) (by omega) hn,
    inBlock_iff (g := 2) (by omega) hn]
  simp
  tauto

/-- An aligned or atomic read is one checked read (R214). -/
theorem memRead_whole {s : State} {va : Word} {n : Nat} (hn : 0 < n) (h : va.toNat % n = 0 ∨ Atomic s va n) :
    memRead va n s = readWhole va n s := by
  unfold memRead
  by_cases ha : aligned va n = true
  · rw [if_pos ha]
  · have h1 : va.toNat % n ≠ 0 := by simpa [aligned] using ha
    rw [if_neg ha, if_pos ((misalignedAtomic_iff s va hn).mpr (h.resolve_left h1))]

/-- An aligned or atomic write is one checked write (R215). -/
theorem memWrite_whole {s : State} {va : Word} {n : Nat} (hn : 0 < n) (v : Nat)
    (h : va.toNat % n = 0 ∨ Atomic s va n) : memWrite va n v s = writeWhole va n v s := by
  unfold memWrite
  by_cases ha : aligned va n = true
  · rw [if_pos ha]
  · have h1 : va.toNat % n ≠ 0 := by simpa [aligned] using ha
    rw [if_neg ha, if_pos ((misalignedAtomic_iff s va hn).mpr (h.resolve_left h1))]

/-! ## Split accesses -/

theorem add_one_add_ofNat (va : Word) (k : Nat) : va + 1 + BitVec.ofNat 64 k = va + BitVec.ofNat 64 (k + 1) := by
  rw [BitVec.add_assoc]
  congr 1
  apply BitVec.eq_of_toNat_eq
  simp [Nat.add_comm]

theorem add_ofNat_inj (va : Word) {k j : Nat} (hk : k < 2 ^ 64) (hj : j < 2 ^ 64)
    (h : (va + BitVec.ofNat 64 k).toNat = (va + BitVec.ofNat 64 j).toNat) : k = j := by
  simp only [BitVec.toNat_add, BitVec.toNat_ofNat] at h
  omega

theorem readWhole_byte {s : State} {va : Word} {b : Byte} (hr : RamAccess s va 1) (hb : s.mem.get? va.toNat = some b) :
    readWhole va 1 s = .done b.toNat s := by
  simp [readWhole, (accessCheck_ram_iff s va (by omega)).mpr hr, readLe, hb]

theorem writeWhole_byte {s : State} {va : Word} (v : Nat) (hr : RamAccess s va 1) :
    writeWhole va 1 (v % 256) s = .done () { s with mem := s.mem.set va.toNat (BitVec.ofNat 8 v) } := by
  simp only [writeWhole, (accessCheck_ram_iff s va (by omega)).mpr hr, writeLe]
  congr 3
  apply BitVec.eq_of_toNat_eq
  simp

/-- A split read of memory joins its bytes (R213). -/
theorem readSplit_ram (n : Nat) : ∀ (va : Word) (s : State) (v : Nat), SplitRam s va n →
    (∀ k, k < n → s.mem.get? (va + BitVec.ofNat 64 k).toNat = some (BitVec.ofNat 8 (v / 256 ^ k))) →
    readSplit va n s = .done (v % 256 ^ n) s := by
  induction n with
  | zero => intro va s v _ _; simp [readSplit, Nat.mod_one]
  | succ n ih =>
    intro va s v hr h
    have r0 := hr 0 (by omega)
    have h0 := h 0 (by omega)
    simp only [BitVec.add_zero, pow_zero, Nat.div_one] at r0 h0
    have h1 := ih (va + 1) s (v / 256) (fun k hk => by rw [add_one_add_ofNat]; exact hr _ (by omega)) (fun k hk => by
      rw [add_one_add_ofNat, h (k + 1) (by omega), Nat.div_div_eq_div_mul, pow_256_succ])
    simp only [readSplit, readWhole_byte r0 h0, h1, BitVec.toNat_ofNat]
    rw [pow_256_succ, Nat.mod_mul]

/-! ## Split accesses that reach devices -/

theorem deviceByte_add_one (s : State) (va : Word) (k : Nat) : deviceByte s (va + 1) k = deviceByte s va (k + 1) := by
  simp only [deviceByte, add_one_add_ofNat]

/-- The devices' bytes of an access are its first byte, if that is one, and those of the rest. -/
theorem deviceBytes_succ (s : State) (va : Word) (n : Nat) :
    deviceBytes s va (n + 1) = (if deviceByte s va 0 then [0] else []) ++ (deviceBytes s (va + 1) n).map (· + 1) := by
  have e : (deviceByte s va ∘ Nat.succ) = deviceByte s (va + 1) := by
    funext k
    exact (deviceByte_add_one s va k).symm
  rw [deviceBytes, List.range_succ_eq_map, List.filter_cons, List.filter_map, e]
  split <;> rfl

/-- The events of the devices' bytes, the latest first: those of the rest, then that of the first byte, if it has one. -/
theorem deviceEvents_succ (s : State) (va : Word) (n : Nat) (f : Nat → IoEvent) (log : List IoEvent) :
    ((deviceBytes s va (n + 1)).map f).reverse ++ log
      = ((deviceBytes s (va + 1) n).map fun k => f (k + 1)).reverse
        ++ ((if deviceByte s va 0 then [f 0] else []) ++ log) := by
  rw [deviceBytes_succ]
  split <;> simp [Function.comp_def]

/-- A byte that passes its check is memory or a device's. -/
theorem byte_passes {s : State} {va : Word} (h : ¬ BadAccess s va 1) :
    deviceByte s va 0 = false ∧ RamAccess s va 1 ∨ deviceByte s va 0 = true ∧ ∃ d, IoAccess s d va 1 := by
  rw [← accessCheck_denied_iff s va (by omega)] at h
  cases e : accessCheck s.cfg va.toNat 1 with
  | ram =>
    have r := (accessCheck_ram_iff s va (by omega)).mp e
    have k := r.2 0 (by omega)
    exact .inl ⟨by simp_all [deviceByte], r⟩
  | io d =>
    have r := (accessCheck_io_iff s d va (by omega)).mp e
    have k := r.2 0 (by omega)
    exact .inr ⟨by simp_all [deviceByte], d, r⟩
  | denied => exact absurd e h

/-- Memory is a split access that passes all its checks, and no byte of it is a device's. -/
theorem splitPasses_of_ram {s : State} {va : Word} {n : Nat} (h : SplitRam s va n) :
    SplitPasses s va n ∧ ∀ k, k < n → deviceByte s va k = false := by
  refine ⟨fun k hk b => b.1 (h k hk), fun k hk => ?_⟩
  have r := (h k hk).2 0 (by omega)
  simp only [Nat.add_zero] at r
  simp only [deviceByte, r]

theorem deviceBytes_of_ram {s : State} {va : Word} {n : Nat} (h : SplitRam s va n) : deviceBytes s va n = [] := by
  rw [deviceBytes, List.filter_eq_nil_iff]
  intro k hk
  rw [(splitPasses_of_ram h).2 k (List.mem_range.mp hk)]
  decide

theorem splitPasses_tail {s : State} {va : Word} {n : Nat} (h : SplitPasses s va (n + 1)) : SplitPasses s (va + 1) n :=
  fun k hk => by rw [add_one_add_ofNat]; exact h _ (by omega)

theorem splitPasses_head {s : State} {va : Word} {n : Nat} (h : SplitPasses s va (n + 1)) : ¬ BadAccess s va 1 := by
  have := h 0 (by omega)
  simpa using this

/-- The state after the first byte of a split read: the event of it, where it is a device's. -/
def byteRead (s : State) (va : Word) : State :=
  { s with ioLog := (if deviceByte s va 0 then [.read va.toNat 1] else []) ++ s.ioLog }

/-- One byte of a split read that passes its check: some byte, that of memory where it is memory, and the event where it is
a device's. -/
theorem readWhole_byte_passes {s : State} {va : Word} (h : ¬ BadAccess s va 1)
    (w : deviceByte s va 0 = false → (s.mem.get? va.toNat).isSome = true) :
    ∃ b : Byte, readWhole va 1 s = .done b.toNat (byteRead s va)
      ∧ (deviceByte s va 0 = false → s.mem.get? va.toNat = some b) := by
  rcases byte_passes h with ⟨hd, r⟩ | ⟨hd, d, r⟩
  · obtain ⟨b, hb⟩ := Option.isSome_iff_exists.mp (w hd)
    exact ⟨b, by rw [readWhole_byte r hb, byteRead, hd]; rfl, fun _ => hb⟩
  · refine ⟨(Config.ioReadValue s.ioLog.length va.toNat 1).setWidth 8, ?_, by simp [hd]⟩
    rw [readWhole, (accessCheck_io_iff s d va (by omega)).mpr r, byteRead, hd]
    simp

/-- A split read all of whose bytes pass their checks joins some bytes, those of memory among them, and is one host event
for each device's byte (R213, R231). -/
theorem readSplit_passes (n : Nat) : ∀ (va : Word) (s : State), SplitPasses s va n →
    (∀ k, k < n → deviceByte s va k = false → (s.mem.get? (va + BitVec.ofNat 64 k).toNat).isSome = true) →
    ∃ v t, v < 256 ^ n ∧ readSplit va n s = .done v t ∧ DeviceReads va n s t ∧ t = { s with ioLog := t.ioLog }
      ∧ ∀ k, k < n → deviceByte s va k = false →
          s.mem.get? (va + BitVec.ofNat 64 k).toNat = some (BitVec.ofNat 8 (v / 256 ^ k)) := by
  induction n with
  | zero => intro va s _ _; exact ⟨0, s, by simp, rfl, rfl, rfl, fun k hk => by omega⟩
  | succ n ih =>
    intro va s hp hw
    obtain ⟨b, hb, hm⟩ := readWhole_byte_passes (splitPasses_head hp)
      (fun hd => by simpa using hw 0 (by omega) hd)
    obtain ⟨v, t, hv, hr, hl, ht, hk⟩ := ih (va + 1) (byteRead s va) (splitPasses_tail hp) (fun k hk hd => by
      rw [add_one_add_ofNat]
      exact hw (k + 1) (by omega) (by rw [← deviceByte_add_one]; exact hd))
    have bl := b.isLt
    refine ⟨b.toNat + 256 * v, t, by rw [pow_256_succ]; omega, by simp only [readSplit, hb, hr],
      ?_, by rw [ht]; rfl, ?_⟩
    · rw [DeviceReads, deviceEvents_succ, hl]
      simp only [add_one_add_ofNat, BitVec.add_zero, byteRead]
      rfl
    · intro k hk' hd
      cases k with
      | zero =>
        simp only [BitVec.add_zero, pow_zero, Nat.div_one]
        rw [hm hd]
        congr 1
        apply BitVec.eq_of_toNat_eq
        simp
        omega
      | succ k =>
        rw [← add_one_add_ofNat, show s.mem.get? (va + 1 + BitVec.ofNat 64 k).toNat = some (BitVec.ofNat 8 (v / 256 ^ k))
          from hk k (by omega) (by rw [show deviceByte (byteRead s va) (va + 1) k = _ from deviceByte_add_one s va k]; exact hd),
          pow_256_succ, ← Nat.div_div_eq_div_mul]
        congr 3
        omega

/-- A split read faults at its first bad byte, the devices before it accessed (R213). -/
theorem readSplit_bad (j : Nat) : ∀ (n : Nat) (va : Word) (s : State), j < n → SplitPasses s va j →
    BadAccess s (va + BitVec.ofNat 64 j) 1 →
    (∀ k, k < j → deviceByte s va k = false → (s.mem.get? (va + BitVec.ofNat 64 k).toNat).isSome = true) →
    ∃ t, readSplit va n s = .trap .loadAccessFault (va + BitVec.ofNat 64 j) t ∧ DeviceReads va j s t
      ∧ t = { s with ioLog := t.ioLog } := by
  induction j with
  | zero =>
    intro n va s hj _ hb _
    obtain ⟨n, rfl⟩ : ∃ m, n = m + 1 := ⟨n - 1, by omega⟩
    simp only [BitVec.add_zero] at hb ⊢
    refine ⟨s, ?_, rfl, rfl⟩
    simp only [readSplit, readWhole, (accessCheck_denied_iff s va (by omega)).mpr hb]
  | succ j ih =>
    intro n va s hj hp hb hw
    obtain ⟨n, rfl⟩ : ∃ m, n = m + 1 := ⟨n - 1, by omega⟩
    obtain ⟨b, h0, -⟩ := readWhole_byte_passes (splitPasses_head hp) (fun hd => by simpa using hw 0 (by omega) hd)
    obtain ⟨t, hr, hl, ht⟩ := ih n (va + 1) (byteRead s va) (by omega) (splitPasses_tail hp)
      (by rw [add_one_add_ofNat]; exact hb) (fun k hk hd => by
        rw [add_one_add_ofNat]
        exact hw (k + 1) (by omega) (by rw [← deviceByte_add_one]; exact hd))
    refine ⟨t, ?_, ?_, by rw [ht]; rfl⟩
    · simp only [readSplit, h0, hr, add_one_add_ofNat]
    · rw [DeviceReads, deviceEvents_succ, hl]
      simp only [add_one_add_ofNat, BitVec.add_zero, byteRead]
      rfl

/-- A split read stops at its first byte of memory that nothing has written. -/
theorem readSplit_unwritten (j : Nat) : ∀ (n : Nat) (va : Word) (s : State), j < n → SplitPasses s va j →
    (∀ k, k < j → deviceByte s va k = false → (s.mem.get? (va + BitVec.ofNat 64 k).toNat).isSome = true) →
    RamAccess s (va + BitVec.ofNat 64 j) 1 → s.mem.get? (va + BitVec.ofNat 64 j).toNat = none →
    readSplit va n s = .stuck (.unwrittenByte (va + BitVec.ofNat 64 j).toNat) := by
  induction j with
  | zero =>
    intro n va s hj _ _ hr hn
    obtain ⟨n, rfl⟩ : ∃ m, n = m + 1 := ⟨n - 1, by omega⟩
    simp only [BitVec.add_zero] at hr hn ⊢
    simp only [readSplit, readWhole, (accessCheck_ram_iff s va (by omega)).mpr hr, readLe, hn]
  | succ j ih =>
    intro n va s hj hp hw hr hn
    obtain ⟨n, rfl⟩ : ∃ m, n = m + 1 := ⟨n - 1, by omega⟩
    obtain ⟨b, h0, -⟩ := readWhole_byte_passes (splitPasses_head hp) (fun hd => by simpa using hw 0 (by omega) hd)
    have h1 := ih n (va + 1) (byteRead s va) (by omega)
      (splitPasses_tail hp) (fun k hk hd => by
        rw [add_one_add_ofNat]
        exact hw (k + 1) (by omega) (by rw [← deviceByte_add_one]; exact hd))
      (by rw [add_one_add_ofNat]; exact hr) (by rw [add_one_add_ofNat]; exact hn)
    simp only [readSplit, h0, h1, add_one_add_ofNat]

/-- The state after the first byte of a split write: memory has the byte, or the host saw it. -/
def byteWritten (s : State) (va : Word) (v : Nat) : State :=
  { s with
    mem := if deviceByte s va 0 then s.mem else s.mem.set va.toNat (BitVec.ofNat 8 v)
    ioLog := (if deviceByte s va 0 then [.write va.toNat 1 (v % 256)] else []) ++ s.ioLog }

/-- One byte of a split write that passes its check: memory has the byte, or the host sees it. -/
theorem writeWhole_byte_passes {s : State} {va : Word} (v : Nat) (h : ¬ BadAccess s va 1) :
    writeWhole va 1 (v % 256) s = .done () (byteWritten s va v) := by
  rcases byte_passes h with ⟨hd, r⟩ | ⟨hd, d, r⟩
  · rw [writeWhole_byte v r, byteWritten, hd]; rfl
  · rw [writeWhole, (accessCheck_io_iff s d va (by omega)).mpr r, byteWritten, hd]
    simp

/-- The bytes of memory `m` after the first `j` bytes of `v` were written at `va`, those of devices left out. -/
def SplitWrittenBytes (s : State) (va : Word) (j v : Nat) (m : Memory) : Prop :=
  (∀ k, k < j → deviceByte s va k = false →
      m.get? (va + BitVec.ofNat 64 k).toNat = some (BitVec.ofNat 8 (v / 256 ^ k)))
    ∧ ∀ a, (∀ k, k < j → deviceByte s va k = false → a ≠ (va + BitVec.ofNat 64 k).toNat) → m.get? a = s.mem.get? a

/-- One more byte in front. -/
theorem splitWrittenBytes_succ {s : State} {va : Word} {j v : Nat} {m : Memory} (hj : j < 8)
    (h : SplitWrittenBytes (byteWritten s va v) (va + 1) j (v / 256) m) : SplitWrittenBytes s va (j + 1) v m := by
  have hm : (byteWritten s va v).mem = if deviceByte s va 0 then s.mem else s.mem.set va.toNat (BitVec.ofNat 8 v) := rfl
  have hb (k : Nat) : deviceByte (byteWritten s va v) (va + 1) k = deviceByte s va (k + 1) := deviceByte_add_one s va k
  obtain ⟨h2, h3⟩ := h
  constructor
  · intro k hk hd
    cases k with
    | zero =>
      rw [h3]
      · rw [hm, hd]
        simp [Memory.get?_set]
      · intro k hk _ e
        rw [add_one_add_ofNat] at e
        have := add_ofNat_inj va (k := 0) (j := k + 1) (by omega) (by omega) e
        omega
    | succ k =>
      rw [← add_one_add_ofNat, h2 k (by omega) (by rw [hb]; exact hd), Nat.div_div_eq_div_mul, pow_256_succ]
  · intro a ha
    rw [h3 a (fun k hk hd => by rw [add_one_add_ofNat]; exact ha _ (by omega) (by rw [← hb]; exact hd)), hm]
    split
    · rfl
    · rename_i hd
      have := ha 0 (by omega) (by simpa using hd)
      rw [Memory.get?_set, if_neg]
      simpa using this

/-- The host events of a split write: one for each device's byte of the first `j`, the latest first. -/
def SplitEvents (s : State) (va : Word) (j v : Nat) (log : List IoEvent) : Prop :=
  log = ((deviceBytes s va j).map fun k => IoEvent.write (va + BitVec.ofNat 64 k).toNat 1 (v / 256 ^ k % 256)).reverse
    ++ s.ioLog

theorem splitEvents_succ {s : State} {va : Word} {j v : Nat} {log : List IoEvent}
    (h : SplitEvents (byteWritten s va v) (va + 1) j (v / 256) log) : SplitEvents s va (j + 1) v log := by
  have hb : deviceBytes (byteWritten s va v) (va + 1) j = deviceBytes s (va + 1) j := rfl
  rw [SplitEvents, h, deviceEvents_succ, hb, byteWritten]
  simp only [add_one_add_ofNat, BitVec.add_zero, Nat.div_div_eq_div_mul, pow_256_succ, pow_zero, Nat.div_one]

/-- The value of an event is the byte of the word written. -/
theorem deviceWrites_of_splitEvents {s t : State} {va : Word} {j : Nat} {x : Word}
    (h : SplitEvents s va j x.toNat t.ioLog) : DeviceWrites va j x s t := by
  rw [DeviceWrites, h]
  congr 3
  funext k
  rw [← byte_of_word]
  simp

/-- A split write all of whose bytes pass their checks writes its bytes of memory and no other, and is one host event for
each device's byte (R213, R231). -/
theorem writeSplit_passes (n : Nat) : ∀ (va : Word) (v : Nat) (s : State), n ≤ 8 → SplitPasses s va n →
    ∃ m log, writeSplit va n v s = .done () { s with mem := m, ioLog := log } ∧ SplitWrittenBytes s va n v m
      ∧ SplitEvents s va n v log := by
  induction n with
  | zero => intro va v s _ _; exact ⟨s.mem, s.ioLog, rfl, ⟨fun k hk => by omega, fun _ _ => rfl⟩, rfl⟩
  | succ n ih =>
    intro va v s hn hp
    have h0 := writeWhole_byte_passes v (splitPasses_head hp)
    obtain ⟨m, log, h1, h2, h3⟩ := ih (va + 1) (v / 256) (byteWritten s va v) (by omega) (splitPasses_tail hp)
    exact ⟨m, log, by simp only [writeSplit, h0, h1]; rfl, splitWrittenBytes_succ (by omega) h2,
      splitEvents_succ h3⟩

/-- A split write to memory writes its bytes and no other (R213). -/
theorem writeSplit_ram {n : Nat} {va : Word} (v : Nat) {s : State} (hn : n ≤ 8) (h : SplitRam s va n) :
    ∃ m, writeSplit va n v s = .done () { s with mem := m }
      ∧ (∀ k, k < n → m.get? (va + BitVec.ofNat 64 k).toNat = some (BitVec.ofNat 8 (v / 256 ^ k)))
      ∧ ∀ a, (∀ k, k < n → a ≠ (va + BitVec.ofNat 64 k).toNat) → m.get? a = s.mem.get? a := by
  obtain ⟨hp, hd⟩ := splitPasses_of_ram h
  obtain ⟨m, log, h1, h2, h3⟩ := writeSplit_passes n va v s hn hp
  rw [SplitEvents, deviceBytes_of_ram h] at h3
  subst h3
  exact ⟨m, h1, fun k hk => h2.1 k hk (hd k hk), fun a ha => h2.2 a fun k hk _ => ha k hk⟩

/-- A split write faults at its first bad byte, the bytes before it written (R213). -/
theorem writeSplit_bad (j : Nat) : ∀ (n : Nat) (va : Word) (v : Nat) (s : State), n ≤ 8 → j < n → SplitPasses s va j →
    BadAccess s (va + BitVec.ofNat 64 j) 1 →
    ∃ m log, writeSplit va n v s
        = .trap .storeAmoAccessFault (va + BitVec.ofNat 64 j) { s with mem := m, ioLog := log }
      ∧ SplitWrittenBytes s va j v m ∧ SplitEvents s va j v log := by
  induction j with
  | zero =>
    intro n va v s _ hj _ hb
    obtain ⟨n, rfl⟩ : ∃ m, n = m + 1 := ⟨n - 1, by omega⟩
    simp only [BitVec.add_zero] at hb ⊢
    refine ⟨s.mem, s.ioLog, ?_, ⟨fun k hk => by omega, fun _ _ => rfl⟩, rfl⟩
    simp only [writeSplit, writeWhole, (accessCheck_denied_iff s va (by omega)).mpr hb]
  | succ j ih =>
    intro n va v s hn hj hp hb
    obtain ⟨n, rfl⟩ : ∃ m, n = m + 1 := ⟨n - 1, by omega⟩
    have h0 := writeWhole_byte_passes v (splitPasses_head hp)
    obtain ⟨m, log, h1, h2, h3⟩ := ih n (va + 1) (v / 256) (byteWritten s va v) (by omega) (by omega) (splitPasses_tail hp)
      (by rw [add_one_add_ofNat]; exact hb)
    exact ⟨m, log, by simp only [writeSplit, h0, h1, add_one_add_ofNat]; rfl, splitWrittenBytes_succ (by omega) h2,
      splitEvents_succ h3⟩

/-- The bytes of a word written by a split store. -/
theorem splitStored_of_bytes {s t : State} {va : Word} {j : Nat} {x : Word}
    (h : SplitWrittenBytes s va j x.toNat t.mem) : SplitStored va j x s t :=
  ⟨fun k hk hd => by rw [h.1 k hk hd, byte_of_word], h.2⟩

/-- A misaligned read that no granule makes atomic goes byte by byte (R214). -/
theorem memRead_split {s : State} {va : Word} {n : Nat} (hn : 0 < n) (h : va.toNat % n ≠ 0) (ha : ¬ Atomic s va n)
    (hm : s.cfg.misalignedLdst = true) : memRead va n s = readSplit va n s := by
  unfold memRead
  rw [if_neg (by simpa [aligned] using h), if_neg (by rwa [misalignedAtomic_iff s va hn]), if_pos hm]

/-- A misaligned write that no granule makes atomic goes byte by byte (R215). -/
theorem memWrite_split {s : State} {va : Word} {n : Nat} (hn : 0 < n) (v : Nat) (h : va.toNat % n ≠ 0)
    (ha : ¬ Atomic s va n) (hm : s.cfg.misalignedLdst = true) : memWrite va n v s = writeSplit va n v s := by
  unfold memWrite
  rw [if_neg (by simpa [aligned] using h), if_neg (by rwa [misalignedAtomic_iff s va hn]), if_pos hm]

/-! ## The loads and the stores -/

theorem access_size {i : Instr} {s : State} {va : Word} {n : Nat} (h : i.access s = some (va, n)) : 0 < n ∧ n ≤ 8 := by
  cases i <;> simp [Instr.access] at h <;> omega

theorem sext_ofNat (n v : Nat) : (sext (BitVec.ofNat (8 * n) v) : Word) = BitVec.ofInt 64 (Int.bmod v (2 ^ (8 * n))) := by
  rw [sext, BitVec.signExtend, BitVec.toInt_eq_toNat_bmod, BitVec.toNat_ofNat, Int.natCast_emod, Int.emod_bmod]

/-- Every load is its read and then the write of the extended value. -/
theorem exec_load {i : Instr} {s : State} {va : Word} {n : Nat} (h : i.access s = some (va, n)) (hs : i.isStore = false) :
    ∃ xd, i.dest = some xd
      ∧ exec i s = (memRead va n s).finish fun v s' => retire i.len (writeReg xd (i.loaded n v) s') := by
  cases i <;> simp only [Instr.access, Option.some.injEq, Prod.mk.injEq, reduceCtorEq] at h <;>
    simp only [Instr.isStore, reduceCtorEq] at hs
  all_goals obtain ⟨rfl, rfl⟩ := h
  all_goals refine ⟨_, rfl, ?_⟩
  all_goals simp only [exec, execLb, execLh, execLw, execLd, execLbu, execLhu, execLwu, execCLw, execCLd, execCLwsp,
    execCLdsp, loadSigned, loadUnsigned, Instr.loaded, sext_ofNat, Instr.len]
  all_goals congr 1
  all_goals first
    | rfl
    | (funext v s'; congr 2; apply BitVec.eq_of_toNat_eq; simp [zext])

/-- Every store is `store`. -/
theorem exec_store {i : Instr} {s : State} {va : Word} {n : Nat} (h : i.access s = some (va, n)) (hs : i.isStore = true) :
    exec i s = store i.len n i.storeSource va s := by
  cases i <;> simp only [Instr.access, Option.some.injEq, Prod.mk.injEq, reduceCtorEq] at h <;>
    simp only [Instr.isStore, reduceCtorEq] at hs
  all_goals obtain ⟨rfl, rfl⟩ := h
  all_goals rfl

end Sys2Proof.Machine
end

