-- ==== Sys2Proof/Laws/Csr.lean ====
section
/-! SUPPORT. The CSR instructions: each as one call of the access path, which CSR an address names, and what the legality
tests of `mcause` and `mtvec` mean in numbers. -/

-- One thread at a time: many small theorems at once ask for more threads than the checker's memory limit allows.
set_option Elab.async false

namespace Sys2Proof.Machine

/-- An address names the CSR that has it, if the configuration has that CSR (R47, R411). -/
theorem csrLookup_address {c : Config} {r : Csr} (h : r.exists? c = true) : csrLookup c r.address = some r := by
  unfold csrLookup
  cases r <;> simp only [Csr.exists?] at h <;> simp [Csr.all, Csr.address, Csr.exists?, h]

theorem csrImm_eq (u : BitVec 5) : csrImm u = BitVec.ofNat 64 u.toNat := by
  apply BitVec.eq_of_toNat_eq
  simp [csrImm, zext]

theorem exec_csrrw (xd : Reg) (a : CsrAddr) (xs1 : Reg) (s : State) :
    exec (.csrrw xd a xs1) s = csrAccess (insOf (.csrrw xd a xs1)) a xd true (fun _ => readReg xs1 s) s := rfl

theorem exec_csrrs (xd : Reg) (a : CsrAddr) (xs1 : Reg) (s : State) :
    exec (.csrrs xd a xs1) s
      = csrAccess (insOf (.csrrs xd a xs1)) a xd (xs1 != 0) (fun t => t ||| readReg xs1 s) s := rfl

theorem exec_csrrc (xd : Reg) (a : CsrAddr) (xs1 : Reg) (s : State) :
    exec (.csrrc xd a xs1) s
      = csrAccess (insOf (.csrrc xd a xs1)) a xd (xs1 != 0) (fun t => t &&& ~~~(readReg xs1 s)) s := rfl

theorem exec_csrrwi (xd : Reg) (a : CsrAddr) (u : BitVec 5) (s : State) :
    exec (.csrrwi xd a u) s = csrAccess (insOf (.csrrwi xd a u)) a xd true (fun _ => BitVec.ofNat 64 u.toNat) s := by
  show execCsrrwi xd a u s = _
  rw [execCsrrwi, csrImm_eq]

theorem exec_csrrsi (xd : Reg) (a : CsrAddr) (u : BitVec 5) (s : State) :
    exec (.csrrsi xd a u) s
      = csrAccess (insOf (.csrrsi xd a u)) a xd (u != 0) (fun t => t ||| BitVec.ofNat 64 u.toNat) s := by
  show execCsrrsi xd a u s = _
  rw [execCsrrsi, csrImm_eq]

theorem exec_csrrci (xd : Reg) (a : CsrAddr) (u : BitVec 5) (s : State) :
    exec (.csrrci xd a u) s
      = csrAccess (insOf (.csrrci xd a u)) a xd (u != 0) (fun t => t &&& ~~~(BitVec.ofNat 64 u.toNat)) s := by
  show execCsrrci xd a u s = _
  rw [execCsrrci, csrImm_eq]

/-- The validity test of `mcause` (R142). -/
theorem mcauseLegal_iff (s : State) (v : Word) : mcauseLegal s.cfg (mcauseOfWord v) = true ↔ CauseLegal s v := by
  unfold mcauseLegal CauseLegal mcauseOfWord bitOf
  simp only [BitVec.extractLsb'_toNat, Nat.shiftRight_zero]
  cases h : v.getLsbD 63
  · have h1 : v.toNat % 2 ^ 63 = v.toNat := by
      apply Nat.mod_eq_of_lt
      have := v.isLt
      rw [BitVec.getLsbD, Nat.testBit_eq_decide_div_mod_eq] at h
      simp at h
      omega
    rw [h1]
    simp
  · simp

/-- The value of `mtvec` as a number. -/
theorem toNat_mtvecWord (t : Mtvec) : (mtvecWord t).toNat = 4 * t.base.toNat + (modeBits t.mode).toNat := by
  have h := t.base.isLt
  have h2 := (modeBits t.mode).isLt
  rw [mtvecWord, BitVec.toNat_append, Nat.shiftLeft_eq, Nat.mul_comm]
  have := Nat.two_pow_add_eq_or_of_lt (i := 2) (b := (modeBits t.mode).toNat) (by omega) t.base.toNat
  omega

/-- A legal `mtvec` is one that would be accepted. -/
theorem mtvecAccepts_of_legal {s : State} {t : Mtvec} (h : mtvecLegal s.cfg t = true) : MtvecAccepts s (mtvecWord t) := by
  unfold MtvecAccepts
  simp only [mtvecLegal, Bool.and_eq_true, beq_iff_eq, toNat_target] at h
  rw [toNat_mtvecWord]
  cases hm : t.mode
  · left; rw [hm] at h; simp only [modeBits, mtvecModeOk, mtvecAlign] at *; exact ⟨by simp, h.1, by simpa using h.2⟩
  · right; rw [hm] at h; simp only [modeBits, mtvecModeOk, mtvecAlign] at *; exact ⟨by simp, h.1, by simpa using h.2⟩

/-- The legality test of a write of `mtvec` (R131, R132). -/
theorem mtvecLegalOfWord_cases (s : State) (v : Word) :
    (∃ t, mtvecLegalOfWord s.cfg v = some t ∧ mtvecLegal s.cfg t = true ∧ MtvecAccepts s v
        ∧ t.base.toNat = v.toNat / 4 ∧ t.mode = if v.toNat % 4 = 0 then .direct else .vectored)
      ∨ mtvecLegalOfWord s.cfg v = none ∧ ¬ MtvecAccepts s v := by
  have e0 : v.extractLsb' 0 2 = 0 ↔ v.toNat % 4 = 0 := by
    constructor
    · intro h
      have := congrArg BitVec.toNat h
      simpa [BitVec.extractLsb'_toNat] using this
    · intro h
      apply BitVec.eq_of_toNat_eq
      simpa [BitVec.extractLsb'_toNat] using h
  have e1 : v.extractLsb' 0 2 = 1 ↔ v.toNat % 4 = 1 := by
    constructor
    · intro h
      have := congrArg BitVec.toNat h
      simpa [BitVec.extractLsb'_toNat] using this
    · intro h
      apply BitVec.eq_of_toNat_eq
      simpa [BitVec.extractLsb'_toNat] using h
  have hb : (v.extractLsb' 2 62).toNat = v.toNat / 4 := by
    rw [BitVec.extractLsb'_toNat, Nat.shiftRight_eq_div_pow]
    apply Nat.mod_eq_of_lt
    have := v.isLt
    omega
  unfold mtvecLegalOfWord mtvecOfWord MtvecAccepts
  by_cases h0 : v.toNat % 4 = 0
  · rw [if_pos (e0.mpr h0)]
    have hl : mtvecLegal s.cfg { base := v.extractLsb' 2 62, mode := .direct } = true
        ↔ s.cfg.mtvecDirectOk = true ∧ v.toNat % 2 ^ s.cfg.mtvecAlignDirect = 0 := by
      simp only [mtvecLegal, mtvecModeOk, mtvecAlign, toNat_target, hb, show 4 * (v.toNat / 4) = v.toNat by omega,
        Bool.and_eq_true, beq_iff_eq]
    by_cases hc : s.cfg.mtvecDirectOk = true ∧ v.toNat % 2 ^ s.cfg.mtvecAlignDirect = 0
    · exact .inl ⟨_, if_pos (hl.mpr hc), hl.mpr hc, .inl ⟨h0, hc⟩, hb, by rw [if_pos h0]⟩
    · exact .inr ⟨if_neg (fun h => hc (hl.mp h)), by rintro (⟨_, a⟩ | ⟨a, _⟩); exacts [hc a, by omega]⟩
  · rw [if_neg (fun h => h0 (e0.mp h))]
    by_cases h1 : v.toNat % 4 = 1
    · rw [if_pos (e1.mpr h1)]
      have hl : mtvecLegal s.cfg { base := v.extractLsb' 2 62, mode := .vectored } = true
          ↔ s.cfg.mtvecVectoredOk = true ∧ (v.toNat - 1) % 2 ^ s.cfg.mtvecAlignVectored = 0 := by
        simp only [mtvecLegal, mtvecModeOk, mtvecAlign, toNat_target, hb,
          show 4 * (v.toNat / 4) = v.toNat - 1 by omega, Bool.and_eq_true, beq_iff_eq]
      by_cases hc : s.cfg.mtvecVectoredOk = true ∧ (v.toNat - 1) % 2 ^ s.cfg.mtvecAlignVectored = 0
      · exact .inl ⟨_, if_pos (hl.mpr hc), hl.mpr hc, .inr ⟨h1, hc⟩, hb, by rw [if_neg h0]⟩
      · exact .inr ⟨if_neg (fun h => hc (hl.mp h)), by rintro (⟨a, _⟩ | ⟨_, a⟩); exacts [by omega, hc a]⟩
    · rw [if_neg (fun h => h1 (e1.mp h))]
      exact .inr ⟨rfl, by rintro (⟨a, _⟩ | ⟨a, _⟩) <;> omega⟩

/-- A software write leaves `mtvec` as `MtvecAfter` says. -/
theorem mtvecAfter_of_write {v : Word} {s t : State} (h : t.mtvec = mtvecWrite s.cfg s.mtvec v) : MtvecAfter v s t := by
  unfold MtvecAfter
  rw [h]
  unfold mtvecWrite
  cases s.cfg.mtvecAccess
  · simp
  · rcases mtvecLegalOfWord_cases s v with ⟨m, hl, _, ha, hb, hm⟩ | ⟨hl, ha⟩
    · simp [hl, ha, hb, hm]
    · simp only [hl, ha, mtvecIllegal, reduceCtorEq, IsEmpty.forall_iff, forall_const, true_and, not_false_eq_true]
      cases s.cfg.mtvecIllegalWrite
      · simp
      · refine ⟨by simp, fun _ => ?_⟩
        rcases mtvecLegalOfWord_cases s (Config.mtvecCustomWrite (mtvecWord s.mtvec) v) with ⟨m, hl', ho, _⟩ | ⟨hl', _⟩
        · rw [hl']; exact .inr (mtvecAccepts_of_legal ho)
        · rw [hl']; exact .inl rfl

end Sys2Proof.Machine
end

