-- ==== Sys2Proof/Laws/PerInstr.lean ====
section
/-! SUPPORT. One family of facts about every instruction, as syntax: its encoding announces its own length (R252). -/

-- One thread at a time: many small theorems at once ask for more threads than the checker's memory limit allows.
set_option Elab.async false

namespace Sys2Proof.Laws

/-- The halfword of an encoding that lies at the lowest address. -/
def firstHalf : Raw → BitVec 16
  | .half h => h
  | .word w => w.extractLsb' 0 16

theorem cOpOf_firstHalf_word (w : BitVec 32) :
    cOpOf (firstHalf (.word w)) = (opcodeOf w).extractLsb' 0 2 := by
  apply BitVec.eq_of_getLsbD_eq
  intro i hi
  simp only [cOpOf, firstHalf, opcodeOf, BitVec.getLsbD_extractLsb']
  interval_cases i <;> simp

/-- Bits 1:0 of the first halfword are 11 exactly when the instruction has 32 bits (R252). -/
def LengthRule.Statement (i : Instr) : Prop :=
  isWordHalf (firstHalf (encode i)) = ((encode i).length == 4)

theorem lengthRule_word (w : BitVec 32) (h : (opcodeOf w).extractLsb' 0 2 = 3) :
    isWordHalf (firstHalf (.word w)) = ((Raw.word w).length == 4) := by
  rw [isWordHalf, cOpOf_firstHalf_word, h]; rfl

theorem lengthRule_half (h : BitVec 16) (hop : cOpOf h ≠ 3) :
    isWordHalf (firstHalf (.half h)) = ((Raw.half h).length == 4) := by
  simp only [isWordHalf, firstHalf, Raw.length]
  exact beq_eq_false_iff_ne.mpr hop

theorem LengthRule.add (xd : Reg) (xs1 : Reg) (xs2 : Reg) : LengthRule.Statement (.add xd xs1 xs2) :=
  lengthRule_word _ (by simp)
theorem LengthRule.sub (xd : Reg) (xs1 : Reg) (xs2 : Reg) : LengthRule.Statement (.sub xd xs1 xs2) :=
  lengthRule_word _ (by simp)
theorem LengthRule.sll (xd : Reg) (xs1 : Reg) (xs2 : Reg) : LengthRule.Statement (.sll xd xs1 xs2) :=
  lengthRule_word _ (by simp)
theorem LengthRule.slt (xd : Reg) (xs1 : Reg) (xs2 : Reg) : LengthRule.Statement (.slt xd xs1 xs2) :=
  lengthRule_word _ (by simp)
theorem LengthRule.sltu (xd : Reg) (xs1 : Reg) (xs2 : Reg) : LengthRule.Statement (.sltu xd xs1 xs2) :=
  lengthRule_word _ (by simp)
theorem LengthRule.xor (xd : Reg) (xs1 : Reg) (xs2 : Reg) : LengthRule.Statement (.xor xd xs1 xs2) :=
  lengthRule_word _ (by simp)
theorem LengthRule.srl (xd : Reg) (xs1 : Reg) (xs2 : Reg) : LengthRule.Statement (.srl xd xs1 xs2) :=
  lengthRule_word _ (by simp)
theorem LengthRule.sra (xd : Reg) (xs1 : Reg) (xs2 : Reg) : LengthRule.Statement (.sra xd xs1 xs2) :=
  lengthRule_word _ (by simp)
theorem LengthRule.or (xd : Reg) (xs1 : Reg) (xs2 : Reg) : LengthRule.Statement (.or xd xs1 xs2) :=
  lengthRule_word _ (by simp)
theorem LengthRule.and (xd : Reg) (xs1 : Reg) (xs2 : Reg) : LengthRule.Statement (.and xd xs1 xs2) :=
  lengthRule_word _ (by simp)
theorem LengthRule.addi (xd : Reg) (xs1 : Reg) (imm : BitVec 12) : LengthRule.Statement (.addi xd xs1 imm) :=
  lengthRule_word _ (by simp)
theorem LengthRule.slti (xd : Reg) (xs1 : Reg) (imm : BitVec 12) : LengthRule.Statement (.slti xd xs1 imm) :=
  lengthRule_word _ (by simp)
theorem LengthRule.sltiu (xd : Reg) (xs1 : Reg) (imm : BitVec 12) : LengthRule.Statement (.sltiu xd xs1 imm) :=
  lengthRule_word _ (by simp)
theorem LengthRule.xori (xd : Reg) (xs1 : Reg) (imm : BitVec 12) : LengthRule.Statement (.xori xd xs1 imm) :=
  lengthRule_word _ (by simp)
theorem LengthRule.ori (xd : Reg) (xs1 : Reg) (imm : BitVec 12) : LengthRule.Statement (.ori xd xs1 imm) :=
  lengthRule_word _ (by simp)
theorem LengthRule.andi (xd : Reg) (xs1 : Reg) (imm : BitVec 12) : LengthRule.Statement (.andi xd xs1 imm) :=
  lengthRule_word _ (by simp)
theorem LengthRule.slli (xd : Reg) (xs1 : Reg) (shamt : BitVec 6) : LengthRule.Statement (.slli xd xs1 shamt) :=
  lengthRule_word _ (by simp)
theorem LengthRule.srli (xd : Reg) (xs1 : Reg) (shamt : BitVec 6) : LengthRule.Statement (.srli xd xs1 shamt) :=
  lengthRule_word _ (by simp)
theorem LengthRule.srai (xd : Reg) (xs1 : Reg) (shamt : BitVec 6) : LengthRule.Statement (.srai xd xs1 shamt) :=
  lengthRule_word _ (by simp)
theorem LengthRule.lui (xd : Reg) (imm : BitVec 20) : LengthRule.Statement (.lui xd imm) :=
  lengthRule_word _ (by simp)
theorem LengthRule.auipc (xd : Reg) (imm : BitVec 20) : LengthRule.Statement (.auipc xd imm) :=
  lengthRule_word _ (by simp)
theorem LengthRule.jal (xd : Reg) (imm : BitVec 20) : LengthRule.Statement (.jal xd imm) :=
  lengthRule_word _ (by simp)
theorem LengthRule.jalr (xd : Reg) (xs1 : Reg) (imm : BitVec 12) : LengthRule.Statement (.jalr xd xs1 imm) :=
  lengthRule_word _ (by simp)
theorem LengthRule.beq (xs1 : Reg) (xs2 : Reg) (imm : BitVec 12) : LengthRule.Statement (.beq xs1 xs2 imm) :=
  lengthRule_word _ (by simp)
theorem LengthRule.bne (xs1 : Reg) (xs2 : Reg) (imm : BitVec 12) : LengthRule.Statement (.bne xs1 xs2 imm) :=
  lengthRule_word _ (by simp)
theorem LengthRule.blt (xs1 : Reg) (xs2 : Reg) (imm : BitVec 12) : LengthRule.Statement (.blt xs1 xs2 imm) :=
  lengthRule_word _ (by simp)
theorem LengthRule.bge (xs1 : Reg) (xs2 : Reg) (imm : BitVec 12) : LengthRule.Statement (.bge xs1 xs2 imm) :=
  lengthRule_word _ (by simp)
theorem LengthRule.bltu (xs1 : Reg) (xs2 : Reg) (imm : BitVec 12) : LengthRule.Statement (.bltu xs1 xs2 imm) :=
  lengthRule_word _ (by simp)
theorem LengthRule.bgeu (xs1 : Reg) (xs2 : Reg) (imm : BitVec 12) : LengthRule.Statement (.bgeu xs1 xs2 imm) :=
  lengthRule_word _ (by simp)
theorem LengthRule.lb (xd : Reg) (xs1 : Reg) (imm : BitVec 12) : LengthRule.Statement (.lb xd xs1 imm) :=
  lengthRule_word _ (by simp)
theorem LengthRule.lh (xd : Reg) (xs1 : Reg) (imm : BitVec 12) : LengthRule.Statement (.lh xd xs1 imm) :=
  lengthRule_word _ (by simp)
theorem LengthRule.lw (xd : Reg) (xs1 : Reg) (imm : BitVec 12) : LengthRule.Statement (.lw xd xs1 imm) :=
  lengthRule_word _ (by simp)
theorem LengthRule.ld (xd : Reg) (xs1 : Reg) (imm : BitVec 12) : LengthRule.Statement (.ld xd xs1 imm) :=
  lengthRule_word _ (by simp)
theorem LengthRule.lbu (xd : Reg) (xs1 : Reg) (imm : BitVec 12) : LengthRule.Statement (.lbu xd xs1 imm) :=
  lengthRule_word _ (by simp)
theorem LengthRule.lhu (xd : Reg) (xs1 : Reg) (imm : BitVec 12) : LengthRule.Statement (.lhu xd xs1 imm) :=
  lengthRule_word _ (by simp)
theorem LengthRule.sb (xs1 : Reg) (xs2 : Reg) (imm : BitVec 12) : LengthRule.Statement (.sb xs1 xs2 imm) :=
  lengthRule_word _ (by simp)
theorem LengthRule.sh (xs1 : Reg) (xs2 : Reg) (imm : BitVec 12) : LengthRule.Statement (.sh xs1 xs2 imm) :=
  lengthRule_word _ (by simp)
theorem LengthRule.sw (xs1 : Reg) (xs2 : Reg) (imm : BitVec 12) : LengthRule.Statement (.sw xs1 xs2 imm) :=
  lengthRule_word _ (by simp)
theorem LengthRule.sd (xs1 : Reg) (xs2 : Reg) (imm : BitVec 12) : LengthRule.Statement (.sd xs1 xs2 imm) :=
  lengthRule_word _ (by simp)
theorem LengthRule.fence (fm : BitVec 4) (pred : BitVec 4) (succ : BitVec 4) (xs1 : Reg) (xd : Reg) : LengthRule.Statement (.fence fm pred succ xs1 xd) :=
  lengthRule_word _ (by simp)
theorem LengthRule.fenceTso (xs1 : Reg) (xd : Reg) : LengthRule.Statement (.fenceTso xs1 xd) :=
  lengthRule_word _ (by simp)
theorem LengthRule.ecall : LengthRule.Statement .ecall :=
  lengthRule_word _ (by decide)
theorem LengthRule.ebreak : LengthRule.Statement .ebreak :=
  lengthRule_word _ (by decide)
theorem LengthRule.mret : LengthRule.Statement .mret :=
  lengthRule_word _ (by decide)
theorem LengthRule.wfi : LengthRule.Statement .wfi :=
  lengthRule_word _ (by decide)
theorem LengthRule.csrrw (xd : Reg) (csr : CsrAddr) (xs1 : Reg) : LengthRule.Statement (.csrrw xd csr xs1) :=
  lengthRule_word _ (by simp)
theorem LengthRule.csrrs (xd : Reg) (csr : CsrAddr) (xs1 : Reg) : LengthRule.Statement (.csrrs xd csr xs1) :=
  lengthRule_word _ (by simp)
theorem LengthRule.csrrc (xd : Reg) (csr : CsrAddr) (xs1 : Reg) : LengthRule.Statement (.csrrc xd csr xs1) :=
  lengthRule_word _ (by simp)
theorem LengthRule.csrrwi (xd : Reg) (csr : CsrAddr) (uimm : BitVec 5) : LengthRule.Statement (.csrrwi xd csr uimm) :=
  lengthRule_word _ (by simp)
theorem LengthRule.csrrsi (xd : Reg) (csr : CsrAddr) (uimm : BitVec 5) : LengthRule.Statement (.csrrsi xd csr uimm) :=
  lengthRule_word _ (by simp)
theorem LengthRule.csrrci (xd : Reg) (csr : CsrAddr) (uimm : BitVec 5) : LengthRule.Statement (.csrrci xd csr uimm) :=
  lengthRule_word _ (by simp)
theorem LengthRule.mul (xd : Reg) (xs1 : Reg) (xs2 : Reg) : LengthRule.Statement (.mul xd xs1 xs2) :=
  lengthRule_word _ (by simp)
theorem LengthRule.mulh (xd : Reg) (xs1 : Reg) (xs2 : Reg) : LengthRule.Statement (.mulh xd xs1 xs2) :=
  lengthRule_word _ (by simp)
theorem LengthRule.mulhsu (xd : Reg) (xs1 : Reg) (xs2 : Reg) : LengthRule.Statement (.mulhsu xd xs1 xs2) :=
  lengthRule_word _ (by simp)
theorem LengthRule.mulhu (xd : Reg) (xs1 : Reg) (xs2 : Reg) : LengthRule.Statement (.mulhu xd xs1 xs2) :=
  lengthRule_word _ (by simp)
theorem LengthRule.div (xd : Reg) (xs1 : Reg) (xs2 : Reg) : LengthRule.Statement (.div xd xs1 xs2) :=
  lengthRule_word _ (by simp)
theorem LengthRule.divu (xd : Reg) (xs1 : Reg) (xs2 : Reg) : LengthRule.Statement (.divu xd xs1 xs2) :=
  lengthRule_word _ (by simp)
theorem LengthRule.rem (xd : Reg) (xs1 : Reg) (xs2 : Reg) : LengthRule.Statement (.rem xd xs1 xs2) :=
  lengthRule_word _ (by simp)
theorem LengthRule.remu (xd : Reg) (xs1 : Reg) (xs2 : Reg) : LengthRule.Statement (.remu xd xs1 xs2) :=
  lengthRule_word _ (by simp)
theorem LengthRule.addiw (xd : Reg) (xs1 : Reg) (imm : BitVec 12) : LengthRule.Statement (.addiw xd xs1 imm) :=
  lengthRule_word _ (by simp)
theorem LengthRule.slliw (xd : Reg) (xs1 : Reg) (shamt : BitVec 5) : LengthRule.Statement (.slliw xd xs1 shamt) :=
  lengthRule_word _ (by simp)
theorem LengthRule.srliw (xd : Reg) (xs1 : Reg) (shamt : BitVec 5) : LengthRule.Statement (.srliw xd xs1 shamt) :=
  lengthRule_word _ (by simp)
theorem LengthRule.sraiw (xd : Reg) (xs1 : Reg) (shamt : BitVec 5) : LengthRule.Statement (.sraiw xd xs1 shamt) :=
  lengthRule_word _ (by simp)
theorem LengthRule.addw (xd : Reg) (xs1 : Reg) (xs2 : Reg) : LengthRule.Statement (.addw xd xs1 xs2) :=
  lengthRule_word _ (by simp)
theorem LengthRule.subw (xd : Reg) (xs1 : Reg) (xs2 : Reg) : LengthRule.Statement (.subw xd xs1 xs2) :=
  lengthRule_word _ (by simp)
theorem LengthRule.sllw (xd : Reg) (xs1 : Reg) (xs2 : Reg) : LengthRule.Statement (.sllw xd xs1 xs2) :=
  lengthRule_word _ (by simp)
theorem LengthRule.srlw (xd : Reg) (xs1 : Reg) (xs2 : Reg) : LengthRule.Statement (.srlw xd xs1 xs2) :=
  lengthRule_word _ (by simp)
theorem LengthRule.sraw (xd : Reg) (xs1 : Reg) (xs2 : Reg) : LengthRule.Statement (.sraw xd xs1 xs2) :=
  lengthRule_word _ (by simp)
theorem LengthRule.lwu (xd : Reg) (xs1 : Reg) (imm : BitVec 12) : LengthRule.Statement (.lwu xd xs1 imm) :=
  lengthRule_word _ (by simp)
theorem LengthRule.mulw (xd : Reg) (xs1 : Reg) (xs2 : Reg) : LengthRule.Statement (.mulw xd xs1 xs2) :=
  lengthRule_word _ (by simp)
theorem LengthRule.divw (xd : Reg) (xs1 : Reg) (xs2 : Reg) : LengthRule.Statement (.divw xd xs1 xs2) :=
  lengthRule_word _ (by simp)
theorem LengthRule.divuw (xd : Reg) (xs1 : Reg) (xs2 : Reg) : LengthRule.Statement (.divuw xd xs1 xs2) :=
  lengthRule_word _ (by simp)
theorem LengthRule.remw (xd : Reg) (xs1 : Reg) (xs2 : Reg) : LengthRule.Statement (.remw xd xs1 xs2) :=
  lengthRule_word _ (by simp)
theorem LengthRule.remuw (xd : Reg) (xs1 : Reg) (xs2 : Reg) : LengthRule.Statement (.remuw xd xs1 xs2) :=
  lengthRule_word _ (by simp)
theorem LengthRule.cAddi4spn (xd : CReg) (imm : BitVec 8) : LengthRule.Statement (.cAddi4spn xd imm) :=
  lengthRule_half _ (by simp)
theorem LengthRule.cLw (xd : CReg) (xs1 : CReg) (imm : BitVec 5) : LengthRule.Statement (.cLw xd xs1 imm) :=
  lengthRule_half _ (by simp)
theorem LengthRule.cLd (xd : CReg) (xs1 : CReg) (imm : BitVec 5) : LengthRule.Statement (.cLd xd xs1 imm) :=
  lengthRule_half _ (by simp)
theorem LengthRule.cSw (xs1 : CReg) (xs2 : CReg) (imm : BitVec 5) : LengthRule.Statement (.cSw xs1 xs2 imm) :=
  lengthRule_half _ (by simp)
theorem LengthRule.cSd (xs1 : CReg) (xs2 : CReg) (imm : BitVec 5) : LengthRule.Statement (.cSd xs1 xs2 imm) :=
  lengthRule_half _ (by simp)
theorem LengthRule.cNop (imm : BitVec 6) : LengthRule.Statement (.cNop imm) :=
  lengthRule_half _ (by simp)
theorem LengthRule.cAddi (xd : Reg) (imm : BitVec 6) : LengthRule.Statement (.cAddi xd imm) :=
  lengthRule_half _ (by simp)
theorem LengthRule.cAddiw (xd : Reg) (imm : BitVec 6) : LengthRule.Statement (.cAddiw xd imm) :=
  lengthRule_half _ (by simp)
theorem LengthRule.cLi (xd : Reg) (imm : BitVec 6) : LengthRule.Statement (.cLi xd imm) :=
  lengthRule_half _ (by simp)
theorem LengthRule.cAddi16sp (imm : BitVec 6) : LengthRule.Statement (.cAddi16sp imm) :=
  lengthRule_half _ (by simp)
theorem LengthRule.cLui (xd : Reg) (imm : BitVec 6) : LengthRule.Statement (.cLui xd imm) :=
  lengthRule_half _ (by simp)
theorem LengthRule.cSrli (xd : CReg) (shamt : BitVec 6) : LengthRule.Statement (.cSrli xd shamt) :=
  lengthRule_half _ (by simp)
theorem LengthRule.cSrai (xd : CReg) (shamt : BitVec 6) : LengthRule.Statement (.cSrai xd shamt) :=
  lengthRule_half _ (by simp)
theorem LengthRule.cAndi (xd : CReg) (imm : BitVec 6) : LengthRule.Statement (.cAndi xd imm) :=
  lengthRule_half _ (by simp)
theorem LengthRule.cSub (xd : CReg) (xs2 : CReg) : LengthRule.Statement (.cSub xd xs2) :=
  lengthRule_half _ (by simp)
theorem LengthRule.cXor (xd : CReg) (xs2 : CReg) : LengthRule.Statement (.cXor xd xs2) :=
  lengthRule_half _ (by simp)
theorem LengthRule.cOr (xd : CReg) (xs2 : CReg) : LengthRule.Statement (.cOr xd xs2) :=
  lengthRule_half _ (by simp)
theorem LengthRule.cAnd (xd : CReg) (xs2 : CReg) : LengthRule.Statement (.cAnd xd xs2) :=
  lengthRule_half _ (by simp)
theorem LengthRule.cSubw (xd : CReg) (xs2 : CReg) : LengthRule.Statement (.cSubw xd xs2) :=
  lengthRule_half _ (by simp)
theorem LengthRule.cAddw (xd : CReg) (xs2 : CReg) : LengthRule.Statement (.cAddw xd xs2) :=
  lengthRule_half _ (by simp)
theorem LengthRule.cJ (imm : BitVec 11) : LengthRule.Statement (.cJ imm) :=
  lengthRule_half _ (by simp)
theorem LengthRule.cBeqz (xs1 : CReg) (imm : BitVec 8) : LengthRule.Statement (.cBeqz xs1 imm) :=
  lengthRule_half _ (by simp)
theorem LengthRule.cBnez (xs1 : CReg) (imm : BitVec 8) : LengthRule.Statement (.cBnez xs1 imm) :=
  lengthRule_half _ (by simp)
theorem LengthRule.cSlli (xd : Reg) (shamt : BitVec 6) : LengthRule.Statement (.cSlli xd shamt) :=
  lengthRule_half _ (by simp)
theorem LengthRule.cLwsp (xd : Reg) (imm : BitVec 6) : LengthRule.Statement (.cLwsp xd imm) :=
  lengthRule_half _ (by simp)
theorem LengthRule.cEbreak : LengthRule.Statement .cEbreak :=
  lengthRule_half _ (by decide)
theorem LengthRule.cLdsp (xd : Reg) (imm : BitVec 6) : LengthRule.Statement (.cLdsp xd imm) :=
  lengthRule_half _ (by simp)
theorem LengthRule.cJr (xs1 : Reg) : LengthRule.Statement (.cJr xs1) :=
  lengthRule_half _ (by simp)
theorem LengthRule.cMv (xd : Reg) (xs2 : Reg) : LengthRule.Statement (.cMv xd xs2) :=
  lengthRule_half _ (by simp)
theorem LengthRule.cJalr (xs1 : Reg) : LengthRule.Statement (.cJalr xs1) :=
  lengthRule_half _ (by simp)
theorem LengthRule.cAdd (xd : Reg) (xs2 : Reg) : LengthRule.Statement (.cAdd xd xs2) :=
  lengthRule_half _ (by simp)
theorem LengthRule.cSwsp (xs2 : Reg) (imm : BitVec 6) : LengthRule.Statement (.cSwsp xs2 imm) :=
  lengthRule_half _ (by simp)
theorem LengthRule.cSdsp (xs2 : Reg) (imm : BitVec 6) : LengthRule.Statement (.cSdsp xs2 imm) :=
  lengthRule_half _ (by simp)

end Sys2Proof.Laws
end

