-- ==== Sys2Proof/Tests/Slice0.lean ====
section
/-! SUPPORT. Tests: ill-formed terms, the decoding of words written out from the encodings, one step of each instruction
on values of spec/95_test_vectors.md Part 2, and for each statement with hypotheses a state and operands that meet them. -/

-- One thread at a time: many small theorems at once ask for more threads than the checker's memory limit allows.
set_option Elab.async false

namespace Sys2Proof.Tests

open Sys2Proof.Machine

/-! ## Well-formedness: one ill-formed term per check -/

theorem test_wellFormed_refuses :
    Instr.wellFormed (.fence 8 3 3 0 0) = false ∧ Instr.wellFormed (.cAddi4spn 1 0) = false
      ∧ Instr.wellFormed (.cAddi 0 1) = false ∧ Instr.wellFormed (.cAddiw 0 0) = false
      ∧ Instr.wellFormed (.cAddi16sp 0) = false ∧ Instr.wellFormed (.cLui 2 1) = false
      ∧ Instr.wellFormed (.cLui 1 0) = false ∧ Instr.wellFormed (.cLwsp 0 0) = false
      ∧ Instr.wellFormed (.cLdsp 0 0) = false ∧ Instr.wellFormed (.cJr 0) = false
      ∧ Instr.wellFormed (.cMv 1 0) = false ∧ Instr.wellFormed (.cJalr 0) = false
      ∧ Instr.wellFormed (.cAdd 1 0) = false := by decide

theorem test_wellFormed_accepts_neighbours :
    Instr.wellFormed (.fence 8 3 2 0 0) = true ∧ Instr.wellFormed (.fence 0 3 3 5 6) = true
      ∧ Instr.wellFormed (.cAddi4spn 0 1) = true ∧ Instr.wellFormed (.cLui 0 1) = true
      ∧ Instr.wellFormed (.cLi 0 0) = true ∧ Instr.wellFormed (.cSlli 0 0) = true
      ∧ Instr.wellFormed (.cMv 0 31) = true := by decide

/-! ## Decoding: each constructor from a word of the encodings (R266, R580, R600 to R632) -/

/-- The words of a list decode to the instructions beside them. -/
def decodesTo (nbits : Nat) (l : List (Nat × Instr)) : Bool :=
  l.all fun p => decodeTableWord nbits p.1 == some p.2

theorem test_decode_register_register :
    decodesTo 32
     [(0x007302B3, .add 5 6 7), (0x407302B3, .sub 5 6 7), (0x007372B3, .and 5 6 7), (0x007362B3, .or 5 6 7),
      (0x007342B3, .xor 5 6 7), (0x007312B3, .sll 5 6 7), (0x007352B3, .srl 5 6 7), (0x407352B3, .sra 5 6 7),
      (0x007322B3, .slt 5 6 7), (0x007332B3, .sltu 5 6 7)] = true := by decide +kernel

theorem test_decode_register_immediate :
    decodesTo 32
     [(0xFFF00093, .addi 1 0 0xFFF), (0x7FF08093, .addi 1 1 0x7FF), (0xFFF12093, .slti 1 2 0xFFF),
      (0xFFF13093, .sltiu 1 2 0xFFF), (0xFFF14093, .xori 1 2 0xFFF), (0x80016093, .ori 1 2 0x800),
      (0x0FF17093, .andi 1 2 0x0FF), (0x03F11093, .slli 1 2 63), (0x03F15093, .srli 1 2 63),
      (0x43F15093, .srai 1 2 63), (0x40115093, .srai 1 2 1), (0x800000B7, .lui 1 0x80000),
      (0x12345037, .lui 0 0x12345), (0xFFFFF097, .auipc 1 0xFFFFF)] = true := by decide +kernel

theorem test_decode_jumps_and_branches :
    decodesTo 32
     [(0x008000EF, .jal 1 4), (0xFFDFF06F, .jal 0 0xFFFFE), (0x7FFFF0EF, .jal 1 0x7FFFF),
      (0x800000EF, .jal 1 0x80000), (0x800280E7, .jalr 1 5 0x800), (0x00208863, .beq 1 2 8),
      (0xFE2098E3, .bne 1 2 0xFF8), (0x0020C463, .blt 1 2 4), (0x0020E463, .bltu 1 2 4),
      (0x0020D463, .bge 1 2 4), (0x0020F463, .bgeu 1 2 4), (0x7E000FE3, .beq 0 0 0x7FF),
      (0x80000063, .beq 0 0 0x800)] = true := by decide +kernel

theorem test_decode_loads_and_stores :
    decodesTo 32
     [(0x80030283, .lb 5 6 0x800), (0x00034283, .lbu 5 6 0), (0x00631283, .lh 5 6 6), (0x00035283, .lhu 5 6 0),
      (0x00432283, .lw 5 6 4), (0x00036283, .lwu 5 6 0), (0x00333283, .ld 5 6 3), (0xFE730FA3, .sb 6 7 0xFFF),
      (0x00731323, .sh 6 7 6), (0x00732223, .sw 6 7 4), (0xFE733EA3, .sd 6 7 0xFFD), (0x00703823, .sd 0 7 16)] = true := by decide +kernel

theorem test_decode_fence_and_system :
    decodesTo 32
     [(0x0330000F, .fence 0 3 3 0 0), (0x0FF3028F, .fence 0 15 15 6 5), (0x1FF0000F, .fence 1 15 15 0 0),
      (0x8FF0000F, .fence 8 15 15 0 0), (0x8330000F, .fenceTso 0 0), (0x83330F8F, .fenceTso 6 31),
      (0x00000073, .ecall), (0x00100073, .ebreak), (0x30200073, .mret), (0x10500073, .wfi)] = true := by decide +kernel

theorem test_decode_csr :
    decodesTo 32
     [(0x340312F3, .csrrw 5 0x340 6), (0xF11322F3, .csrrs 5 0xF11 6), (0x340332F3, .csrrc 5 0x340 6),
      (0x340FD2F3, .csrrwi 5 0x340 31), (0xF120E2F3, .csrrsi 5 0xF12 1), (0x30047073, .csrrci 0 0x300 8)] = true := by decide +kernel

theorem test_decode_multiply_divide :
    decodesTo 32
     [(0x027302B3, .mul 5 6 7), (0x027312B3, .mulh 5 6 7), (0x027322B3, .mulhsu 5 6 7),
      (0x027332B3, .mulhu 5 6 7), (0x027342B3, .div 5 6 7), (0x027352B3, .divu 5 6 7), (0x027362B3, .rem 5 6 7),
      (0x027372B3, .remu 5 6 7)] = true := by decide +kernel

theorem test_decode_word_operations :
    decodesTo 32
     [(0x0013029B, .addiw 5 6 1), (0x01F3129B, .slliw 5 6 31), (0x0003529B, .srliw 5 6 0),
      (0x4043529B, .sraiw 5 6 4), (0x007302BB, .addw 5 6 7), (0x407302BB, .subw 5 6 7),
      (0x007312BB, .sllw 5 6 7), (0x007352BB, .srlw 5 6 7), (0x407352BB, .sraw 5 6 7),
      (0x027302BB, .mulw 5 6 7), (0x027342BB, .divw 5 6 7), (0x027352BB, .divuw 5 6 7),
      (0x027362BB, .remw 5 6 7), (0x027372BB, .remuw 5 6 7)] = true := by decide +kernel

theorem test_decode_quadrant_0 :
    decodesTo 16
     [(0x0040, .cAddi4spn 0 1), (0x1FFC, .cAddi4spn 7 255), (0x41C8, .cLw 2 3 1), (0x6588, .cLd 2 3 1),
      (0xC1C8, .cSw 3 2 1), (0xE588, .cSd 3 2 1)] = true := by decide +kernel

theorem test_decode_quadrant_1 :
    decodesTo 16
     [(0x0001, .cNop 0), (0x0005, .cNop 1), (0x157D, .cAddi 10 0x3F), (0x00FD, .cAddi 1 31),
      (0x2505, .cAddiw 10 1), (0x5501, .cLi 10 0x20), (0x7139, .cAddi16sp 0x3C), (0x617D, .cAddi16sp 31),
      (0x757D, .cLui 10 0x3F), (0x907D, .cSrli 0 63), (0x8411, .cSrai 0 4), (0x9841, .cAndi 0 0x30),
      (0x8C05, .cSub 0 1), (0x8C25, .cXor 0 1), (0x8C45, .cOr 0 1), (0x8C65, .cAnd 0 1), (0x9C05, .cSubw 0 1),
      (0x9C25, .cAddw 0 1), (0xBFFD, .cJ 0x7FF), (0xAFFD, .cJ 0x3FF), (0xB001, .cJ 0x400), (0xC401, .cBeqz 0 4),
      (0xD001, .cBeqz 0 0x80), (0xEC7D, .cBnez 0 127), (0xFD6D, .cBnez 2 0xFD)] = true := by decide +kernel

theorem test_decode_quadrant_2 :
    decodesTo 16
     [(0x060A, .cSlli 12 2), (0x157E, .cSlli 10 63), (0x4512, .cLwsp 10 1), (0x6522, .cLdsp 10 1),
      (0xC22A, .cSwsp 10 1), (0xE42A, .cSdsp 10 1), (0x8082, .cJr 1), (0x9282, .cJalr 5), (0x862E, .cMv 12 11),
      (0x952E, .cAdd 10 11), (0x9002, .cEbreak)] = true := by decide +kernel

/-- Bits that are no instruction here (Part 2, 2.2, 2.5, 2.7, 2.10, 2.11). -/
theorem test_decode_refuses :
    ([0x04011093, 0x20015093, 0x0000100F, 0x0203129B, 0xFFFFFFFF, 0x000000F3, 0x10200073, 0x12000073, 0x70200073,
        0x00200073, 0x1002A2AF, 0x0002A007].all fun w => decodeTableWord 32 w == none) = true
      ∧ ([0x0000, 0x0004, 0x8002, 0x2001, 0x6001, 0x6101, 0x4002, 0x6002, 0x9C41, 0x8000, 0x2000, 0xA002].all
        fun w => decodeTableWord 16 w == none) = true := by decide +kernel

/-- R633: what needs `RV64_WORD_OPS` or `M_IMPLEMENTED` is no instruction without it. -/
theorem test_decode_parameters :
    decode { Config.standard with rv64WordOps := false } (.half 0x2505) = .error (.unimplemented (.half 0x2505))
      ∧ decode { Config.standard with rv64WordOps := false } (.word 0x00036283)
          = .error (.unimplemented (.word 0x00036283))
      ∧ decode { Config.standard with mImplemented := false } (.word 0x027302B3)
          = .error (.unimplemented (.word 0x027302B3))
      ∧ decode { Config.standard with cDecode := { table := .nothing, changes := [] } } (.half 0x0001)
          = .error (.unimplemented (.half 0x0001)) := by decide +kernel

/-- A `C_DECODE` of its own (R450): all of R633 but `c.nop`, and one halfword more for `c.jr x5`. -/
def cfgOwn : Config :=
  { Config.standard with cDecode := { table := .standard, changes := [(0x0001, none), (0x8002, some (.cJr 5))] } }

/-- R450: a halfword that `C_DECODE` leaves out is unimplemented, one it adds decodes, and its neighbours are as before. -/
theorem test_decode_own_function :
    legalConfig cfgOwn = true ∧ decode cfgOwn (.half 0x0001) = .error (.unimplemented (.half 0x0001))
      ∧ decode cfgOwn (.half 0x8002) = .ok (.cJr 5) ∧ decode cfgOwn (.half 0x0005) = .ok (.cNop 1) := by decide +kernel

/-- R450: a change that names the first half of a 32-bit instruction, or gives an instruction of another file, is none. -/
theorem test_decode_refuses_changes :
    cDecodeOk { table := .standard, changes := [(0x0003, none)] } = false
      ∧ cDecodeOk { table := .standard, changes := [(0x0001, some .ecall)] } = false
      ∧ cDecodeOk { table := .nothing, changes := [(0x0001, some (.cJr 0))] } = false := by decide +kernel

/-! ## One step of each instruction -/

/-- Configuration T of Part 3, with a halt rule that never holds. -/
def cfgT : Config :=
  { Config.standard with
    memoryMap :=
      { regions := [{ base := 0x80000000, size := 0x10000, attr := { kind := .ram, mag := .none } }]
        elsewhere := { kind := .vacant, mag := .none } } }

def start : State := State.boot cfgT Draws.zero

/-- A state with two registers set. -/
def two (r1 : Reg) (a : Word) (r2 : Reg) (b : Word) : State := writeReg r2 b (writeReg r1 a start)

/-- The step that runs the instruction placed at the pc, and what `f` sees after it. -/
def after {α : Type} (nbits w : Nat) (s : State) (f : State → α) : Option α :=
  match step (s.withFetchWord nbits w) with
  | .next t => some (f t)
  | _ => none

/-- `x5` after a 32-bit instruction on `x6` and `x7`. -/
def x5 (w : Nat) (a b : Word) : Option Word := after 32 w (two 6 a 7 b) (readReg 5)

/-- `x1` after a 32-bit instruction on `x2`. -/
def x1 (w : Nat) (a : Word) : Option Word := after 32 w (two 2 a 0 0) (readReg 1)

/-- What a trap leaves: `mepc`, the exception code, `mtval`, the pc. -/
def trapView (t : State) : Word × Nat × Word × Word := (t.mepc, t.mcause.code.toNat, t.mtval, t.pc)

theorem test_add :
    x5 0x007302B3 0x7FFFFFFFFFFFFFFF 1 = some 0x8000000000000000
      ∧ x5 0x007302B3 0xFFFFFFFFFFFFFFFF 1 = some 0 := by decide +kernel

theorem test_sub :
    x5 0x407302B3 0 1 = some 0xFFFFFFFFFFFFFFFF
      ∧ x5 0x407302B3 0x8000000000000000 1 = some 0x7FFFFFFFFFFFFFFF := by decide +kernel

theorem test_and :
    x5 0x007372B3 0xF0F0F0F0F0F0F0F0 0xFF00FF00FF00FF00 = some 0xF000F000F000F000 := by decide +kernel

theorem test_or :
    x5 0x007362B3 0xF0F0F0F0F0F0F0F0 0x0F0F0F0F0F0F0F00 = some 0xFFFFFFFFFFFFFFF0 := by decide +kernel

theorem test_xor :
    x5 0x007342B3 0xFFFFFFFFFFFFFFFF 0x123456789ABCDEF0 = some 0xEDCBA9876543210F := by decide +kernel

theorem test_sll :
    x5 0x007312B3 1 0x3F = some 0x8000000000000000
      ∧ x5 0x007312B3 1 0x40 = some 1 := by decide +kernel

theorem test_srl :
    x5 0x007352B3 0x8000000000000000 0x3F = some 1
      ∧ x5 0x007352B3 0xFFFFFFFFFFFFFFFF 0x7F = some 1 := by decide +kernel

theorem test_sra :
    x5 0x407352B3 0x8000000000000000 0x3F = some 0xFFFFFFFFFFFFFFFF
      ∧ x5 0x407352B3 0xFFFFFFFFFFFFFFF0 2 = some 0xFFFFFFFFFFFFFFFC := by decide +kernel

theorem test_slt :
    x5 0x007322B3 0xFFFFFFFFFFFFFFFF 0 = some 1
      ∧ x5 0x007322B3 0 0xFFFFFFFFFFFFFFFF = some 0 := by decide +kernel

theorem test_sltu :
    x5 0x007332B3 0xFFFFFFFFFFFFFFFF 0 = some 0
      ∧ x5 0x007332B3 0 0xFFFFFFFFFFFFFFFF = some 1 := by decide +kernel

theorem test_destination_x0 :
    after 32 0x00730033 (two 6 3 7 4) (fun t => (readReg 0 t, t.regs == (two 6 3 7 4).regs, t.pc)) = some (0, true, 0x80000004) := by decide +kernel

theorem test_addi :
    x1 0xFFF00093 0 = some 0xFFFFFFFFFFFFFFFF
      ∧ after 32 0x7FF08093 (two 1 0xFFFFFFFFFFFFFFFF 0 0) (readReg 1) = some 0x7FE := by decide +kernel

theorem test_slti :
    x1 0xFFF12093 0xFFFFFFFFFFFFFFFE = some 1 := by decide +kernel

theorem test_sltiu :
    x1 0xFFF13093 5 = some 1
      ∧ x1 0x00113093 9 = some 0 := by decide +kernel

theorem test_xori :
    x1 0xFFF14093 0x00FF00FF00FF00FF = some 0xFF00FF00FF00FF00 := by decide +kernel

theorem test_ori :
    x1 0x80016093 1 = some 0xFFFFFFFFFFFFF801 := by decide +kernel

theorem test_andi :
    x1 0x0FF17093 0x123456789ABCDEF0 = some 0xF0 := by decide +kernel

theorem test_slli :
    x1 0x03F11093 3 = some 0x8000000000000000 := by decide +kernel

theorem test_srli :
    x1 0x03F15093 0x8000000000000000 = some 1 := by decide +kernel

theorem test_srai :
    x1 0x43F15093 0x8000000000000000 = some 0xFFFFFFFFFFFFFFFF
      ∧ x1 0x40115093 0x4000000000000001 = some 0x2000000000000000 := by decide +kernel

theorem test_lui :
    x1 0x800000B7 0 = some 0xFFFFFFFF80000000
      ∧ x1 0x7FFFF0B7 0 = some 0x7FFFF000 := by decide +kernel

theorem test_auipc :
    x1 0xFFFFF097 0 = some 0x7FFFF000
      ∧ x1 0x80000097 0 = some 0 := by decide +kernel

/-- The pc and `x1` after an instruction on `x1` and `x2`. -/
def pc1 (w : Nat) (a b : Word) : Option (Word × Word) := after 32 w (two 1 a 2 b) (fun t => (t.pc, readReg 1 t))

theorem test_jal :
    pc1 0x008000EF 0 0 = some (0x80000008, 0x80000004)
      ∧ pc1 0x7FFFF0EF 0 0 = some (0x800FFFFE, 0x80000004) := by decide +kernel

theorem test_jalr :
    after 32 0x004282E7 (two 5 0x80000200 0 0) (fun t => (t.pc, readReg 5 t)) = some (0x80000204, 0x80000004)
      ∧ after 32 0xFFF28067 (two 5 0x80000204 0 0) (fun t => (t.pc, readReg 0 t)) = some (0x80000202, 0) := by decide +kernel

theorem test_beq :
    pc1 0x00208863 5 5 = some (0x80000010, 5)
      ∧ pc1 0x00208863 5 6 = some (0x80000004, 5) := by decide +kernel

theorem test_bne :
    after 32 0xFE2098E3 { two 1 5 2 6 with pc := 0x80000100 } (fun t => t.pc) = some 0x800000F0 := by decide +kernel

theorem test_blt :
    pc1 0x0020C463 0xFFFFFFFFFFFFFFFF 0 = some (0x80000008, 0xFFFFFFFFFFFFFFFF) := by decide +kernel

theorem test_bltu :
    pc1 0x0020E463 0xFFFFFFFFFFFFFFFF 0 = some (0x80000004, 0xFFFFFFFFFFFFFFFF) := by decide +kernel

theorem test_bge :
    pc1 0x0020D463 0 0xFFFFFFFFFFFFFFFF = some (0x80000008, 0)
      ∧ pc1 0x0020D463 7 7 = some (0x80000008, 7) := by decide +kernel

theorem test_bgeu :
    pc1 0x0020F463 0 0xFFFFFFFFFFFFFFFF = some (0x80000004, 0) := by decide +kernel

/-- A state with the bytes of the load vectors at 0x80001000, and two registers. -/
def loadState (r1 : Reg) (a : Word) : State :=
  { two r1 a 0 0 with
    mem := placeBytes [] 0x80001000 [0x80, 0x91, 0xA2, 0xB3, 0xC4, 0xD5, 0xE6, 0xF7, 0x08, 0x19, 0x2A, 0x3B, 0x4C, 0x5D,
      0x6E, 0x7F] }

/-- `x5` after a load through `x6`. -/
def load (w : Nat) (base : Word) : Option Word := after 32 w (loadState 6 base) (readReg 5)

/-- The `n` bytes at `a` as a number, least significant first. -/
def bytesAt (a n : Nat) (t : State) : Option Nat := (readLe t.mem a n).toOption

theorem test_lb :
    load 0x00030283 0x80001000 = some 0xFFFFFFFFFFFFFF80
      ∧ load 0x80030283 0x80001800 = some 0xFFFFFFFFFFFFFF80 := by decide +kernel

theorem test_lbu :
    load 0x00034283 0x80001000 = some 0x80 := by decide +kernel

theorem test_lh :
    load 0x00031283 0x80001000 = some 0xFFFFFFFFFFFF9180
      ∧ after 32 0x00131283 (loadState 6 0x80001000) trapView = some (0x80000000, 4, 0x80001001, 0) := by decide +kernel

theorem test_lhu :
    load 0x00035283 0x80001000 = some 0x9180 := by decide +kernel

theorem test_lw :
    load 0x00032283 0x80001000 = some 0xFFFFFFFFB3A29180
      ∧ after 32 0x00032283 (loadState 6 0x1000) trapView = some (0x80000000, 5, 0x1000, 0) := by decide +kernel

theorem test_lwu :
    load 0x00036283 0x80001000 = some 0xB3A29180 := by decide +kernel

theorem test_ld :
    load 0x00033283 0x80001000 = some 0xF7E6D5C4B3A29180
      ∧ after 32 0x00033003 (loadState 6 0x1000) trapView = some (0x80000000, 5, 0x1000, 0) := by decide +kernel

/-- Memory after a store through `x6` of `x7` = 0x1122334455667788 over eight bytes FF. -/
def stored (w : Nat) : Option (Option Nat) :=
  after 32 w { two 6 0x80001000 7 0x1122334455667788 with
    mem := placeBytes [] 0x80001000 (List.replicate 8 0xFF) } (bytesAt 0x80001000 8)

theorem test_sb :
    stored 0x00730023 = some (some 0xFFFFFFFFFFFFFF88)
      ∧ stored 0x007303A3 = some (some 0x88FFFFFFFFFFFFFF) := by decide +kernel

theorem test_sh :
    stored 0x00731323 = some (some 0x7788FFFFFFFFFFFF) := by decide +kernel

theorem test_sw :
    stored 0x00732223 = some (some 0x55667788FFFFFFFF)
      ∧ after 32 0x00732123 (two 6 0x80001000 7 0) trapView = some (0x80000000, 6, 0x80001002, 0) := by decide +kernel

theorem test_sd :
    stored 0x00733023 = some (some 0x1122334455667788)
      ∧ after 32 0x00703823 (two 7 1 0 0) trapView = some (0x80000000, 7, 0x10, 0) := by decide +kernel

/-- `MISALIGNED_LDST` true: the loads and the partial store of 2.4. -/
theorem test_split_accesses :
    after 32 0x00333283 { loadState 6 0x80001000 with cfg := { cfgT with misalignedLdst := true } } (readReg 5)
        = some 0x2A1908F7E6D5C4B3
      ∧ after 32 0xFE733EA3
          { two 6 0x80010000 7 0x1122334455667788 with cfg := { cfgT with misalignedLdst := true } }
          (fun t => (trapView t, bytesAt 0x8000FFFD 3 t)) = some ((0x80000000, 7, 0x80010000, 0), some 0x667788) := by
  decide +kernel

/-- The two priorities of R211 on `lw x5, -2(x6)` at the end of `ram`. -/
theorem test_misaligned_priority :
    after 32 0xFFE32283 (two 6 0x80010000 0 0) trapView = some (0x80000000, 4, 0x8000FFFE, 0)
      ∧ after 32 0xFFE32283 { two 6 0x80010000 0 0 with cfg := { cfgT with misalignedPriority := .low } } trapView
        = some (0x80000000, 5, 0x8000FFFE, 0) := by decide +kernel

theorem test_fence :
    after 32 0x0FF3028F (two 5 9 6 8) (fun t => (t.pc, readReg 5 t, t.minstret)) = some (0x80000004, 9, 1) := by decide +kernel

theorem test_fence_tso :
    after 32 0x8330000F (two 5 9 6 8) (fun t => (t.pc, readReg 5 t, t.minstret)) = some (0x80000004, 9, 1) := by decide +kernel

theorem test_mul :
    x5 0x027302B3 0xFFFFFFFFFFFFFFFD 7 = some 0xFFFFFFFFFFFFFFEB
      ∧ x5 0x027302B3 0xFFFFFFFFFFFFFFFF 0xFFFFFFFFFFFFFFFF = some 1 := by decide +kernel

theorem test_mulh :
    x5 0x027312B3 0x8000000000000000 0x7FFFFFFFFFFFFFFF = some 0xC000000000000000
      ∧ x5 0x027312B3 0xFFFFFFFFFFFFFFFF 0xFFFFFFFFFFFFFFFF = some 0 := by decide +kernel

theorem test_mulhsu :
    x5 0x027322B3 0x8000000000000000 0xFFFFFFFFFFFFFFFF = some 0x8000000000000000
      ∧ x5 0x027322B3 1 0xFFFFFFFFFFFFFFFF = some 0 := by decide +kernel

theorem test_mulhu :
    x5 0x027332B3 0xFFFFFFFFFFFFFFFF 0xFFFFFFFFFFFFFFFF = some 0xFFFFFFFFFFFFFFFE := by decide +kernel

theorem test_div :
    x5 0x027342B3 0xFFFFFFFFFFFFFFF9 2 = some 0xFFFFFFFFFFFFFFFD
      ∧ x5 0x027342B3 0x8000000000000000 0xFFFFFFFFFFFFFFFF = some 0x8000000000000000 := by decide +kernel

theorem test_divu :
    x5 0x027352B3 0xFFFFFFFFFFFFFFF9 2 = some 0x7FFFFFFFFFFFFFFC
      ∧ x5 0x027352B3 5 0 = some 0xFFFFFFFFFFFFFFFF := by decide +kernel

theorem test_rem :
    x5 0x027362B3 0xFFFFFFFFFFFFFFF9 2 = some 0xFFFFFFFFFFFFFFFF
      ∧ x5 0x027362B3 0x8000000000000000 0xFFFFFFFFFFFFFFFF = some 0 := by decide +kernel

theorem test_remu :
    x5 0x027372B3 0x8000000000000000 0xFFFFFFFFFFFFFFFF = some 0x8000000000000000
      ∧ x5 0x027372B3 5 0 = some 5 := by decide +kernel

theorem test_addiw :
    x5 0x0013029B 0x7FFFFFFF 0 = some 0xFFFFFFFF80000000 := by decide +kernel

theorem test_slliw :
    x5 0x01F3129B 1 0 = some 0xFFFFFFFF80000000 := by decide +kernel

theorem test_srliw :
    x5 0x0003529B 0x80000000 0 = some 0xFFFFFFFF80000000 := by decide +kernel

theorem test_sraiw :
    x5 0x4043529B 0x80000000 0 = some 0xFFFFFFFFF8000000 := by decide +kernel

theorem test_addw :
    x5 0x007302BB 0x7FFFFFFF 1 = some 0xFFFFFFFF80000000
      ∧ x5 0x007302BB 0xFFFFFFFF00000001 0xFFFFFFFF = some 0 := by decide +kernel

theorem test_subw :
    x5 0x407302BB 0x80000000 1 = some 0x7FFFFFFF := by decide +kernel

theorem test_sllw :
    x5 0x007312BB 1 0x20 = some 1
      ∧ x5 0x007312BB 1 0x1F = some 0xFFFFFFFF80000000 := by decide +kernel

theorem test_srlw :
    x5 0x007352BB 0x0123456780000000 4 = some 0x08000000
      ∧ x5 0x007352BB 0x80000000 0x20 = some 0xFFFFFFFF80000000 := by decide +kernel

theorem test_sraw :
    x5 0x407352BB 0x7FFFFFFF80000000 4 = some 0xFFFFFFFFF8000000 := by decide +kernel

theorem test_mulw :
    x5 0x027302BB 0x8000 0x10000 = some 0xFFFFFFFF80000000 := by decide +kernel

theorem test_divw :
    x5 0x027342BB 0x80000000 0xFFFFFFFFFFFFFFFF = some 0xFFFFFFFF80000000
      ∧ x5 0x027342BB 0x100000007 2 = some 3 := by decide +kernel

theorem test_divuw :
    x5 0x027352BB 0xFFFFFFFF 1 = some 0xFFFFFFFFFFFFFFFF
      ∧ x5 0x027352BB 5 0 = some 0xFFFFFFFFFFFFFFFF := by decide +kernel

theorem test_remw :
    x5 0x027362BB 0x80000000 0xFFFFFFFFFFFFFFFF = some 0
      ∧ x5 0x027362BB 0xFFFFFFFF80000005 0 = some 0xFFFFFFFF80000005 := by decide +kernel

theorem test_remuw :
    x5 0x027372BB 0x80000005 0 = some 0xFFFFFFFF80000005
      ∧ x5 0x027372BB 0xFFFFFFFF 0x10 = some 0xF := by decide +kernel

/-- `x5` and a CSR after a CSR instruction with `x6` = `a`, from a state where `mscratch` is 0xAAAA. -/
def csr (w : Nat) (a : Word) (r : Csr) : Option (Word × Word) :=
  after 32 w { two 6 a 0 0 with mscratch := 0xAAAA } (fun t => (readReg 5 t, csrRead r t))

theorem test_csrrw :
    csr 0x340312F3 0x1234 .mscratch = some (0xAAAA, 0x1234)
      ∧ csr 0x300312F3 0xFFFFFFFFFFFFFFFF .mstatus = some (0x1800, 0x1888) := by decide +kernel

theorem test_csrrs :
    csr 0x340322F3 0x0F0F .mscratch = some (0xAAAA, 0xAFAF)
      ∧ after 32 0xF11322F3 start trapView = some (0x80000000, 2, 0xF11322F3, 0) := by decide +kernel

theorem test_csrrc :
    csr 0x340332F3 0x0F0F .mscratch = some (0xAAAA, 0xA0A0) := by decide +kernel

theorem test_csrrwi :
    csr 0x340FD2F3 0 .mscratch = some (0xAAAA, 0x1F) := by decide +kernel

theorem test_csrrsi :
    csr 0x3402E2F3 0 .mscratch = some (0xAAAA, 0xAAAF)
      ∧ after 32 0xF120E2F3 start trapView = some (0x80000000, 2, 0xF120E2F3, 0) := by decide +kernel

theorem test_csrrci :
    csr 0x340572F3 0 .mscratch = some (0xAAAA, 0xAAA0) := by decide +kernel

/-- The write rules of `mie`, `mtvec`, `mepc`, `mcause`, `mcountinhibit`, `misa` (2.8). -/
theorem test_csr_write_rules :
    csr 0x304312F3 0xFFFFFFFFFFFFFFFF .mie = some (0, 0x888)
      ∧ csr 0x305312F3 0x80000101 .mtvec = some (0, 0x80000101) ∧ csr 0x305312F3 0x80000102 .mtvec = some (0, 0)
      ∧ csr 0x341312F3 0xFFFFFFFFFFFFFFFF .mepc = some (0, 0xFFFFFFFFFFFFFFFE)
      ∧ csr 0x342312F3 0x8000000000000007 .mcause = some (0, 0x8000000000000007)
      ∧ csr 0x320312F3 0xFFFFFFFFFFFFFFFF .mcountinhibit = some (0, 5)
      ∧ csr 0x301312F3 0 .misa = some (0x8000000000001104, 0x8000000000001104)
      ∧ after 32 0x342312F3 (two 6 0xA 0 0) trapView = some (0x80000000, 2, 0x342312F3, 0) := by decide +kernel

/-- Which CSRs exist (2.8): absent addresses trap on a pure read. -/
theorem test_absent_csrs :
    ([0x180022F3, 0x3A0022F3, 0x7B0022F3, 0x100022F3, 0xB03022F3, 0x323022F3, 0x306022F3, 0x30A022F3, 0x302022F3].all
      fun w => after 32 w start trapView == some (0x80000000, 2, BitVec.ofNat 64 w, 0)) = true
      ∧ after 32 0xC00022F3 { start with cfg := { cfgT with zicntrImplemented := false } } trapView
        = some (0x80000000, 2, 0xC00022F3, 0) := by decide +kernel

/-- The counters (2.9), both 9 before the step. -/
def counters (w inhibit : Nat) : Option (Word × Word) :=
  after 32 w
    { two 6 0x1000 0 0 with
      mcycle := 9, minstret := 9, mcountinhibit := { cy := inhibit.testBit 0, ir := inhibit.testBit 2 } }
    (fun t => (t.mcycle, t.minstret))

theorem test_counters :
    counters 0xB00312F3 0 = some (0x1001, 10) ∧ counters 0xB02312F3 0 = some (10, 0x1000)
      ∧ counters 0x00000013 1 = some (9, 10) ∧ counters 0x00000013 4 = some (10, 9)
      ∧ counters 0x3202D073 0 = some (9, 9) ∧ counters 0x32005073 5 = some (10, 10)
      ∧ counters 0x00000073 0 = some (10, 9) ∧ counters 0x30200073 0 = some (10, 10) := by decide +kernel

/-- A state with `mtvec`, `MIE` and `MPIE` set. -/
def trapState (base : BitVec 62) (mode : VecMode) (mie mpie : Bool) : State :=
  { start with
    mtvec := { base := base, mode := mode }
    mstatus := { mie := mie, mpie := mpie, tsr := false, tw := false, mxr := false }
    mepc := 0x80000402 }

theorem test_ecall :
    after 32 0x00000073 (trapState 0x20000040 .vectored true true) (fun t => (trapView t, csrRead .mstatus t)) = some ((0x80000000, 11, 0, 0x80000100), 0x1880) := by decide +kernel

theorem test_ebreak :
    after 32 0x00100073 { trapState 0x20000040 .direct false false with pc := 0x80000008 } trapView = some (0x80000008, 3, 0x80000008, 0x80000100) := by decide +kernel

theorem test_mret :
    after 32 0x30200073 (trapState 0 .direct true false) (fun t => (t.pc, csrRead .mstatus t)) = some (0x80000402, 0x1880) := by decide +kernel

theorem test_wfi :
    after 32 0x10500073 start (fun t => (t.pc, t.minstret)) = some (0x80000004, 1) := by decide +kernel

/-- A register after a compressed instruction, from the bytes of the load vectors. -/
def c (h : Nat) (r1 : Reg) (a : Word) (r2 : Reg) (b : Word) (r : Reg) : Option (Word × Word) :=
  after 16 h (writeReg r2 b (loadState r1 a)) (fun t => (readReg r t, t.pc))

theorem test_c_addi4spn :
    c 0x1FFC 2 0x80001000 0 0 15 = some (0x800013FC, 0x80000002) := by decide +kernel

theorem test_c_lw :
    c 0x41C8 11 0x80001000 0 0 10 = some (0xFFFFFFFFF7E6D5C4, 0x80000002) := by decide +kernel

theorem test_c_ld :
    c 0x6588 11 0x80001000 0 0 10 = some (0x7F6E5D4C3B2A1908, 0x80000002) := by decide +kernel

theorem test_c_nop :
    c 0x0005 1 7 0 0 1 = some (7, 0x80000002) := by decide +kernel

theorem test_c_addi :
    c 0x157D 10 0 0 0 10 = some (0xFFFFFFFFFFFFFFFF, 0x80000002) := by decide +kernel

theorem test_c_addiw :
    c 0x2505 10 0x7FFFFFFF 0 0 10 = some (0xFFFFFFFF80000000, 0x80000002) := by decide +kernel

theorem test_c_li :
    c 0x5501 10 1 0 0 10 = some (0xFFFFFFFFFFFFFFE0, 0x80000002) := by decide +kernel

theorem test_c_addi16sp :
    c 0x7139 2 0x80001000 0 0 2 = some (0x80000FC0, 0x80000002) := by decide +kernel

theorem test_c_lui :
    c 0x757D 10 1 0 0 10 = some (0xFFFFFFFFFFFFF000, 0x80000002) := by decide +kernel

theorem test_c_srli :
    c 0x8011 8 0x80000000000000F0 0 0 8 = some (0x080000000000000F, 0x80000002) := by decide +kernel

theorem test_c_srai :
    c 0x8411 8 0x80000000000000F0 0 0 8 = some (0xF80000000000000F, 0x80000002) := by decide +kernel

theorem test_c_andi :
    c 0x9841 8 0x1234 0 0 8 = some (0x1230, 0x80000002) := by decide +kernel

theorem test_c_sub :
    c 0x8C05 8 5 9 7 8 = some (0xFFFFFFFFFFFFFFFE, 0x80000002) := by decide +kernel

theorem test_c_xor :
    c 0x8C25 8 5 9 7 8 = some (2, 0x80000002) := by decide +kernel

theorem test_c_or :
    c 0x8C45 8 5 9 8 8 = some (0xD, 0x80000002) := by decide +kernel

theorem test_c_and :
    c 0x8C65 8 0xC 9 0xA 8 = some (8, 0x80000002) := by decide +kernel

theorem test_c_subw :
    c 0x9C05 8 0x80000000 9 1 8 = some (0x7FFFFFFF, 0x80000002) := by decide +kernel

theorem test_c_addw :
    c 0x9C25 8 0x7FFFFFFF 9 1 8 = some (0xFFFFFFFF80000000, 0x80000002) := by decide +kernel

theorem test_c_j :
    c 0xAFFD 1 1 0 0 1 = some (1, 0x800007FE)
      ∧ c 0xBFFD 1 1 0 0 1 = some (1, 0x7FFFFFFE) := by decide +kernel

theorem test_c_beqz :
    c 0xC401 8 0 0 0 8 = some (0, 0x80000008)
      ∧ c 0xC401 8 1 0 0 8 = some (1, 0x80000002) := by decide +kernel

theorem test_c_bnez :
    c 0xFD6D 10 1 0 0 10 = some (1, 0x7FFFFFFA)
      ∧ c 0xFD6D 10 0 0 0 10 = some (0, 0x80000002) := by decide +kernel

theorem test_c_slli :
    c 0x060A 12 0x4000000000000001 0 0 12 = some (4, 0x80000002) := by decide +kernel

theorem test_c_lwsp :
    c 0x4512 2 0x80001000 0 0 10 = some (0xFFFFFFFFF7E6D5C4, 0x80000002) := by decide +kernel

theorem test_c_ldsp :
    c 0x6522 2 0x80001000 0 0 10 = some (0x7F6E5D4C3B2A1908, 0x80000002) := by decide +kernel

theorem test_c_jr :
    c 0x8082 1 0x80000101 0 0 1 = some (0x80000101, 0x80000100) := by decide +kernel

theorem test_c_jalr :
    c 0x9082 1 0x80000200 0 0 1 = some (0x80000002, 0x80000200) := by decide +kernel

theorem test_c_mv :
    c 0x862E 11 0x77 0 0 12 = some (0x77, 0x80000002) := by decide +kernel

theorem test_c_add :
    c 0x952E 10 0xFFFFFFFFFFFFFFFF 11 2 10 = some (1, 0x80000002) := by decide +kernel

/-- Memory after a compressed store of `x10` = 0x1122334455667788 over the bytes of the load vectors. -/
def cStored (h : Nat) (r1 : Reg) (a : Nat) : Option (Option Nat × Word) :=
  after 16 h (writeReg 10 0x1122334455667788 (loadState r1 0x80001000)) (fun t => (bytesAt a 8 t, t.pc))

theorem test_c_sw :
    cStored 0xC1C8 11 0x80001004 = some (some 0x3B2A190855667788, 0x80000002) := by decide +kernel

theorem test_c_sd :
    cStored 0xE588 11 0x80001008 = some (some 0x1122334455667788, 0x80000002) := by decide +kernel

theorem test_c_swsp :
    cStored 0xC22A 2 0x80001004 = some (some 0x3B2A190855667788, 0x80000002) := by decide +kernel

theorem test_c_sdsp :
    cStored 0xE42A 2 0x80001008 = some (some 0x1122334455667788, 0x80000002) := by decide +kernel

theorem test_c_ebreak :
    after 16 0x9002 { trapState 0x20000040 .direct false false with pc := 0x80000006 } trapView = some (0x80000006, 3, 0x80000006, 0x80000100) := by decide +kernel

/-! ## The step -/

/-- A state with levels on the wires and `MIE`, the enables and `mtvec` set (2.12). -/
def irqState (irq : IrqBits) (mie : Bool) (enable : IrqBits) (mode : VecMode) : State :=
  { trapState 0x20000040 mode mie false with inputs := [{ irq := irq, mtime := 5, cycles := 3 }], mie := enable }

def allIrqs : IrqBits := { mei := true, mti := true, msi := true }

theorem test_interrupts :
    after 32 0x00000013 (irqState allIrqs true allIrqs .direct)
        (fun t => (t.pc, csrRead .mcause t, csrRead .mip t, csrRead .mstatus t))
        = some (0x80000100, 0x800000000000000B, 0x888, 0x1880)
      ∧ after 32 0x00000073 (irqState { allIrqs with mei := false } true allIrqs .vectored)
        (fun t => (t.pc, csrRead .mcause t, t.mcycle, t.minstret)) = some (0x8000010C, 0x8000000000000003, 3, 0)
      ∧ after 32 0x00000013 (irqState allIrqs false allIrqs .direct) (fun t => (t.pc, csrRead .mip t))
        = some (0x80000004, 0x888) := by decide +kernel

/-- Undecodable bits and bad fetches (2.10, 2.13). -/
theorem test_fetch_and_decode_traps :
    after 32 0xFFFFFFFF start trapView = some (0x80000000, 2, 0xFFFFFFFF, 0)
      ∧ after 16 0x0000 start trapView = some (0x80000000, 2, 0, 0)
      ∧ after 16 0x0001 { start with pc := 0 } trapView = some (0, 1, 0, 0)
      ∧ after 16 0x0003 { start with pc := 0x8000FFFE } trapView = some (0x8000FFFE, 1, 0x80010000, 0) := by
  decide +kernel

/-- The fault that the step stops with, if it does. -/
def stopsWith (s : State) : Option Fault :=
  match step s with
  | .fault f => some f
  | _ => none

/-- From reset, the first step runs the word placed at the pc; with nothing placed it stops at the first byte. -/
theorem test_first_step_from_reset :
    after 32 0x00A00293 State.reset (fun t => (readReg 5 t, t.pc)) = some (10, 0x80000004)
      ∧ stopsWith State.reset = some (.unwrittenByte 0x80000000) := by decide +kernel

/-- R560: the end of a run under the self-loop rule, and a pending interrupt that lets it go on. -/
theorem test_halt_predicate :
    stopsWith ({ irqState { allIrqs with mei := false, mti := false } false allIrqs .direct with
        cfg := { cfgT with haltRule := .selfLoop } }.withFetchWord 32 0x0000006F) = some .runEnded
      ∧ after 32 0x0000006F { irqState { allIrqs with mei := false, mti := false } true allIrqs .direct with
        cfg := { cfgT with haltRule := .selfLoop } } (fun t => csrRead .mcause t) = some 0x8000000000000003 := by
  decide +kernel

/-! ## Witnesses: a state and operands that meet the hypotheses of each statement that has some -/

/-- The outcome is a next state. -/
def isNext (o : Host.Outcome State Fault Refusal) : Bool :=
  match o with
  | .next _ => true
  | _ => false

theorem exists_of_isNext {o : Host.Outcome State Fault Refusal} (h : isNext o = true) : ∃ t, o = .next t := by
  cases o with
  | next t => exact ⟨t, rfl⟩
  | fault f => cases h
  | refused r => cases h

/-- A state whose last eight bytes of `ram` hold known bytes, with `x6`, `x2` and `x11` at `a` and other register values. -/
def edge (a : Word) : State :=
  writeReg 11 a (writeReg 2 a
    { two 6 a 7 0x1122334455667788 with
      mem := placeBytes [] 0x8000FFF8 [0x80, 0x91, 0xA2, 0xB3, 0xC4, 0xD5, 0xE6, 0xF7] })

/-- `edge` under another configuration. -/
def edgeWith (c : Config) (a : Word) : State := { edge a with cfg := c }

/-- Atomicity granules everywhere. -/
def cfgAtomic : Config :=
  { cfgT with
    misalignedGranule := 16, misalignedPriority := .low
    memoryMap := { regions := [], elsewhere := { kind := .ram, mag := .mag16 } } }

/-- One device of eight bytes. -/
def cfgIo : Config :=
  { cfgT with
    memoryMap :=
      { regions := [{ base := 0x10000000, size := 8, attr := { kind := .io 3, mag := .none } }]
        elsewhere := { kind := .ram, mag := .none } } }

theorem bad_of_vacant {s : State} {va : Word} {n : Nat} (hn : 0 < n) (h : (attrAt s.cfg.memoryMap va.toNat).kind = .vacant) :
    BadAccess s va n := by
  constructor
  · intro a
    have := a.2 0 hn
    rw [Nat.add_zero, h] at this
    cases this
  · intro d a
    have := a.2 0 hn
    rw [Nat.add_zero, h] at this
    cases this

theorem test_witness_encoding :
    Instr.wellFormed (.cLui 31 0x3F) = true ∧ Instr.enabled cfgT (.cLui 31 0x3F) = true
      ∧ (encode (.cLui 31 0x3F)).byTable cfgT = true ∧ (encode (.cJr 5)).byTable cfgOwn = true
      ∧ Instr.wellFormed (.remuw 31 0 31) = true ∧ Instr.enabled cfgT (.remuw 31 0 31) = true
      ∧ (encode (.remuw 31 0 31)).byTable { cfgT with cDecode := { table := .nothing, changes := [] } } = true
      ∧ decode cfgT (.half 0x9282) = .ok (.cJalr 5) ∧ decode cfgT (.word 0x027302B3) = .ok (.mul 5 6 7) := by
  decide +kernel

theorem test_witness_reset : legalConfig cfgT = true ∧ Machine.Inv (State.boot cfgT Draws.zero)
    ∧ ({ cfgT with countinhibitCy := false, countinhibitIr := false } : Config).countinhibitCy = false := by
  unfold Machine.Inv
  decide +kernel

theorem test_witness_invariant_step :
    Machine.Inv (start.withFetchWord 32 0x340312F3) ∧ ∃ t, step (start.withFetchWord 32 0x340312F3) = .next t :=
  ⟨by unfold Machine.Inv; decide +kernel, exists_of_isNext (by decide +kernel)⟩

/-- A halfword of each kind: left out by `C_DECODE`, given another meaning, read by the table. -/
theorem test_witness_compressed_function :
    (0x0001 : BitVec 16).toNat % 4 ≠ 3 ∧ (0xFFFE : BitVec 16).toNat % 4 ≠ 3
      ∧ cfgOwn.cDecode.apply 0x0001 = none ∧ cfgOwn.cDecode.apply 0x8002 = some (.cJr 5)
      ∧ cfgOwn.cDecode.apply 0xFFFE = some (.cSdsp 31 63) ∧ (encode (.cJr 5)).length = 2
      ∧ Instr.wellFormed (.cJr 5) = true := by
  decide +kernel

theorem test_witness_step_runs_word :
    let s := start.withFetchWord 32 0x340312F3
    let r : Raw := .word 0x340312F3
    legalConfig s.cfg = true ∧ halted (applyInputs s) = false ∧ highestPriority (pendingAndEnabled (applyInputs s)) = none
      ∧ decode s.cfg r = .ok (.csrrw 5 0x340 6)
      ∧ (∀ (k : Nat) (b : Byte), r.bytes[k]? = some b → s.mem.get? (s.pc + BitVec.ofNat 64 k).toNat = some b)
      ∧ RamAccess s s.pc 2 ∧ RamAccess s (s.pc + 2) 2 := by
  intro s r
  refine ⟨by decide +kernel, by decide +kernel, by decide +kernel, by decide +kernel, ?_,
    by unfold RamAccess; decide +kernel, by unfold RamAccess; decide +kernel⟩
  intro k b h
  have e : r.bytes = [0xF3, 0x12, 0x03, 0x34] := by decide +kernel
  rw [e] at h
  rcases k with _ | _ | _ | _ | k <;> simp at h <;> subst h <;> decide +kernel

/-- In the last two bytes of `ram`, a halfword that only the configuration's own `C_DECODE` reads. -/
theorem test_witness_step_runs_half :
    let s := { start with pc := 0x8000FFFE, cfg := { cfgT with cDecode := cfgOwn.cDecode } }.withFetchWord 16 0x8002
    let r : Raw := .half 0x8002
    legalConfig s.cfg = true ∧ halted (applyInputs s) = false ∧ decode s.cfg r = .ok (.cJr 5) ∧ r.length ≠ 4
      ∧ (∀ (k : Nat) (b : Byte), r.bytes[k]? = some b → s.mem.get? (s.pc + BitVec.ofNat 64 k).toNat = some b)
      ∧ RamAccess s s.pc 2 := by
  intro s r
  refine ⟨by decide +kernel, by decide +kernel, by decide +kernel, by decide, ?_, by unfold RamAccess; decide +kernel⟩
  intro k b h
  have e : r.bytes = [0x02, 0x80] := by decide +kernel
  rw [e] at h
  rcases k with _ | _ | k <;> simp at h <;> subst h <;> decide +kernel

theorem test_witness_inputs :
    let i : StepInputs := { irq := allIrqs, mtime := 7, cycles := 0 }
    ({ start with inputs := [i, i] }).inputs = i :: [i] ∧ start.inputs = [] ∧ start.cfg.laterInputs = .defaults
      ∧ ({ cfgT with laterInputs := .source 2 } : Config).laterInputs = .source 2 := by
  decide +kernel

theorem test_witness_interrupt_taken :
    let s := irqState allIrqs true allIrqs .vectored
    let soft := irqState { allIrqs with mei := false } true allIrqs .direct
    let timer := irqState { mei := false, mti := true, msi := true } true { mei := true, mti := true, msi := false } .vectored
    legalConfig s.cfg = true ∧ halted (applyInputs s) = false ∧ halted (applyInputs soft) = false
      ∧ halted (applyInputs timer) = false ∧ s.mstatus.mie = true ∧ (currentIrq s).mei = true ∧ s.mie.mei = true
      ∧ soft.mstatus.mie = true ∧ ((currentIrq soft).mei && soft.mie.mei) = false ∧ (currentIrq soft).msi = true
      ∧ soft.mie.msi = true
      ∧ timer.mstatus.mie = true ∧ ((currentIrq timer).mei && timer.mie.mei) = false
      ∧ ((currentIrq timer).msi && timer.mie.msi) = false ∧ (currentIrq timer).mti = true ∧ timer.mie.mti = true := by
  decide +kernel

theorem test_witness_interrupt_masked :
    let s := irqState allIrqs false allIrqs .direct
    let t := irqState allIrqs true { mei := false, mti := false, msi := false } .direct
    legalConfig s.cfg = true ∧ halted (applyInputs s) = false ∧ s.mstatus.mie = false ∧ t.mstatus.mie = true
      ∧ halted (applyInputs t) = false
      ∧ ((currentIrq t).mei && t.mie.mei) = false ∧ ((currentIrq t).msi && t.mie.msi) = false
      ∧ ((currentIrq t).mti && t.mie.mti) = false := by
  decide +kernel

theorem test_witness_fetch_faults :
    let s := { start with pc := 0x80010000 }
    let t := { start with pc := 0x8000FFFE }.withFetchWord 16 0x0003
    legalConfig s.cfg = true ∧ halted (applyInputs s) = false ∧ highestPriority (pendingAndEnabled (applyInputs s)) = none
      ∧ halted (applyInputs t) = false ∧ ¬ RamAccess s s.pc 2 ∧ RamAccess t t.pc 2 ∧ t.mem.get? t.pc.toNat = some 3 ∧ t.mem.get? (t.pc.toNat + 1) = some 0
      ∧ ¬ RamAccess t (t.pc + 2) 2 := by
  unfold RamAccess
  decide +kernel

theorem ne_ok_of_none {c : Config} {r : Raw} {e : DecodeError} (h : decode c r = .error e) (i : Instr) : decode c r ≠ .ok i := by
  rw [h]
  exact fun a => by cases a

theorem test_witness_undecodable :
    (∀ i, decode cfgT (.word 0xFFFFFFFF) ≠ .ok i) ∧ (∀ i, decode cfgT (.half 0) ≠ .ok i)
      ∧ (∀ i, decode { cfgT with trapOnReserved := false } (.word 0x0000000B) ≠ .ok i)
      ∧ (∀ i, decode { cfgT with trapOnReserved := false } (.half 0x8000) ≠ .ok i)
      ∧ (∀ i, decode { cfgT with trapOnUnimplementedInstr := false } (.word 0x0000007B) ≠ .ok i) :=
  ⟨ne_ok_of_none (e := .unimplemented (.word 0xFFFFFFFF)) (by decide +kernel),
    ne_ok_of_none (e := .unimplemented (.half 0)) (by decide +kernel),
    ne_ok_of_none (e := .unimplemented (.word 0x0000000B)) (by decide +kernel),
    ne_ok_of_none (e := .unimplemented (.half 0x8000)) (by decide +kernel),
    ne_ok_of_none (e := .unimplemented (.word 0x0000007B)) (by decide +kernel)⟩

/-- Both jumps to themselves, at the first and the last place of `ram` they fit at, and a configuration with another
predicate. -/
theorem test_witness_ended_run :
    let c := { cfgT with haltRule := .selfLoop }
    let s := { start with cfg := c, pc := 0x8000FFFE }.withFetchWord 16 0xA001
    let t := { start with cfg := c }.withFetchWord 32 0x0000006F
    legalConfig { cfgT with mtvalWidth := 65 } = false ∧ legalConfig c = true
      ∧ highestPriority (pendingAndEnabled (applyInputs s)) = none ∧ RamAccess s s.pc 2
      ∧ (Raw.half 0xA001).bytes = [0x01, 0xA0] ∧ s.mem.get? s.pc.toNat = some 0x01
      ∧ s.mem.get? (s.pc.toNat + 1) = some 0xA0 ∧ decode c (.half 0xA001) = .ok (.cJ 0)
      ∧ highestPriority (pendingAndEnabled (applyInputs t)) = none ∧ RamAccess t t.pc 2 ∧ RamAccess t (t.pc + 2) 2
      ∧ (Raw.word 0x0000006F).bytes = [0x6F, 0, 0, 0] ∧ t.mem.get? t.pc.toNat = some 0x6F
      ∧ ([1, 2, 3].all fun k => t.mem.get? (t.pc.toNat + k) == some 0) = true
      ∧ decode c (.word 0x0000006F) = .ok (.jal 0 0) ∧ legalConfig { cfgT with haltRule := .other 3 } = true := by
  unfold RamAccess
  decide +kernel

theorem test_witness_quotient_and_remainder :
    let s := two 6 0x8000000000000000 7 0xFFFFFFFFFFFFFFFF
    (∃ t, exec (.div 5 6 7) s = .next t) ∧ (∃ t, exec (.rem 5 6 7) s = .next t)
      ∧ (∃ t, exec (.divu 5 6 0) s = .next t) ∧ ∃ t, exec (.remu 5 6 0) s = .next t :=
  ⟨exists_of_isNext (by decide +kernel), exists_of_isNext (by decide +kernel), exists_of_isNext (by decide +kernel),
    exists_of_isNext (by decide +kernel)⟩

theorem test_witness_return :
    (∃ t, exec .mret (trapEntry .breakpoint 7 (trapState 1 .direct true false)) = .next t)
      ∧ ∃ t, exec .mret (takeInterrupt 7 (trapState 1 .vectored true false)) = .next t :=
  ⟨exists_of_isNext (by decide +kernel), exists_of_isNext (by decide +kernel)⟩

/-- A completing instruction, and one of each class that takes an exception. -/
theorem test_witness_exceptions_raised :
    (∃ t, exec (.addi 5 6 1) start = .next t) ∧ (∃ t, exec .cEbreak start = .next t) ∧ (∃ t, exec .ecall start = .next t)
      ∧ (∃ t, exec (.lw 5 6 1) (edge 0x80000000) = .next t) ∧ (∃ t, exec (.lb 5 6 0) (edge 0x80010000) = .next t)
      ∧ (∃ t, exec (.sh 6 7 1) (edge 0x80000000) = .next t) ∧ ∃ t, exec (.cSdsp 7 0) (edge 0x80010000) = .next t :=
  ⟨exists_of_isNext (by decide +kernel), exists_of_isNext (by decide +kernel), exists_of_isNext (by decide +kernel),
    exists_of_isNext (by decide +kernel), exists_of_isNext (by decide +kernel), exists_of_isNext (by decide +kernel),
    exists_of_isNext (by decide +kernel)⟩

theorem test_witness_stops :
    exec (.lb 5 6 0) (edge 0x80000000) = .fault (.unwrittenByte 0x80000000)
      ∧ exec (.csrrs 5 0x302 0) { start with cfg := { cfgT with trapOnUnimplementedCsr := false } }
        = .fault (.unpredictableCsr 0x302) := ⟨rfl, rfl⟩

/-- Each size at the last address of `ram` it fits at. -/
theorem test_witness_aligned_access :
    let s := edge 0x80010000
    let va (imm : BitVec 12) := BitVec.ofInt 64 ((readReg 6 s).toNat + imm.toInt)
    (RamAccess s (va 0xFFF) 1 ∧ HoldsLe s (va 0xFFF) 1 0xF7)
      ∧ ((va 0xFFE).toNat % 2 = 0 ∧ RamAccess s (va 0xFFE) 2 ∧ HoldsLe s (va 0xFFE) 2 0xF7E6)
      ∧ ((va 0xFFC).toNat % 4 = 0 ∧ RamAccess s (va 0xFFC) 4 ∧ HoldsLe s (va 0xFFC) 4 0xF7E6D5C4)
      ∧ ((va 0xFF8).toNat % 8 = 0 ∧ RamAccess s (va 0xFF8) 8 ∧ HoldsLe s (va 0xFF8) 8 0xF7E6D5C4B3A29180) := by
  unfold RamAccess HoldsLe
  decide +kernel

theorem test_witness_whole_access :
    let s := edge 0x8000FFF8
    Instr.access (.cLd 0 3 0) s = some (0x8000FFF8, 8) ∧ (0x8000FFF8 : Word).toNat % 8 = 0 ∧ RamAccess s 0x8000FFF8 8
      ∧ HoldsLe s 0x8000FFF8 8 0xF7E6D5C4B3A29180 ∧ Instr.access (.sb 6 7 7) s = some (0x8000FFFF, 1)
      ∧ RamAccess s 0x8000FFFF 1 ∧ Instr.access (.lbu 5 6 8) s = some (0x80010000, 1) ∧ BadAccess s 0x80010000 1
      ∧ Instr.access (.cSwsp 7 2) s = some (0x80010000, 4) ∧ BadAccess s 0x80010000 4 :=
  ⟨by decide +kernel, by decide, by unfold RamAccess; decide +kernel, by unfold HoldsLe; decide +kernel, by decide +kernel,
    by unfold RamAccess; decide +kernel, by decide +kernel, bad_of_vacant (by decide) (by decide +kernel), by decide +kernel,
    bad_of_vacant (by decide) (by decide +kernel)⟩

theorem test_witness_atomic_access :
    let s := edgeWith cfgAtomic 0x8000FFF8
    Instr.access (.lhu 5 6 1) s = some (0x8000FFF9, 2) ∧ Atomic s 0x8000FFF9 2 ∧ RamAccess s 0x8000FFF9 2
      ∧ HoldsLe s 0x8000FFF9 2 0xA291 ∧ Instr.access (.sd 6 7 0xFFF) s = some (0x8000FFF7, 8) ∧ Atomic s 0x8000FFF7 8 := by
  unfold Atomic RamAccess HoldsLe
  decide +kernel

theorem test_witness_misaligned_traps :
    let s := edgeWith { cfgT with misalignedPriority := .low } 0x80010000
    let t := edge 0x80010000
    Instr.access (.lw 5 6 0xFFE) s = some (0x8000FFFE, 4) ∧ (0x8000FFFE : Word).toNat % 4 ≠ 0 ∧ ¬ Atomic s 0x8000FFFE 4
      ∧ s.cfg.misalignedLdst = false ∧ s.cfg.misalignedPriority = .low ∧ ¬ RamAccess s 0x8000FFFE 4
      ∧ RamAccess s 0x8000FFF9 2 ∧ t.cfg.misalignedPriority = .high ∧ ¬ Atomic t 0x8000FFFD 8
      ∧ Instr.access (.sd 6 7 0xFFD) t = some (0x8000FFFD, 8) := by
  unfold Atomic RamAccess
  decide +kernel

/-- The access of `test_witness_misaligned_traps` is no device's either, so it is a bad access. -/
theorem test_witness_misaligned_bad :
    BadAccess (edgeWith { cfgT with misalignedPriority := .low } 0x80010000) 0x8000FFFE 4 := by
  constructor
  · unfold RamAccess
    decide +kernel
  · intro d h
    have e := h.2 0 (by decide)
    have k : (attrAt cfgT.memoryMap ((0x8000FFFE : Word).toNat + 0)).kind = .ram := by decide +kernel
    exact absurd (k.symm.trans e) (by intro a; cases a)

/-- A split access over the top of the address space. -/
theorem test_witness_split_access :
    let s := { edgeWith { Config.standard with misalignedLdst := true } 0xFFFFFFFFFFFFFFFF with
      mem := placeBytes [] 0xFFFFFFFFFFFFFFFF [0x80, 0x91] }
    Instr.access (.lh 5 6 0) s = some (0xFFFFFFFFFFFFFFFF, 2) ∧ (0xFFFFFFFFFFFFFFFF : Word).toNat % 2 ≠ 0
      ∧ ¬ Atomic s 0xFFFFFFFFFFFFFFFF 2 ∧ s.cfg.misalignedLdst = true ∧ SplitRam s 0xFFFFFFFFFFFFFFFF 2
      ∧ s.mem.get? (0xFFFFFFFFFFFFFFFF + BitVec.ofNat 64 1 : Word).toNat = some 0x91
      ∧ Instr.access (.sw 6 7 0) s = some (0xFFFFFFFFFFFFFFFF, 4) ∧ SplitRam s 0xFFFFFFFFFFFFFFFF 4 := by
  unfold Atomic SplitRam RamAccess
  decide +kernel

theorem splitPasses_of {s : State} {va : Word} {n : Nat} (d : Nat)
    (h : ∀ i, i < n → RamAccess s (va + BitVec.ofNat 64 i) 1 ∨ IoAccess s d (va + BitVec.ofNat 64 i) 1) :
    SplitPasses s va n :=
  fun i hi b => (h i hi).elim b.1 (b.2 d)

/-- The device of `cfgIo` with `ram` before it and nothing after it, split accesses on. -/
def cfgSplitIo : Config :=
  { cfgIo with
    misalignedLdst := true
    memoryMap :=
      { regions :=
          [{ base := 0x10000000, size := 8, attr := { kind := .io 3, mag := .none } },
            { base := 0, size := 0x10000000, attr := { kind := .ram, mag := .none } }]
        elsewhere := { kind := .vacant, mag := .none } } }

/-- `x6` and the last two bytes of `ram` before the device of `cfgSplitIo`. -/
def splitIo (a : Word) : State := { edgeWith cfgSplitIo a with mem := placeBytes [] 0x0FFFFFFE [0x80, 0x91] }

theorem test_witness_split_fault :
    let s := edgeWith { cfgT with misalignedLdst := true } 0x80010000
    Instr.access (.lw 5 6 0xFFE) s = some (0x8000FFFE, 4) ∧ ¬ Atomic s 0x8000FFFE 4 ∧ SplitPasses s 0x8000FFFE 2
      ∧ BadAccess s (0x8000FFFE + BitVec.ofNat 64 2) 1 ∧ (s.mem.get? (0x8000FFFE + BitVec.ofNat 64 1 : Word).toNat).isSome = true
      ∧ Instr.access (.sh 6 7 1) s = some (0x80010001, 2) ∧ SplitPasses s 0x80010001 0
      ∧ BadAccess s (0x80010001 + BitVec.ofNat 64 0) 1 :=
  ⟨by decide +kernel, by unfold Atomic; decide +kernel, splitPasses_of 0 (by unfold RamAccess IoAccess; decide +kernel),
    bad_of_vacant (by decide) (by decide +kernel), by decide +kernel, by decide +kernel,
    fun i h => absurd h (Nat.not_lt_zero i), bad_of_vacant (by decide) (by decide +kernel)⟩

/-- Seven bytes of a device, then nothing: a load and a store that fail at the eighth. -/
theorem test_witness_split_fault_after_device :
    let s := splitIo 0x10000000
    Instr.access (.ld 5 6 1) s = some (0x10000001, 8) ∧ Instr.access (.sd 6 7 1) s = some (0x10000001, 8)
      ∧ ¬ Atomic s 0x10000001 8 ∧ s.cfg.misalignedLdst = true ∧ SplitPasses s 0x10000001 7
      ∧ BadAccess s (0x10000001 + BitVec.ofNat 64 7) 1 ∧ deviceBytes s 0x10000001 7 = [0, 1, 2, 3, 4, 5, 6] :=
  ⟨by decide +kernel, by decide +kernel, by unfold Atomic; decide +kernel, by decide +kernel,
    splitPasses_of 3 (by unfold RamAccess IoAccess; decide +kernel), bad_of_vacant (by decide) (by decide +kernel),
    by decide +kernel⟩

theorem test_witness_device :
    let s := edgeWith cfgIo 0x10000000
    let t := edgeWith { cfgIo with
      misalignedGranule := 8, misalignedPriority := .low
      memoryMap :=
        { regions := [{ base := 0x10000000, size := 8, attr := { kind := .io 3, mag := .mag8 } }]
          elsewhere := { kind := .ram, mag := .none } } } 0x10000000
    Instr.access (.ld 5 6 0) s = some (0x10000000, 8) ∧ IoAccess s 3 0x10000000 8
      ∧ Instr.access (.sb 6 7 7) s = some (0x10000007, 1) ∧ IoAccess s 3 0x10000007 1
      ∧ Instr.access (.lw 5 6 1) t = some (0x10000001, 4) ∧ Atomic t 0x10000001 4 ∧ IoAccess t 3 0x10000001 4
      ∧ Instr.access (.sh 6 7 5) t = some (0x10000005, 2) ∧ Atomic t 0x10000005 2 ∧ IoAccess t 3 0x10000005 2 := by
  unfold Atomic IoAccess
  decide +kernel

/-- Two bytes of `ram` and two of the device, and two bytes of the device. -/
theorem test_witness_split_device :
    let s := splitIo 0x0FFFFFFE
    Instr.access (.lw 5 6 0) s = some (0x0FFFFFFE, 4) ∧ ¬ Atomic s 0x0FFFFFFE 4 ∧ s.cfg.misalignedLdst = true
      ∧ SplitPasses s 0x0FFFFFFE 4 ∧ deviceBytes s 0x0FFFFFFE 4 = [2, 3]
      ∧ (∀ k, k < 4 → deviceByte s 0x0FFFFFFE k = false →
          (s.mem.get? (0x0FFFFFFE + BitVec.ofNat 64 k : Word).toNat).isSome = true)
      ∧ Instr.access (.sh 6 7 3) s = some (0x10000001, 2) ∧ ¬ Atomic s 0x10000001 2 ∧ SplitPasses s 0x10000001 2
      ∧ deviceBytes s 0x10000001 2 = [0, 1] :=
  ⟨by decide +kernel, by unfold Atomic; decide +kernel, by decide +kernel,
    splitPasses_of 3 (by unfold RamAccess IoAccess; decide +kernel), by decide +kernel, by decide +kernel,
    by decide +kernel, by unfold Atomic; decide +kernel, splitPasses_of 3 (by unfold RamAccess IoAccess; decide +kernel),
    by decide +kernel⟩

/-- R213, R231: a split store of 0x1122334455667788 over the end of `ram` writes two bytes and is two events, the latest
first. -/
theorem test_split_store_reaches_device :
    (match exec (.sw 6 7 0) (splitIo 0x0FFFFFFE) with
      | .next t => (t.mem.get? 0x0FFFFFFE, t.mem.get? 0x0FFFFFFF, t.ioLog)
      | _ => (none, none, []))
      = (some 0x88, some 0x77, [.write 0x10000001 1 0x55, .write 0x10000000 1 0x66]) := by
  decide +kernel

theorem test_witness_unwritten :
    let s := { edge 0x8000FFF8 with mem := placeBytes [] 0x8000FFF8 [1, 2, 3] }
    Instr.access (.lw 5 6 0) s = some (0x8000FFF8, 4) ∧ RamAccess s 0x8000FFF8 4
      ∧ (∀ k, k < 3 → (s.mem.get? (0x8000FFF8 + k)).isSome = true) ∧ s.mem.get? (0x8000FFF8 + 3) = none := by
  unfold RamAccess
  decide +kernel

/-- A split load whose last byte nothing has written, and one over the end of `ram` whose first byte nothing has. -/
theorem test_witness_unwritten_split :
    let s := { edgeWith { cfgT with misalignedLdst := true } 0x8000FFF9 with mem := placeBytes [] 0x8000FFF9 [1] }
    let t := { splitIo 0x0FFFFFFF with mem := [] }
    let u := edgeWith cfgAtomic 0x8000FFF5
    (Instr.access (.lh 5 6 0) s = some (0x8000FFF9, 2) ∧ ¬ Atomic s 0x8000FFF9 2 ∧ s.cfg.misalignedLdst = true
      ∧ SplitPasses s 0x8000FFF9 1 ∧ (s.mem.get? (0x8000FFF9 + BitVec.ofNat 64 0 : Word).toNat).isSome = true
      ∧ RamAccess s (0x8000FFF9 + BitVec.ofNat 64 1) 1 ∧ s.mem.get? (0x8000FFF9 + BitVec.ofNat 64 1 : Word).toNat = none)
    ∧ (Instr.access (.lw 5 6 0) t = some (0x0FFFFFFF, 4) ∧ SplitPasses t 0x0FFFFFFF 0
      ∧ RamAccess t (0x0FFFFFFF + BitVec.ofNat 64 0) 1 ∧ t.mem.get? (0x0FFFFFFF + BitVec.ofNat 64 0 : Word).toNat = none)
    ∧ Instr.access (.lh 5 6 0) u = some (0x8000FFF5, 2) ∧ Atomic u 0x8000FFF5 2 ∧ RamAccess u 0x8000FFF5 2
      ∧ u.mem.get? 0x8000FFF5 = none :=
  ⟨⟨by decide +kernel, by unfold Atomic; decide +kernel, by decide +kernel,
    splitPasses_of 0 (by unfold RamAccess IoAccess; decide +kernel), by decide +kernel, by unfold RamAccess; decide +kernel,
    by decide +kernel⟩, ⟨by decide +kernel, fun i h => absurd h (Nat.not_lt_zero i), by unfold RamAccess; decide +kernel,
    by decide +kernel⟩, by decide +kernel, by unfold Atomic; decide +kernel, by unfold RamAccess; decide +kernel,
    by decide +kernel⟩

/-- The compressed accesses, at the largest offset that ends at the end of `ram`. -/
theorem test_witness_compressed_access :
    let s := edge 0x8000FF80
    let t := edge 0x8000FF00
    (0x8000FFFC : Word) = BitVec.ofNat 64 ((readReg 11 s).toNat + 4 * (31 : BitVec 5).toNat)
      ∧ RamAccess s 0x8000FFFC 4 ∧ HoldsLe s 0x8000FFFC 4 0xF7E6D5C4
      ∧ (0x8000FFFC : Word) = BitVec.ofNat 64 ((readReg 2 t).toNat + 4 * (63 : BitVec 6).toNat)
      ∧ (0x8000FFF8 : Word) = BitVec.ofNat 64 ((readReg 11 t).toNat + 8 * (31 : BitVec 5).toNat)
      ∧ RamAccess t 0x8000FFF8 8 ∧ HoldsLe t 0x8000FFF8 8 0xF7E6D5C4B3A29180
      ∧ (0x8000FFF8 : Word) = BitVec.ofNat 64 ((readReg 2 (edge 0x8000FE00)).toNat + 8 * (63 : BitVec 6).toNat) := by
  unfold RamAccess HoldsLe
  decide +kernel

theorem test_witness_csr_exists :
    Csr.exists? cfgT .mstatus = true ∧ Csr.exists? cfgT .time = true ∧ Csr.exists? cfgT .mhartid = true
      ∧ Csr.exists? { cfgT with zicntrImplemented := false } .time = false
      ∧ Csr.mscratch ∉ [Csr.cycle, .time, .instret, .mvendorid, .marchid, .mimpid, .mhartid]
      ∧ Csr.mcause ∉ [Csr.cycle, .time, .instret, .mvendorid, .marchid, .mimpid, .mhartid]
      ∧ Csr.mhartid ∈ [Csr.cycle, .time, .instret, .mvendorid, .marchid, .mimpid, .mhartid] := by decide

/-- Causes on both sides of the legal sets, for the registers, the immediates, and the old value with them. -/
theorem test_witness_causes :
    let s := { two 6 0x10 7 15 with mcause := { int := false, code := 8 } }
    CauseLegal s (readReg 7 s) ∧ ¬ CauseLegal s (readReg 6 s) ∧ CauseLegal s 0x800000000000000D
      ∧ ¬ CauseLegal s 0x8000000000000000 ∧ CauseLegal s (csrRead .mcause s ||| 7)
      ∧ ¬ CauseLegal s (csrRead .mcause s ||| readReg 6 s) ∧ CauseLegal s (csrRead .mcause s &&& ~~~(8 : Word))
      ∧ ¬ CauseLegal { s with mcause := { int := true, code := 3 } }
          (csrRead .mcause { s with mcause := { int := true, code := 3 } } &&& ~~~(readReg 7 s))
      ∧ ¬ CauseLegal { s with mcause := { int := false, code := 15 } }
          (csrRead .mcause { s with mcause := { int := false, code := 15 } } &&& ~~~(BitVec.ofNat 64 (5 : BitVec 5).toNat))
      ∧ ¬ CauseLegal s (BitVec.ofNat 64 (31 : BitVec 5).toNat)
      ∧ ¬ CauseLegal s (csrRead .mcause s ||| BitVec.ofNat 64 (2 : BitVec 5).toNat)
      ∧ s.cfg.trapOnIllegalWlrl = true := by
  unfold CauseLegal
  decide +kernel

/-- Both sides of what `mtvec` accepts. -/
theorem test_witness_mtvec :
    MtvecAccepts start 0xFFFFFFFFFFFFFFFC ∧ MtvecAccepts start 0x80000101 ∧ ¬ MtvecAccepts start 0x80000102
      ∧ ¬ MtvecAccepts { start with cfg := { cfgT with mtvecAlignVectored := 9 } } 0x80000101
      ∧ ¬ MtvecAccepts { start with cfg := { cfgT with mtvecVectoredOk := false } } 0x80000101 := by
  unfold MtvecAccepts
  decide +kernel

theorem test_witness_absent_csr :
    (0x302 : CsrAddr).toNat ∉ [0x300, 0x301, 0x304, 0x305, 0x320, 0x340, 0x341, 0x342, 0x343, 0x344, 0xB00, 0xB02, 0xF11,
        0xF12, 0xF13, 0xF14]
      ∧ (0x302 : CsrAddr).toNat ≠ 0xC00 ∧ (0x302 : CsrAddr).toNat ≠ 0xC02 ∧ (0x302 : CsrAddr).toNat ≠ 0xC01
      ∧ cfgT.trapOnUnimplementedCsr = true ∧ ({ cfgT with zicntrImplemented := false } : Config).zicntrImplemented = false
      ∧ ({ cfgT with timeCsrImplemented := false } : Config).timeCsrImplemented = false := by decide

theorem test_witness_memory :
    Memory.wf (writeLe [] 0x80000000 8 0x1122334455667788) = true
      ∧ readLe (writeLe [] 0x80000000 8 0x1122334455667788) 0x80000000 8 = .ok 0x1122334455667788 := ⟨rfl, rfl⟩

theorem test_witness_frames :
    Instr.dest (.lw 5 6 0xFFC) ≠ some 6 ∧ (∃ t, exec (.lw 5 6 0xFFC) (edge 0x80010000) = .next t)
      ∧ Instr.isStore (.sd 6 7 0xFF8) = true ∧ Instr.access (.sd 6 7 0xFF8) (edge 0x80010000) = some (0x8000FFF8, 8)
      ∧ ∃ t, exec (.sd 6 7 0xFF8) (edge 0x80010000) = .next t :=
  ⟨by decide, exists_of_isNext (by decide +kernel), by decide, by decide +kernel, exists_of_isNext (by decide +kernel)⟩

end Sys2Proof.Tests
end

section
/-! PROOFS. Family 00_scope.md. What an instruction of each shape leaves for the end of the step: the configuration, the
inputs and the step number (R9, R490, R550). -/

namespace Sys2Proof.Machine

/-! ## The fields that only the end of a step may move -/

/-- `t` has the configuration, the inputs and the step number of `s`. Weaker than `SameRun`, which a CSR write breaks. -/
structure SameLaunch (s t : State) : Prop where
  cfg : t.cfg = s.cfg
  inputs : t.inputs = s.inputs
  stepNo : t.stepNo = s.stepNo

namespace SameLaunch

theorem refl (s : State) : SameLaunch s s := ⟨rfl, rfl, rfl⟩

theorem trans {s t u : State} (h : SameLaunch s t) (k : SameLaunch t u) : SameLaunch s u :=
  ⟨k.cfg.trans h.cfg, k.inputs.trans h.inputs, k.stepNo.trans h.stepNo⟩

theorem of_onlyMemory {s t : State} (h : OnlyMemory s t) : SameLaunch s t := by
  unfold OnlyMemory at h
  exact ⟨by rw [h], by rw [h], by rw [h]⟩

theorem of_onlyCsrs {s t : State} (h : OnlyCsrs s t) : SameLaunch s t := by
  unfold OnlyCsrs at h
  exact ⟨by rw [h], by rw [h], by rw [h]⟩

theorem applyInputs (s : State) : SameLaunch s (applyInputs s) := ⟨rfl, rfl, rfl⟩

theorem takeInterrupt (c : BitVec 63) (s : State) : SameLaunch s (takeInterrupt c s) := ⟨rfl, rfl, rfl⟩

variable {s t : State} (h : SameLaunch s t)
include h

theorem trapEntry (e : Exc) (tval : Word) : SameLaunch s (trapEntry e tval t) := ⟨h.cfg, h.inputs, h.stepNo⟩

theorem retireTo (npc : Word) : SameLaunch s (retireTo npc t) := ⟨h.cfg, h.inputs, h.stepNo⟩

theorem retire (len : Word) : SameLaunch s (retire len t) := h.retireTo _

theorem writeReg (xd : Reg) (v : Word) : SameLaunch s (writeReg xd v t) := ⟨h.cfg, h.inputs, h.stepNo⟩

theorem trapReturn : SameLaunch s (trapReturn t) := ⟨h.cfg, h.inputs, h.stepNo⟩

theorem csrRetire (r : Csr) : SameLaunch s (csrRetire r t) := by
  unfold Machine.csrRetire
  split
  · exact ⟨h.cfg, h.inputs, h.stepNo⟩
  · exact h.retire 4

end SameLaunch

/-! ## The shapes of an instruction -/

/-- The shared operation that an instruction is a call of, by its outcome at `s`. -/
inductive ExecShape (s : State) : Host.Outcome State Fault Refusal → Prop where
  | complete (len : Word) (xd : Reg) (v : Word) : ExecShape s (complete len xd v s)
  | nop (len : Word) : ExecShape s (completeNop len s)
  | jump (len : Word) (xd : Reg) (target : Word) : ExecShape s (jumpLink len xd target s)
  | branch (len : Word) (taken : Bool) (offset : Word) : ExecShape s (branch len taken offset s)
  | load (va : Word) (n : Nat) (len : Word) (xd : Reg) (ext : Nat → Word) :
      ExecShape s ((memRead va n s).finish fun v s' => retire len (writeReg xd (ext v) s'))
  | store (len : Word) (n : Nat) (xs2 : Reg) (va : Word) : ExecShape s (store len n xs2 va s)
  | raise (e : Exc) (tval : Word) : ExecShape s (raiseExc e tval s)
  | ret : ExecShape s (.next (retireTo s.mepc (trapReturn s)))
  | csr (ins : Word) (a : CsrAddr) (xd : Reg) (will : Bool) (new : Word → Word) :
      ExecShape s (csrAccess ins a xd will new s)

/-- Every instruction has one of the shapes. -/
theorem exec_shape (i : Instr) (s : State) : ExecShape s (exec i s) := by
  cases i with
  | add | sub | sll | slt | sltu | xor | srl | sra | or | and | addi | slti | sltiu | xori | ori | andi | slli | srli
  | srai | lui | auipc | mul | mulh | mulhsu | mulhu | div | divu | rem | remu | addiw | slliw | srliw | sraiw | addw
  | subw | sllw | srlw | sraw | mulw | divw | divuw | remw | remuw | cAddi4spn | cNop | cAddi | cAddiw | cLi | cAddi16sp
  | cLui | cSrli | cSrai | cAndi | cSub | cXor | cOr | cAnd | cSubw | cAddw | cSlli | cMv | cAdd =>
    exact .complete _ _ _
  | fence | fenceTso | wfi => exact .nop _
  | jal | jalr | cJ | cJr | cJalr => exact .jump _ _ _
  | beq | bne | blt | bge | bltu | bgeu | cBeqz | cBnez => exact .branch _ _ _
  | lb | lh | lw | ld | lbu | lhu | lwu | cLw | cLd | cLwsp | cLdsp => exact .load _ _ _ _ _
  | sb | sh | sw | sd | cSw | cSd | cSwsp | cSdsp => exact .store _ _ _ _
  | ecall | ebreak | cEbreak => exact .raise _ _
  | mret => exact .ret
  | csrrw => rw [exec_csrrw]; exact .csr _ _ _ _ _
  | csrrs => rw [exec_csrrs]; exact .csr _ _ _ _ _
  | csrrc => rw [exec_csrrc]; exact .csr _ _ _ _ _
  | csrrwi => rw [exec_csrrwi]; exact .csr _ _ _ _ _
  | csrrsi => rw [exec_csrrsi]; exact .csr _ _ _ _ _
  | csrrci => rw [exec_csrrci]; exact .csr _ _ _ _ _

/-! ## No shape moves the three fields -/

theorem SameLaunch.of_load {va : Word} {n : Nat} {len : Word} {xd : Reg} {ext : Nat → Word} {s t : State}
    (h : (memRead va n s).finish (fun v s' => Machine.retire len (Machine.writeReg xd (ext v) s')) = .next t) :
    SameLaunch s t := by
  rcases load_cases va n len xd ext s with ⟨v, s', e, o, _⟩ | ⟨x, tval, s', e, _, o, _⟩ | ⟨a, e⟩ <;> rw [e] at h <;>
    cases h
  · exact ((of_onlyMemory o).writeReg _ _).retire _
  · exact (of_onlyMemory o).trapEntry _ _

theorem SameLaunch.of_store {len : Word} {n : Nat} {xs2 : Reg} {va : Word} {s t : State}
    (h : store len n xs2 va s = .next t) : SameLaunch s t := by
  rcases store_cases len n xs2 va s with ⟨s', e, o, _⟩ | ⟨x, tval, s', e, _, o, _⟩ <;> rw [e] at h <;> cases h
  · exact (of_onlyMemory o).retire _
  · exact (of_onlyMemory o).trapEntry _ _

theorem SameLaunch.of_csrAccess {ins : Word} {a : CsrAddr} {xd : Reg} {will : Bool} {new : Word → Word} {s t : State}
    (h : csrAccess ins a xd will new s = .next t) : SameLaunch s t := by
  rcases csrAccess_cases ins a xd will new s with e | e | ⟨r, _, _, e⟩ | ⟨r, s', _, _, _, hw, e⟩ <;> rw [e] at h <;>
    cases h
  · exact (refl s).trapEntry _ _
  · exact ((refl s).writeReg _ _).retire _
  · exact ((of_onlyCsrs (csrWrite_onlyCsrs hw)).writeReg _ _).csrRetire _

/-- No instruction changes the configuration, the inputs or the step number. -/
theorem ExecShape.sameLaunch {s t : State} {o : Host.Outcome State Fault Refusal} (shape : ExecShape s o)
    (h : o = .next t) : SameLaunch s t := by
  cases shape with
  | complete => cases h; exact ((SameLaunch.refl s).writeReg _ _).retire _
  | nop => cases h; exact (SameLaunch.refl s).retire _
  | jump => cases h; exact ((SameLaunch.refl s).writeReg _ _).retireTo _
  | branch => cases h; exact (SameLaunch.refl s).retireTo _
  | load => exact .of_load h
  | store => exact .of_store h
  | raise => cases h; exact (SameLaunch.refl s).trapEntry _ _
  | ret => cases h; exact (SameLaunch.refl s).trapReturn.retireTo _
  | csr => exact .of_csrAccess h

/-! ## The step -/

/-- Where decoding and executing have a next state, an instruction ran or its bits raised (R280). -/
theorem runRaw_next {r : Raw} {s t : State} (h : runRaw r s = .next t) :
    (∃ i, decode s.cfg r = .ok i ∧ exec i s = .next t) ∨ t = trapEntry .illegalInstruction r.toWord s := by
  unfold runRaw at h
  split at h
  next i hd => exact .inl ⟨i, hd, h⟩
  next =>
    unfold undecodable at h
    split at h <;> cases h
    exact .inr rfl

/-- Where steps 3 to 5 of R550 have a next state, an instruction ran, or the fetch or the decoding raised. -/
theorem fetchRun_next {s t : State} (h : fetchRun s = .next t) :
    (∃ r i, fetch s = .done r s ∧ decode s.cfg r = .ok i ∧ exec i s = .next t)
      ∨ ∃ e tval, t = trapEntry e tval s := by
  unfold fetchRun at h
  rcases fetch_cases s with ⟨r, hf⟩ | ⟨tval, hf, _⟩ | ⟨a, hf⟩ <;> rw [hf] at h
  · rcases runRaw_next h with ⟨i, hd, hx⟩ | ht
    · exact .inl ⟨r, i, hf, hd, hx⟩
    · exact .inr ⟨_, _, ht⟩
  · cases h; exact .inr ⟨_, tval, rfl⟩
  · cases h

/-- Where steps 2 to 5 of R550 have a next state, they took the interrupt that has priority, or fetched. -/
theorem interruptOrRun_next {s t : State} (h : interruptOrRun s = .next t) :
    (∃ c, highestPriority (pendingAndEnabled s) = some c ∧ t = takeInterrupt c s) ∨ fetchRun s = .next t := by
  unfold interruptOrRun at h
  split at h
  next c hc => cases h; exact .inl ⟨c, hc, rfl⟩
  next => exact .inr h

theorem closeStep_next {o : Host.Outcome State Fault Refusal} {t : State} (h : closeStep o = .next t) :
    ∃ u, o = .next u ∧ t = endStep u := by
  cases o with
  | next u => cases h; exact ⟨u, rfl, rfl⟩
  | fault f => cases h
  | refused r => cases h

/-- A step with a next state had a legal configuration, and is an interrupt or an instruction on the state with the
inputs applied, then the end of the step (R550). -/
theorem step_next {s t : State} (h : step s = .next t) :
    legalConfig s.cfg = true ∧ ∃ u, interruptOrRun (applyInputs s) = .next u ∧ t = endStep u := by
  change cycle s = .next t at h
  rcases cycle_cases s with ⟨_, e⟩ | ⟨_, _, e⟩ | ⟨legal, _, e⟩ <;> rw [e] at h
  · cases h
  · cases h
  · exact ⟨legal, closeStep_next h⟩

theorem interruptOrRun_sameLaunch {s t : State} (h : interruptOrRun s = .next t) : SameLaunch s t := by
  rcases interruptOrRun_next h with ⟨c, _, rfl⟩ | hrun
  · exact .takeInterrupt c s
  · rcases fetchRun_next hrun with ⟨_, i, _, _, hx⟩ | ⟨e, tval, rfl⟩
    · exact (exec_shape i s).sameLaunch hx
    · exact (SameLaunch.refl s).trapEntry e tval

/-- Settles O12: nothing before the end of a step touches the three fields, and `endStep` counts and drops one entry. -/
theorem stepsKeepTheConfigurationAndCount : Obligations.StepsKeepTheConfigurationAndCount := by
  intro s t h
  obtain ⟨_, u, hu, rfl⟩ := step_next h
  have k : SameLaunch s u := (SameLaunch.applyInputs s).trans (interruptOrRun_sameLaunch hu)
  exact ⟨k.cfg, congrArg (· + 1) k.stepNo, congrArg List.tail k.inputs⟩

end Sys2Proof.Machine
end

section
/-! PROOFS. Family 10_state.md. Registers and memory read back (R41, R49, R201), an absent CSR traps (R411), and the
invariant: it holds at reset, every shared operation keeps it, so every instruction and every step does. -/

namespace Sys2Proof.Machine

/-! ## Registers and memory -/

/-- Settles O57: the cases are the three of reading, `x0`, the written register and any other. -/
theorem registersReadBack : Obligations.RegistersReadBack := by
  intro r x v s
  by_cases zero : r = 0
  · rw [if_pos zero, zero, readReg_zero]
  · rw [if_neg zero]
    by_cases same : r = x
    · rw [if_pos same, ← same, readReg_writeReg_same, held, if_neg zero]
    · rw [if_neg same, readReg_writeReg_of_ne same]

/-- Settles O58: byte by byte, memory after the store holds the bytes of the number. -/
theorem memoryReadsBack : Obligations.MemoryReadsBack := by
  intro m a n v
  refine ⟨readLe_of_bytes n _ a v fun i hi => ?_, fun x outside => ?_, writeLe_wf n m a v⟩
  · rw [get?_writeLe, if_pos (by omega), Nat.add_sub_cancel_left]
  · rw [get?_writeLe, if_neg (by omega)]

/-! ## Absent CSRs -/

theorem csrLookup_eq_none {c : Config} {a : CsrAddr} (h : ∀ r : Csr, r.exists? c = true → r.address ≠ a) :
    csrLookup c a = none := by
  refine List.find?_eq_none.mpr fun r _ found => ?_
  simp only [Bool.and_eq_true, beq_iff_eq] at found
  exact h r found.2 found.1

/-- On an address that names no CSR, the access path comes to what `TRAP_ON_UNIMPLEMENTED_CSR` says (R411), whatever it
would have read or written. -/
theorem csrAccess_absent {s : State} {a : CsrAddr} (h : csrLookup s.cfg a = none) (ins : Word) (xd : Reg) (will : Bool)
    (new : Word → Word) :
    csrAccess ins a xd will new s
      = if s.cfg.trapOnUnimplementedCsr then .next (trapEntry .illegalInstruction ins s)
        else .fault (.unpredictableCsr a) := by
  rw [csrAccess, h]

/-- Each of the six forms is one call of the access path, with its own word laid out as R263 says. -/
theorem exec_csrForm {i : Instr} {xd src : Reg} {a : CsrAddr} {f3 : BitVec 3} (s : State)
    (form : i = .csrrw xd a src ∧ f3 = 0b001 ∨ i = .csrrs xd a src ∧ f3 = 0b010 ∨ i = .csrrc xd a src ∧ f3 = 0b011
      ∨ i = .csrrwi xd a src ∧ f3 = 0b101 ∨ i = .csrrsi xd a src ∧ f3 = 0b110 ∨ i = .csrrci xd a src ∧ f3 = 0b111) :
    ∃ will new, exec i s
      = csrAccess ((a ++ src ++ f3 ++ xd ++ 0b1110011#7 : BitVec 32).setWidth 64) a xd will new s := by
  rcases form with ⟨rfl, rfl⟩ | ⟨rfl, rfl⟩ | ⟨rfl, rfl⟩ | ⟨rfl, rfl⟩ | ⟨rfl, rfl⟩ | ⟨rfl, rfl⟩
  · exact ⟨_, _, exec_csrrw xd a src s⟩
  · exact ⟨_, _, exec_csrrs xd a src s⟩
  · exact ⟨_, _, exec_csrrc xd a src s⟩
  · exact ⟨_, _, exec_csrrwi xd a src s⟩
  · exact ⟨_, _, exec_csrrsi xd a src s⟩
  · exact ⟨_, _, exec_csrrci xd a src s⟩

/-- Settles O56: the lookup finds none of the 19 CSRs, and all six forms go through the one access path. -/
theorem absentCsrsTrap : Obligations.AbsentCsrsTrap := by
  intro i xd src a f3 s form others counters time
  have absent : csrLookup s.cfg a = none := csrLookup_eq_none fun r has e => by
    subst e
    cases r with
    | cycle => exact (counters has).1 rfl
    | instret => exact (counters has).2 rfl
    | time =>
      obtain ⟨hz, ht⟩ := Bool.and_eq_true_iff.mp has
      exact time hz ht rfl
    | _ => exact others (by decide)
  obtain ⟨will, new, e⟩ := exec_csrForm s form
  rw [e, csrAccess_absent absent]
  refine ⟨fun trap => ?_, fun stop => ?_⟩
  · rw [if_pos trap]
    exact ⟨_, rfl, trapped_of (e := .illegalInstruction) rfl _ s rfl⟩
  · rw [stop]
    rfl

/-! ## Even addresses (R45, R121) -/

theorem even_add {a b : Word} (ha : a.getLsbD 0 = false) (hb : b.getLsbD 0 = false) : (a + b).getLsbD 0 = false := by
  simp only [BitVec.getLsbD, Nat.testBit_zero, decide_eq_false_iff_not, BitVec.toNat_add] at *
  omega

/-- A zero appended below makes a number even. -/
theorem even_append_zero {n m : Nat} (x : BitVec n) (hm : 0 < m) : (x ++ (0 : BitVec m)).getLsbD 0 = false := by
  rw [BitVec.getLsbD_append, if_pos hm]
  exact BitVec.getLsbD_zero

/-- Every offset of a jump or branch ends in the zero bit its encoding leaves out (R257, R259, R620, R621). -/
theorem even_sext_append_zero {n : Nat} (x : BitVec n) : (sext (x ++ (0 : BitVec 1)) : Word).getLsbD 0 = false := by
  rw [sext, BitVec.getLsbD_signExtend, if_pos (Nat.succ_pos n), even_append_zero x Nat.one_pos]
  rfl

theorem even_clearBit0 (v : Word) : (clearBit0 v).getLsbD 0 = false := by
  simp [clearBit0]

theorem even_target (m : Mtvec) : m.target.getLsbD 0 = false := even_append_zero m.base Nat.two_pos

theorem even_vector (m : Mtvec) (c : BitVec 63) : (m.vector c).getLsbD 0 = false := by
  rw [Mtvec.vector]
  cases m.mode with
  | direct => exact even_target m
  | vectored =>
    refine even_add (even_target m) ?_
    simp only [BitVec.getLsbD, Nat.testBit_zero, decide_eq_false_iff_not, BitVec.toNat_ofNat]
    omega

/-! ## Legal configurations -/

theorem modesOk_of_legalConfig {c : Config} (legal : legalConfig c = true) : modesOk c = true := by
  simp only [legalConfig, Bool.and_eq_true] at legal
  obtain ⟨⟨⟨⟨⟨modes, -⟩, -⟩, -⟩, -⟩, -⟩ := legal
  exact modes

theorem causesOk_of_legalConfig {c : Config} (legal : legalConfig c = true) : causesOk c = true := by
  simp only [legalConfig, Bool.and_eq_true] at legal
  obtain ⟨⟨⟨-, causes⟩, -⟩, -⟩ := legal
  exact causes

theorem even_resetPc {c : Config} (legal : legalConfig c = true) : c.resetPc.getLsbD 0 = false := by
  simp only [legalConfig, Bool.and_eq_true] at legal
  obtain ⟨⟨-, even⟩, -⟩ := legal
  simpa [resetPcOk] using even

/-- The code of every exception is legal for software (R144). -/
theorem mcauseLegal_exception {c : Config} (causes : causesOk c = true) (e : Exc) :
    mcauseLegal c { int := false, code := e.code } = true := by
  have codes : e.code.toNat ∈ [1, 2, 3, 4, 5, 6, 7, 11] := by cases e <;> decide
  rw [causesOk, Bool.and_eq_true, List.all_eq_true] at causes
  exact causes.1 _ codes

/-- The code of every interrupt that can be taken is legal for software (R144, R496). -/
theorem mcauseLegal_interrupt {c : Config} (causes : causesOk c = true) {b : IrqBits} {k : BitVec 63}
    (taken : highestPriority b = some k) : mcauseLegal c { int := true, code := k } = true := by
  have codes : k.toNat ∈ [3, 7, 11] := by
    unfold highestPriority at taken
    split at taken
    · cases taken; decide
    · split at taken
      · cases taken; decide
      · split at taken <;> cases taken
        decide
  rw [causesOk, Bool.and_eq_true, List.all_eq_true, List.all_eq_true] at causes
  exact causes.2 _ codes

/-! ## The CSR fields -/

theorem mcauseOk_of_legal {s : State} (h : mcauseLegal s.cfg s.mcause = true) : mcauseOk s = true := by
  rw [mcauseOk, h, Bool.true_or]

/-- `mtval` keeps what fits in `MTVAL_WIDTH` bits (R152). -/
theorem mtvalClip_mtvalClip (c : Config) (v : Word) : mtvalClip c (mtvalClip c v) = mtvalClip c v := by
  have fits : v.toNat % 2 ^ c.mtvalWidth < 2 ^ 64 := (Nat.mod_le _ _).trans_lt v.isLt
  simp only [mtvalClip, BitVec.toNat_ofNat, Nat.mod_eq_of_lt fits, Nat.mod_mod]

theorem mtvalOk_of_clip {s : State} {v : Word} (h : s.mtval = mtvalClip s.cfg v) : mtvalOk s = true := by
  rw [mtvalOk, h, mtvalClip_mtvalClip, beq_self_eq_true]

theorem mtvalOk_of_zero {s : State} (h : s.mtval = 0) : mtvalOk s = true :=
  mtvalOk_of_clip (v := 0) (by simp [h, mtvalClip])

theorem mtvalOk_trapEntry (e : Exc) (tval : Word) {s : State} (h : mtvalOk s = true) :
    mtvalOk (trapEntry e tval s) = true := by
  by_cases ro : mtvalReadonly s.cfg = true
  · simpa [mtvalOk, ro] using h
  · exact mtvalOk_of_clip (by rw [trapEntry_mtval, if_neg ro]; rfl)

theorem mtvecLegal_of_word {c : Config} {v : Word} {t : Mtvec} (h : mtvecLegalOfWord c v = some t) :
    mtvecLegal c t = true := by
  unfold mtvecLegalOfWord at h
  split at h
  · split at h
    next legal => cases h; exact legal
    next => cases h
  · cases h

/-- A software write of `mtvec` keeps it legal, whatever `MTVEC_CUSTOM_WRITE` answers (R131). -/
theorem mtvecLegal_write {c : Config} {t : Mtvec} (v : Word) (h : mtvecLegal c t = true) :
    mtvecLegal c (mtvecWrite c t v) = true := by
  have illegal : mtvecLegal c (mtvecIllegal c t v) = true := by
    unfold mtvecIllegal
    split
    · exact h
    · split
      next t' e => exact mtvecLegal_of_word e
      next => exact h
  unfold mtvecWrite
  split
  · exact h
  · split
    next t' e => exact mtvecLegal_of_word e
    next => exact illegal

/-- A field that holds a written bit where the parameter makes it writable, and its old value elsewhere, is 0 where the
parameter makes it read-only 0. -/
theorem readOnlyZero_write {old writable : Bool} (new : Bool) (h : (!old || writable) = true) :
    (!(if writable then new else old) || writable) = true := by
  cases writable <;> simp_all

theorem mstatusOk_write {s : State} (v : Word) (h : mstatusOk s = true) :
    mstatusOk { s with mstatus := mstatusWrite s.cfg s.mstatus v } = true := by
  simp only [mstatusOk, Bool.and_eq_true] at h ⊢
  obtain ⟨⟨tsr, tw⟩, mxr⟩ := h
  exact ⟨⟨readOnlyZero_write _ tsr, readOnlyZero_write _ tw⟩, readOnlyZero_write _ mxr⟩

theorem mieOk_write (s : State) (v : Word) : mieOk { s with mie := mieWrite s.cfg v } = true := by
  simp [mieOk, mieWrite, Bool.not_and, Bool.or_assoc]

/-! ## What keeps the invariant -/

section
variable {s : State} (inv : Inv s)
include inv

theorem wf_of_inv : s.mem.wf = true := by
  obtain ⟨-, -, mem, -⟩ := inv
  exact mem

theorem inv_applyInputs : Inv (applyInputs s) := inv

theorem inv_endStep : Inv (endStep s) := inv

theorem inv_writeReg (xd : Reg) (v : Word) : Inv (writeReg xd v s) := inv

theorem inv_retireTo {npc : Word} (even : npc.getLsbD 0 = false) : Inv (retireTo npc s) := ⟨even, inv.2⟩

theorem inv_retire {len : Word} (even : len.getLsbD 0 = false) : Inv (retire len s) :=
  inv_retireTo inv (even_add inv.1 even)

theorem inv_csrRetire (r : Csr) : Inv (csrRetire r s) := by
  unfold csrRetire
  split
  · exact ⟨even_add inv.1 (by decide), inv.2⟩
  · exact inv_retire inv (by decide)

theorem inv_trapReturn : Inv (trapReturn s) := by
  obtain ⟨-, mepc, rest⟩ := inv
  exact ⟨mepc, mepc, rest⟩

theorem inv_trapEntry (causes : causesOk s.cfg = true) (e : Exc) (tval : Word) : Inv (trapEntry e tval s) := by
  obtain ⟨pc, -, mem, mtvec, mtval, mie, inhibit, mstatus, -⟩ := inv
  exact ⟨even_target s.mtvec, pc, mem, mtvec, mtvalOk_trapEntry e tval mtval, mie, inhibit, mstatus,
    mcauseOk_of_legal (mcauseLegal_exception causes e)⟩

theorem inv_takeInterrupt (causes : causesOk s.cfg = true) {b : IrqBits} {c : BitVec 63}
    (taken : highestPriority b = some c) : Inv (takeInterrupt c s) := by
  obtain ⟨pc, -, mem, mtvec, -, mie, inhibit, mstatus, -⟩ := inv
  exact ⟨even_vector s.mtvec c, pc, mem, mtvec, mtvalOk_of_zero rfl, mie, inhibit, mstatus,
    mcauseOk_of_legal (mcauseLegal_interrupt causes taken)⟩

theorem inv_of_onlyMemory {t : State} (only : OnlyMemory s t) (wf : t.mem.wf = true) : Inv t := by
  obtain ⟨pc, mepc, -, csrs⟩ := inv
  unfold OnlyMemory at only
  rw [only]
  exact ⟨pc, mepc, wf, csrs⟩

/-- A software write keeps every CSR field at a value its rule allows (R413). -/
theorem inv_csrWrite {r : Csr} {v : Word} {t : State} (h : csrWrite r v s = some t) : Inv t := by
  obtain ⟨pc, mepc, mem, mtvec, mtval, mie, inhibit, mstatus, mcause⟩ := inv
  cases r with
  | mstatus => cases h; exact ⟨pc, mepc, mem, mtvec, mtval, mie, inhibit, mstatusOk_write v mstatus, mcause⟩
  | mie => cases h; exact ⟨pc, mepc, mem, mtvec, mtval, mieOk_write s v, inhibit, mstatus, mcause⟩
  | mtvec => cases h; exact ⟨pc, mepc, mem, mtvecLegal_write v mtvec, mtval, mie, inhibit, mstatus, mcause⟩
  | mcountinhibit =>
    cases h
    simp only [mcountinhibitOk, Bool.and_eq_true] at inhibit
    obtain ⟨cy, ir⟩ := inhibit
    exact ⟨pc, mepc, mem, mtvec, mtval, mie,
      Bool.and_eq_true_iff.mpr ⟨readOnlyZero_write _ cy, readOnlyZero_write _ ir⟩, mstatus, mcause⟩
  | mepc => cases h; exact ⟨pc, even_clearBit0 v, mem, mtvec, mtval, mie, inhibit, mstatus, mcause⟩
  | mtval => cases h; exact ⟨pc, mepc, mem, mtvec, mtvalOk_of_clip rfl, mie, inhibit, mstatus, mcause⟩
  | mcause =>
    simp only [csrWrite] at h
    split at h
    next legal => cases h; exact ⟨pc, mepc, mem, mtvec, mtval, mie, inhibit, mstatus, mcauseOk_of_legal legal⟩
    next =>
      split at h <;> cases h
      exact ⟨pc, mepc, mem, mtvec, mtval, mie, inhibit, mstatus, mcause⟩
  | mscratch | mcycle | minstret | misa | mip | cycle | time | instret | mvendorid | marchid | mimpid | mhartid =>
    cases h
    exact ⟨pc, mepc, mem, mtvec, mtval, mie, inhibit, mstatus, mcause⟩

end

/-! ## Every shape of instruction keeps the invariant -/

section
variable {s t : State} (inv : Inv s)
include inv

theorem inv_complete {len : Word} {xd : Reg} {v : Word} (h : complete len xd v s = .next t)
    (even : len.getLsbD 0 = false) : Inv t := by
  cases h
  exact inv_retire (inv_writeReg inv xd v) even

theorem inv_completeNop {len : Word} (h : completeNop len s = .next t) (even : len.getLsbD 0 = false) : Inv t := by
  cases h
  exact inv_retire inv even

theorem inv_jumpLink {len : Word} {xd : Reg} {target : Word} (h : jumpLink len xd target s = .next t)
    (even : target.getLsbD 0 = false) : Inv t := by
  cases h
  exact inv_retireTo (inv_writeReg inv xd _) even

theorem inv_branch {len : Word} {taken : Bool} {offset : Word} (h : branch len taken offset s = .next t)
    (evenLen : len.getLsbD 0 = false) (evenOffset : offset.getLsbD 0 = false) : Inv t := by
  cases h
  refine inv_retireTo inv ?_
  split
  · exact even_add inv.1 evenOffset
  · exact even_add inv.1 evenLen

variable (causes : causesOk s.cfg = true)
include causes

theorem inv_raiseExc {e : Exc} {tval : Word} (h : raiseExc e tval s = .next t) : Inv t := by
  cases h
  exact inv_trapEntry inv causes e tval

/-- A load keeps the invariant, whether it completes or traps. -/
theorem inv_load {va : Word} {n : Nat} {len : Word} {xd : Reg} {ext : Nat → Word}
    (h : (memRead va n s).finish (fun v s' => retire len (writeReg xd (ext v) s')) = .next t)
    (even : len.getLsbD 0 = false) : Inv t := by
  rcases load_cases va n len xd ext s with ⟨v, s', e, o, m⟩ | ⟨x, tval, s', e, -, o, m⟩ | ⟨a, e⟩
  · rw [e] at h; cases h
    exact inv_retire (inv_writeReg (inv_of_onlyMemory inv o (m ▸ wf_of_inv inv)) _ _) even
  · rw [e] at h; cases h
    exact inv_trapEntry (inv_of_onlyMemory inv o (m ▸ wf_of_inv inv)) ((SameLaunch.of_onlyMemory o).cfg ▸ causes) _ _
  · rw [e] at h; cases h

/-- A store keeps the invariant, whether it completes or traps with some bytes written (R213). -/
theorem inv_store {len : Word} {n : Nat} {xs2 : Reg} {va : Word} (h : store len n xs2 va s = .next t)
    (even : len.getLsbD 0 = false) : Inv t := by
  rcases store_cases len n xs2 va s with ⟨s', e, o, m⟩ | ⟨x, tval, s', e, -, o, m⟩
  · rw [e] at h; cases h
    exact inv_retire (inv_of_onlyMemory inv o (m (wf_of_inv inv))) even
  · rw [e] at h; cases h
    exact inv_trapEntry (inv_of_onlyMemory inv o (m (wf_of_inv inv))) ((SameLaunch.of_onlyMemory o).cfg ▸ causes) _ _

/-- The access path of the CSR instructions keeps the invariant. -/
theorem inv_csrAccess {ins : Word} {a : CsrAddr} {xd : Reg} {will : Bool} {new : Word → Word}
    (h : csrAccess ins a xd will new s = .next t) : Inv t := by
  rcases csrAccess_cases ins a xd will new s with e | e | ⟨r, -, -, e⟩ | ⟨r, s', -, -, -, hw, e⟩
  · rw [e] at h; cases h
    exact inv_trapEntry inv causes _ _
  · rw [e] at h; cases h
  · rw [e] at h; cases h
    exact inv_retire (inv_writeReg inv _ _) (by decide)
  · rw [e] at h; cases h
    exact inv_csrRetire (inv_writeReg (inv_csrWrite inv hw) _ _) r

/-- Every instruction keeps the invariant: each is a call of one shared operation, with an even length, and where it sets
the pc itself with an even target or offset. -/
theorem inv_exec {i : Instr} (h : exec i s = .next t) : Inv t := by
  cases i with
  | add | sub | sll | slt | sltu | xor | srl | sra | or | and | addi | slti | sltiu | xori | ori | andi | slli | srli
  | srai | lui | auipc | mul | mulh | mulhsu | mulhu | div | divu | rem | remu | addiw | slliw | srliw | sraiw | addw
  | subw | sllw | srlw | sraw | mulw | divw | divuw | remw | remuw | cAddi4spn | cNop | cAddi | cAddiw | cLi | cAddi16sp
  | cLui | cSrli | cSrai | cAndi | cSub | cXor | cOr | cAnd | cSubw | cAddw | cSlli | cMv | cAdd =>
    exact inv_complete inv h (by decide)
  | fence | fenceTso | wfi => exact inv_completeNop inv h (by decide)
  | jal | cJ => exact inv_jumpLink inv h (even_add inv.1 (even_sext_append_zero _))
  | jalr | cJr | cJalr => exact inv_jumpLink inv h (even_clearBit0 _)
  | beq | bne | blt | bge | bltu | bgeu | cBeqz | cBnez =>
    exact inv_branch inv h (by decide) (even_sext_append_zero _)
  | lb | lh | lw | ld | lbu | lhu | lwu | cLw | cLd | cLwsp | cLdsp => exact inv_load inv causes h (by decide)
  | sb | sh | sw | sd | cSw | cSd | cSwsp | cSdsp => exact inv_store inv causes h (by decide)
  | ecall | ebreak | cEbreak => exact inv_raiseExc inv causes h
  | mret =>
    cases h
    exact inv_retireTo (inv_trapReturn inv) (inv_trapReturn inv).1
  | csrrw => rw [exec_csrrw] at h; exact inv_csrAccess inv causes h
  | csrrs => rw [exec_csrrs] at h; exact inv_csrAccess inv causes h
  | csrrc => rw [exec_csrrc] at h; exact inv_csrAccess inv causes h
  | csrrwi => rw [exec_csrrwi] at h; exact inv_csrAccess inv causes h
  | csrrsi => rw [exec_csrrsi] at h; exact inv_csrAccess inv causes h
  | csrrci => rw [exec_csrrci] at h; exact inv_csrAccess inv causes h

/-- Steps 2 to 5 of R550 keep the invariant. -/
theorem inv_interruptOrRun (h : interruptOrRun s = .next t) : Inv t := by
  rcases interruptOrRun_next h with ⟨c, taken, rfl⟩ | hrun
  · exact inv_takeInterrupt inv causes taken
  · rcases fetchRun_next hrun with ⟨r, i, -, -, hx⟩ | ⟨e, tval, rfl⟩
    · exact inv_exec inv causes hx
    · exact inv_trapEntry inv causes e tval

end

/-- Settles O8: only what comes between the inputs and the end of a step touches the fields of the invariant. -/
theorem everyStepKeepsTheInvariant : Obligations.EveryStepKeepsTheInvariant := by
  intro s t inv h
  obtain ⟨legal, u, hu, rfl⟩ := step_next h
  exact inv_endStep (inv_interruptOrRun (inv_applyInputs inv) (causesOk_of_legalConfig legal) hu)

/-! ## Reset -/

/-- The bits of `mstatus` that no draw sets read 0x1800 where `MIE` is 0 (R82, R85). -/
theorem mstatusWord_fixedBits (mpie tsr tw mxr : Bool) :
    (mstatusWord ⟨false, mpie, tsr, tw, mxr⟩).toNat &&& (2 ^ 64 - 1 - (128 + 2 ^ 22 + 2 ^ 21 + 2 ^ 19)) = 0x1800 := by
  revert mpie tsr tw mxr
  decide

/-- Settles O6: the fields are those `State.boot` sets, and the fixed bits of `mstatus` are the same for every draw. -/
theorem resetLeavesTheStatedValues : Obligations.ResetLeavesTheStatedValues := by
  refine ⟨fun c d => ⟨rfl, rfl, rfl, rfl, rfl, rfl, rfl, rfl, rfl, rfl, rfl, fun cy => ?_, fun ir => ?_,
    mstatusWord_fixedBits _ _ _ _⟩, Config.standard, Draws.zero, rfl⟩
  · simp [State.boot, cy]
  · simp [State.boot, ir]

/-- A drawn bit that the configuration masks is 0 where it is not writable. -/
theorem readOnlyZero_mask (writable draw : Bool) : (!(writable && draw) || writable) = true := by
  cases writable
  · rfl
  · exact Bool.or_true _

theorem mtvecOk_boot {c : Config} (d : Draws) (legal : legalConfig c = true) : mtvecOk (State.boot c d) = true := by
  have modes := modesOk_of_legalConfig legal
  rw [modesOk, Bool.and_eq_true] at modes
  rw [mtvecOk, mtvecLegal, Bool.and_eq_true, toNat_target]
  exact ⟨modes.2, by simp [State.boot]⟩

/-- Every legal configuration starts in the invariant: base 0 has every alignment, and a drawn bit is masked. -/
theorem inv_boot {c : Config} (d : Draws) (legal : legalConfig c = true) : Inv (State.boot c d) :=
  ⟨even_resetPc legal, BitVec.getLsbD_zero, rfl, mtvecOk_boot d legal, mtvalOk_of_zero rfl, rfl,
    Bool.and_eq_true_iff.mpr ⟨readOnlyZero_mask _ _, readOnlyZero_mask _ _⟩,
    Bool.and_eq_true_iff.mpr ⟨Bool.and_eq_true_iff.mpr ⟨readOnlyZero_mask _ _, readOnlyZero_mask _ _⟩,
      readOnlyZero_mask _ _⟩,
    Bool.or_true _⟩

/-- Settles O7: `State.reset` is the start of a run of a configuration that is legal. -/
theorem invariantHoldsAtReset : Obligations.InvariantHoldsAtReset :=
  ⟨fun _ d legal => inv_boot d legal, inv_boot Draws.zero (by decide)⟩

end Sys2Proof.Machine
end

section
/-! PROOFS. Family 11_csr_trap.md. The interrupt that a step takes (R492 to R496), what software reads from each CSR as a
number (R412), and what a CSR write stores, or raises for an illegal `mcause` (R142, R413). -/

namespace Sys2Proof.Machine

/-! ## The interrupt that a step takes -/

/-- The code of the interrupt with priority, as the number of its bit (R496). -/
theorem highestPriority_eq_some {b : IrqBits} {c : Nat}
    (first : c = 11 ∧ b.mei = true ∨ c = 3 ∧ b.mei = false ∧ b.msi = true
      ∨ c = 7 ∧ b.mei = false ∧ b.msi = false ∧ b.mti = true) :
    highestPriority b = some (BitVec.ofNat 63 c) := by
  rcases first with ⟨rfl, mei⟩ | ⟨rfl, mei, msi⟩ | ⟨rfl, mei, msi, mti⟩
  · simp [highestPriority, mei]
  · simp [highestPriority, mei, msi]
  · simp [highestPriority, mei, msi, mti]

/-- While interrupts are enabled, the mask is the wires of the step and `mie` (R491, R492). -/
theorem pendingAndEnabled_applyInputs {s : State} (enabled : s.mstatus.mie = true) :
    pendingAndEnabled (applyInputs s)
      = { mei := (currentIrq s).mei && s.mie.mei, mti := (currentIrq s).mti && s.mie.mti,
          msi := (currentIrq s).msi && s.mie.msi } := by
  simp [pendingAndEnabled, enabled]

/-- Where a run goes on and an interrupt has priority, the step takes it and fetches nothing (R495, R550). -/
theorem step_takes {s : State} {c : BitVec 63} (legal : legalConfig s.cfg = true)
    (goes : halted (applyInputs s) = false) (taken : highestPriority (pendingAndEnabled (applyInputs s)) = some c) :
    step s = .next (endStep (takeInterrupt c (applyInputs s))) := by
  change cycle s = _
  rw [cycle, if_pos legal, goes, interruptOrRun, taken]
  rfl

/-- Where an interrupt goes, as a number (R134). -/
theorem toNat_vector (m : Mtvec) (c : BitVec 63) :
    (m.vector c).toNat = (4 * m.base.toNat + (if m.mode = .vectored then 4 * c.toNat else 0)) % 2 ^ 64 := by
  have target := toNat_target m
  have bound := m.target.isLt
  rw [Mtvec.vector]
  cases m.mode with
  | direct =>
    simp only [reduceCtorEq, if_false]
    omega
  | vectored =>
    simp only [if_true, BitVec.toNat_add, BitVec.toNat_ofNat]
    omega

/-- Settles O13: with interrupts enabled the mask is the wires and `mie`, and its first code is taken. -/
theorem pendingInterruptIsTaken : Obligations.PendingInterruptIsTaken := by
  intro s c legal goes enabled pending
  have taken : highestPriority (pendingAndEnabled (applyInputs s)) = some (BitVec.ofNat 63 c) := by
    rw [pendingAndEnabled_applyInputs enabled]
    refine highestPriority_eq_some ?_
    simpa only [Bool.and_eq_true] using pending
  have small : (BitVec.ofNat 63 c).toNat = c := by
    rcases pending with ⟨rfl, -⟩ | ⟨rfl, -⟩ | ⟨rfl, -⟩ <;> rfl
  refine ⟨_, step_takes legal goes taken, rfl, rfl, rfl, ?_, ?_, rfl, rfl, rfl, rfl, rfl, rfl, fun _ => rfl,
    fun _ => rfl, rfl⟩
  · simp [enabled]
  · have target := toNat_vector s.mtvec (BitVec.ofNat 63 c)
    rwa [small] at target

/-! ## What software reads -/

theorem toNat_append_eq {n m : Nat} (a : BitVec n) (b : BitVec m) :
    (a ++ b).toNat = 2 ^ m * a.toNat + b.toNat := by
  rw [BitVec.toNat_append, ← Nat.shiftLeft_add_eq_or_of_lt b.isLt, Nat.shiftLeft_eq, Nat.mul_comm]

theorem toNat_clearBit0 (v : Word) : (clearBit0 v).toNat = v.toNat / 2 * 2 := by
  have shifted : clearBit0 v = v.extractLsb' 1 63 ++ (0 : BitVec 1) := by
    refine BitVec.eq_of_getLsbD_eq fun i hi => ?_
    rw [clearBit0, BitVec.getLsbD_and, BitVec.getLsbD_not, BitVec.getLsbD_append, BitVec.getLsbD_extractLsb']
    cases i with
    | zero => simp
    | succ i => simp [Nat.add_comm, hi, Nat.lt_of_succ_lt_succ hi]
  have bound := v.isLt
  rw [shifted, toNat_append_eq, BitVec.extractLsb'_toNat, Nat.shiftRight_eq_div_pow, BitVec.ofNat_eq_ofNat,
    BitVec.toNat_zero]
  omega

theorem toNat_mstatusWord (m : Mstatus) :
    (mstatusWord m).toNat = 0x1800 + 128 * m.mpie.toNat + 8 * m.mie.toNat + 2 ^ 22 * m.tsr.toNat
      + 2 ^ 21 * m.tw.toNat + 2 ^ 19 * m.mxr.toNat := by
  obtain ⟨mie, mpie, tsr, tw, mxr⟩ := m
  revert mie mpie tsr tw mxr
  decide

theorem toNat_misaWord (c : Config) :
    (misaWord c).toNat
      = if c.misaCsrImplemented then 0x8000000000000104 + 2 ^ 12 * c.mImplemented.toNat else 0 := by
  rw [misaWord]
  cases c.misaCsrImplemented <;> cases c.mImplemented <;> rfl

theorem toNat_irqWord (b : IrqBits) :
    (irqWord b).toNat = 2 ^ 11 * b.mei.toNat + 2 ^ 7 * b.mti.toNat + 2 ^ 3 * b.msi.toNat := by
  obtain ⟨mei, mti, msi⟩ := b
  revert mei mti msi
  decide

theorem toNat_inhibitBits (cy ir : Bool) : (bitAt ir 2 ||| bitAt cy 0).toNat = 4 * ir.toNat + cy.toNat := by
  revert cy ir
  decide

theorem toNat_modeBits (m : VecMode) : (modeBits m).toNat = if m = .vectored then 1 else 0 := by
  cases m <;> rfl

theorem toNat_mcauseWord (m : Mcause) : (mcauseWord m).toNat = 2 ^ 63 * m.int.toNat + m.code.toNat := by
  rw [mcauseWord, toNat_append_eq, BitVec.toNat_ofBool]

theorem toNat_vendorId (bank : BitVec 25) (offset : BitVec 7) :
    (zext (bank ++ offset) : Word).toNat = 128 * bank.toNat + offset.toNat := by
  have bound := (bank ++ offset).isLt
  rw [toNat_append_eq] at bound
  rw [zext, BitVec.toNat_setWidth, toNat_append_eq]
  omega

/-- Settles O51: each CSR reads the number that its word comes to. -/
theorem csrsReadAsTheirFields : Obligations.CsrsReadAsTheirFields := fun s =>
  ⟨toNat_mstatusWord s.mstatus, toNat_misaWord s.cfg, toNat_irqWord s.mie, toNat_irqWord s.mip,
    (toNat_mtvecWord s.mtvec).trans (congrArg (4 * s.mtvec.base.toNat + ·) (toNat_modeBits s.mtvec.mode)),
    toNat_inhibitBits s.mcountinhibit.cy s.mcountinhibit.ir, rfl, toNat_clearBit0 s.mepc, toNat_mcauseWord s.mcause,
    rfl, rfl, rfl, rfl, rfl, rfl, toNat_vendorId s.cfg.vendorIdBank s.cfg.vendorIdOffset, rfl, rfl, rfl⟩

/-! ## What a CSR write stores -/

/-- `s` after a software write of `v` to `r`, field by field: each holds what the rule of its CSR keeps of `v`, or its old
value where `r` is another CSR (R413). -/
def csrWritten (r : Csr) (v : Word) (s : State) : State :=
  { s with
    mstatus := if r = .mstatus then mstatusWrite s.cfg s.mstatus v else s.mstatus
    mie := if r = .mie then mieWrite s.cfg v else s.mie
    mtvec := if r = .mtvec then mtvecWrite s.cfg s.mtvec v else s.mtvec
    mcountinhibit :=
      { cy := if r = .mcountinhibit ∧ s.cfg.countinhibitCy = true then bitOf v 0 else s.mcountinhibit.cy
        ir := if r = .mcountinhibit ∧ s.cfg.countinhibitIr = true then bitOf v 2 else s.mcountinhibit.ir }
    mscratch := if r = .mscratch then v else s.mscratch
    mepc := if r = .mepc then clearBit0 v else s.mepc
    mcause := if r = .mcause ∧ mcauseLegal s.cfg (mcauseOfWord v) = true then mcauseOfWord v else s.mcause
    mtval := if r = .mtval then mtvalClip s.cfg v else s.mtval
    mcycle := if r = .mcycle then v else s.mcycle
    minstret := if r = .minstret then v else s.minstret }

/-- A software write that does not raise leaves `csrWritten`. -/
theorem eq_csrWritten {r : Csr} {v : Word} {s t : State} (h : csrWrite r v s = some t) : t = csrWritten r v s := by
  cases r with
  | mcountinhibit =>
    cases h
    simp [csrWritten]
  | mcause =>
    simp only [csrWrite] at h
    split at h
    next legal => cases h; simp [csrWritten, legal]
    next illegal =>
      split at h <;> cases h
      simp [csrWritten, illegal]
  | mstatus | mie | mtvec | mscratch | mepc | mtval | mcycle | minstret | misa | mip | cycle | time | instret
  | mvendorid | marchid | mimpid | mhartid =>
    cases h
    rfl

/-- The completion of a CSR write, as one update: a write of `minstret` is not counted on top (R180). -/
theorem csrRetire_eq (r : Csr) (s : State) :
    csrRetire r s
      = { s with pc := s.pc + 4
                 minstret := if r = .minstret ∨ s.mcountinhibit.ir = true then s.minstret else s.minstret + 1 } := by
  unfold csrRetire
  by_cases counter : r = .minstret
  · simp [counter]
  · simp [counter, retire, retireTo]

/-- Only the write of an illegal cause raises, and only where `TRAP_ON_ILLEGAL_WLRL` is true (R142). -/
theorem csrWrite_eq_written {r : Csr} {v : Word} {s : State}
    (takes : r = .mcause → CauseLegal s v ∨ s.cfg.trapOnIllegalWlrl = false) :
    csrWrite r v s = some (csrWritten r v s) := by
  cases h : csrWrite r v s with
  | some t => rw [eq_csrWritten h]
  | none =>
    obtain ⟨cause, illegal, traps⟩ := csrWrite_none h
    rcases takes cause with legal | silent
    · rw [(mcauseLegal_iff s v).mpr legal] at illegal
      cases illegal
    · rw [silent] at traps
      cases traps

theorem toNat_mcauseOfWord_code (v : Word) : (mcauseOfWord v).code.toNat = v.toNat % 2 ^ 63 := by
  simp [mcauseOfWord, BitVec.extractLsb'_toNat]

/-- A CSR instruction that wrote `v` to `r` did what `CsrWrote` says. -/
theorem csrWrote_retire (r : Csr) (xd : Reg) (old v : Word) (s : State) :
    CsrWrote r xd old v s (csrRetire r (writeReg xd old (csrWritten r v s))) := by
  rw [csrRetire_eq]
  refine ⟨fun dest => (readReg_writeReg_same xd old s).trans (if_neg dest), sameRegsExcept_writeReg xd old s, rfl,
    ⟨fun _ => rfl, rfl⟩, rfl, rfl, rfl, rfl, apply_ite Mstatus.mie _ _ _, apply_ite Mstatus.mpie _ _ _, ?tsr, ?tw, ?mxr,
    apply_ite IrqBits.mei _ _ _, apply_ite IrqBits.mti _ _ _, apply_ite IrqBits.msi _ _ _, rfl, rfl, rfl, ?mepc, rfl,
    ?legalCause, ?otherCause, ?mtvec, fun other => if_neg other, rfl, ?minstret⟩
  case tsr => exact (apply_ite Mstatus.tsr _ _ _).trans (ite_and _ _ _ _).symm
  case tw => exact (apply_ite Mstatus.tw _ _ _).trans (ite_and _ _ _ _).symm
  case mxr => exact (apply_ite Mstatus.mxr _ _ _).trans (ite_and _ _ _ _).symm
  case mepc =>
    rw [← toNat_clearBit0]
    exact apply_ite BitVec.toNat _ _ _
  case legalCause =>
    rintro ⟨cause, legal⟩
    have wrote : (csrWritten r v s).mcause = mcauseOfWord v := if_pos ⟨cause, (mcauseLegal_iff s v).mpr legal⟩
    exact ⟨congrArg Mcause.int wrote, (congrArg (·.code.toNat) wrote).trans (toNat_mcauseOfWord_code v)⟩
  case otherCause =>
    intro other
    rw [← mcauseLegal_iff] at other
    exact if_neg other
  case mtvec => exact fun base => mtvecAfter_of_write (if_pos base)
  case minstret =>
    by_cases counter : r = .minstret <;> simp [counter, csrWritten]

/-! ## The access path where it writes -/

/-- Where a form writes a writable CSR, only the write itself decides between completing and raising: the CSR exists in
every configuration, and its address is not read-only (R411, R414). -/
theorem csrAccess_writable {r : Csr} (writable : r ∉ [.cycle, .time, .instret, .mvendorid, .marchid, .mimpid, .mhartid])
    (ins : Word) (xd : Reg) {will : Bool} (writes : will = true) (new : Word → Word) (s : State) :
    csrAccess ins r.address xd will new s
      = (csrWrite r (new (csrRead r s)) s).elim (.next (trapEntry .illegalInstruction ins s))
          fun s' => .next (csrRetire r (writeReg xd (csrRead r s) s')) := by
  have found : csrLookup s.cfg r.address = some r := csrLookup_address (by cases r <;> simp_all [Csr.exists?])
  have mutable : csrReadOnly r.address = false := by
    revert writable
    cases r <;> decide
  rw [csrAccess, found, writes]
  simp only [mutable, Bool.and_false, Bool.false_eq_true, if_false, if_true]
  cases csrWrite r (new (csrRead r s)) s <;> rfl

/-- A form that writes a writable CSR with a value it takes completes with that write. -/
theorem csrAccess_wrote {r : Csr} (writable : r ∉ [.cycle, .time, .instret, .mvendorid, .marchid, .mimpid, .mhartid])
    (ins : Word) (xd : Reg) {will : Bool} (writes : will = true) {new : Word → Word} {s : State}
    (takes : r = .mcause → CauseLegal s (new (csrRead r s)) ∨ s.cfg.trapOnIllegalWlrl = false) :
    ∃ t, csrAccess ins r.address xd will new s = .next t ∧ CsrWrote r xd (csrRead r s) (new (csrRead r s)) s t := by
  refine ⟨_, ?_, csrWrote_retire r xd _ _ s⟩
  rw [csrAccess_writable writable ins xd writes, csrWrite_eq_written takes]
  rfl

/-- Settles O53: each of the six forms is the access path with its own value to write. -/
theorem csrWritesStore : Obligations.CsrWritesStore := by
  intro r xd xs1 uimm s writable old takes x u
  refine ⟨fun h => ?_, fun src h => ?_, fun src h => ?_, fun h => ?_, fun src h => ?_, fun src h => ?_⟩
  · rw [exec_csrrw]
    exact csrAccess_wrote writable _ xd rfl h
  · rw [exec_csrrs]
    exact csrAccess_wrote writable _ xd (bne_iff_ne.mpr src) h
  · rw [exec_csrrc]
    exact csrAccess_wrote writable _ xd (bne_iff_ne.mpr src) h
  · rw [exec_csrrwi]
    exact csrAccess_wrote writable _ xd rfl h
  · rw [exec_csrrsi]
    exact csrAccess_wrote writable _ xd (bne_iff_ne.mpr src) h
  · rw [exec_csrrci]
    exact csrAccess_wrote writable _ xd (bne_iff_ne.mpr src) h

/-! ## The illegal cause -/

/-- A write of `mcause` with no valid cause raises where `TRAP_ON_ILLEGAL_WLRL` is true (R142). -/
theorem csrWrite_illegalCause {s : State} {v : Word} (traps : s.cfg.trapOnIllegalWlrl = true)
    (illegal : ¬ CauseLegal s v) : csrWrite .mcause v s = none := by
  rw [← mcauseLegal_iff] at illegal
  rw [csrWrite, if_neg illegal, if_pos traps]

/-- A form that writes such a cause takes the illegal-instruction exception with its own word (R413, R478). -/
theorem csrAccess_illegalCause {s : State} (traps : s.cfg.trapOnIllegalWlrl = true) (ins : Word) (xd : Reg)
    {will : Bool} (writes : will = true) {new : Word → Word} (illegal : ¬ CauseLegal s (new (csrRead .mcause s))) :
    ∃ t, csrAccess ins (Csr.address .mcause) xd will new s = .next t
      ∧ Trapped 2 (mtvalAfter s s.cfg.reportEncodingIllegal ins) s t := by
  refine ⟨_, ?_, trapped_of (e := .illegalInstruction) rfl ins s rfl⟩
  rw [csrAccess_writable (by decide) ins xd writes, csrWrite_illegalCause traps illegal]
  rfl

/-- Settles O54: each of the six forms is the access path with its own value to write. -/
theorem illegalCauseWritesTrap : Obligations.IllegalCauseWritesTrap := by
  intro xd xs1 uimm s traps old x u word trapped
  refine ⟨fun h => ?_, fun src h => ?_, fun src h => ?_, fun h => ?_, fun src h => ?_, fun src h => ?_⟩
  · rw [exec_csrrw]
    exact csrAccess_illegalCause traps _ xd rfl h
  · rw [exec_csrrs]
    exact csrAccess_illegalCause traps _ xd (bne_iff_ne.mpr src) h
  · rw [exec_csrrc]
    exact csrAccess_illegalCause traps _ xd (bne_iff_ne.mpr src) h
  · rw [exec_csrrwi]
    exact csrAccess_illegalCause traps _ xd rfl h
  · rw [exec_csrrsi]
    exact csrAccess_illegalCause traps _ xd (bne_iff_ne.mpr src) h
  · rw [exec_csrrci]
    exact csrAccess_illegalCause traps _ xd (bne_iff_ne.mpr src) h

end Sys2Proof.Machine
end

section
/-! PROOFS. Family 12_csr_id_counters.md. Where the inputs of a step come from (R175, R186, R490), what the end of a step
does to `mcycle` (R175, R176), and that a read-only CSR refuses every write (R161, R414). -/

namespace Sys2Proof.Machine

/-! ## Read-only CSRs -/

/-- A form that writes a read-only CSR takes the illegal-instruction exception with its own word, whatever it would have
written: address bits 11:10 are 11 (R414, R478). -/
theorem csrAccess_readOnly {r : Csr} (readOnly : r ∈ [.cycle, .time, .instret, .mvendorid, .marchid, .mimpid, .mhartid])
    {s : State} (has : r.exists? s.cfg = true) {ins : Word} {xd : Reg} {will : Bool} (writes : will = true)
    {new : Word → Word} :
    ∃ t, csrAccess ins r.address xd will new s = .next t
      ∧ Trapped 2 (mtvalAfter s s.cfg.reportEncodingIllegal ins) s t := by
  have fixed : csrReadOnly r.address = true := by
    revert readOnly
    cases r <;> decide
  refine ⟨_, ?_, trapped_of (e := .illegalInstruction) rfl ins s rfl⟩
  rw [csrAccess, csrLookup_address has, writes, fixed]
  rfl

/-- Settles O55: all six forms go through the one access path, and each writes unless its source is 0. -/
theorem readOnlyCsrsRefuseWrites : Obligations.ReadOnlyCsrsRefuseWrites := by
  intro r xd xs1 uimm s readOnly has word trapped
  simp only [exec_csrrw, exec_csrrs, exec_csrrc, exec_csrrwi, exec_csrrsi, exec_csrrci]
  exact ⟨csrAccess_readOnly readOnly has rfl,
    fun src => csrAccess_readOnly readOnly has (bne_iff_ne.mpr src),
    fun src => csrAccess_readOnly readOnly has (bne_iff_ne.mpr src),
    csrAccess_readOnly readOnly has rfl,
    fun src => csrAccess_readOnly readOnly has (bne_iff_ne.mpr src),
    fun src => csrAccess_readOnly readOnly has (bne_iff_ne.mpr src)⟩

/-! ## The inputs of a step -/

section
variable {s : State}

theorem currentInputs_of_cons {i : StepInputs} {rest : List StepInputs} (listed : s.inputs = i :: rest) :
    currentInputs s = i := by
  rw [currentInputs, listed]

theorem currentInputs_of_defaults (done : s.inputs = []) (later : s.cfg.laterInputs = .defaults) :
    currentInputs s = { irq := ⟨false, false, false⟩, mtime := BitVec.ofNat 64 s.stepNo, cycles := 1 } := by
  rw [currentInputs, done, later]

theorem currentInputs_of_source {n : Nat} (done : s.inputs = []) (later : s.cfg.laterInputs = .source n) :
    currentInputs s
      = { irq := ⟨Config.laterWire n s.stepNo 11, Config.laterWire n s.stepNo 7, Config.laterWire n s.stepNo 3⟩
          mtime := Config.laterMtime n s.stepNo
          cycles := Config.laterCycles n s.stepNo } := by
  rw [currentInputs, done, later]

end

/-- Settles O10: one clause per source of the inputs. -/
theorem inputsComeFromTheirSources : Obligations.InputsComeFromTheirSources := by
  intro s
  refine ⟨fun i rest listed => currentInputs_of_cons listed, fun done later => ?_, fun n done later => ?_⟩
  · rw [currentIrq, currentMtime, currentInputs_of_defaults done later]
    exact ⟨rfl, BitVec.toNat_ofNat _ _, rfl⟩
  · rw [currentIrq, currentMtime, currentInputs_of_source done later]
    exact ⟨rfl, rfl, rfl⟩

/-- The inputs stay the same within a step: they depend on the three fields alone that only its end may move. -/
theorem SameLaunch.currentInputs_eq {s t : State} (h : SameLaunch s t) : currentInputs t = currentInputs s := by
  rw [currentInputs, currentInputs, h.inputs, h.cfg, h.stepNo]

/-! ## The end of a step -/

/-- `mcycle` after a step, while it counts (R175). -/
theorem toNat_endStep_mcycle {s : State} (counts : s.mcountinhibit.cy = false) :
    (endStep s).mcycle.toNat = (s.mcycle.toNat + (currentInputs s).cycles) % 2 ^ 64 := by
  rw [endStep_mcycle, counts, if_neg Bool.false_ne_true, BitVec.toNat_add, BitVec.toNat_ofNat, Nat.add_mod_mod]

/-- `mcycle` stands still while it is inhibited (R176). -/
theorem endStep_mcycle_of_inhibited {s : State} (inhibited : s.mcountinhibit.cy = true) :
    (endStep s).mcycle = s.mcycle := by
  rw [endStep_mcycle, if_pos inhibited]

/-- Settles O11: the step is an interrupt or an instruction, which keeps the inputs of the step, and then `endStep`. -/
theorem cyclesAreCountedAtTheEndOfTheStep : Obligations.CyclesAreCountedAtTheEndOfTheStep := by
  intro s t h
  obtain ⟨_, u, hu, rfl⟩ := step_next h
  have inputs : currentInputs u = currentInputs s :=
    ((SameLaunch.applyInputs s).trans (interruptOrRun_sameLaunch hu)).currentInputs_eq
  refine ⟨u, hu, fun counts => ?_, endStep_mcycle_of_inhibited, rfl, rfl, rfl, rfl⟩
  rw [toNat_endStep_mcycle counts, inputs]

end Sys2Proof.Machine
end

section
/-! PROOFS. Family 20_memory.md. A fetch outside `ram` (R216), and the data accesses of R206 to R215: whole, split or
trapping, into memory and to devices. Each is first a fact about `MemRead` and `MemWrite`, then one about every load and
store. -/

namespace Sys2Proof.Machine

/-! ## Fetch (R216) -/

theorem fetchHalf_outside {s : State} {va : Word} (outside : ¬ RamAccess s va 2) :
    fetchHalf va s = .trap .instructionAccessFault va s := by
  rw [fetchHalf, if_neg (mt (accessCheck_ram_iff s va Nat.two_pos).mp outside)]

/-- Two bytes of `ram` are the halfword of their number, the lower address less significant (R201). -/
theorem fetchHalf_ram {s : State} {va : Word} {b0 b1 : Byte} (ram : RamAccess s va 2)
    (low : s.mem.get? va.toNat = some b0) (high : s.mem.get? (va.toNat + 1) = some b1) :
    fetchHalf va s = .done (BitVec.ofNat 16 (b0.toNat + 256 * b1.toNat)) s := by
  rw [fetchHalf, if_pos ((accessCheck_ram_iff s va Nat.two_pos).mpr ram)]
  simp [readLe, low, high]

/-- The lower byte alone says whether a halfword begins a 32-bit instruction (R252). -/
theorem isWordHalf_bytes {b0 : Byte} (b1 : Byte) (announces : b0.toNat % 4 = 3) :
    isWordHalf (BitVec.ofNat 16 (b0.toNat + 256 * b1.toNat)) = true := by
  rw [isWordHalf_iff, BitVec.toNat_ofNat]
  omega

theorem fetch_outside {s : State} (outside : ¬ RamAccess s s.pc 2) :
    fetch s = .trap .instructionAccessFault s.pc s := by
  rw [fetch, fetchHalf_outside outside]

/-- The second half of a 32-bit instruction has a check of its own. -/
theorem fetch_secondOutside {s : State} {lo : BitVec 16} (first : fetchHalf s.pc s = .done lo s)
    (announces : isWordHalf lo = true) (outside : ¬ RamAccess s (s.pc + 2) 2) :
    fetch s = .trap .instructionAccessFault (s.pc + 2) s := by
  simp only [fetch, first, announces, if_true, fetchHalf_outside outside]

/-- Where a run goes on, no interrupt is taken and the fetch raises, the step is that exception (R550). -/
theorem step_fetchTrap {s : State} {e : Exc} {tval : Word} (legal : legalConfig s.cfg = true)
    (goes : halted (applyInputs s) = false) (idle : highestPriority (pendingAndEnabled (applyInputs s)) = none)
    (raises : fetch (applyInputs s) = .trap e tval (applyInputs s)) :
    step s = .next (endStep (trapEntry e tval (applyInputs s))) := by
  change cycle s = _
  rw [cycle, if_pos legal, goes, interruptOrRun_none idle, fetchRun, raises]
  rfl

/-- Settles O15: the first half is checked, and only then the second. -/
theorem fetchOutsideRamFaults : Obligations.FetchOutsideRamFaults := by
  intro s legal goes idle
  refine ⟨fun outside => ?_, fun b0 b1 ram low high announces outside => ?_⟩
  · exact ⟨_, trapped_of (e := .instructionAccessFault) rfl s.pc (applyInputs s) rfl,
      step_fetchTrap legal goes idle (fetch_outside outside)⟩
  · have first : fetchHalf s.pc (applyInputs s) = .done _ (applyInputs s) := fetchHalf_ram ram low high
    exact ⟨_, trapped_of (e := .instructionAccessFault) rfl (s.pc + 2) (applyInputs s) rfl,
      step_fetchTrap legal goes idle (fetch_secondOutside first (isWordHalf_bytes b1 announces) outside)⟩

/-! ## One checked access (R209) -/

theorem readWhole_denied {s : State} {va : Word} {n : Nat} (hn : 0 < n) (bad : BadAccess s va n) :
    readWhole va n s = .trap .loadAccessFault va s := by
  rw [readWhole, (accessCheck_denied_iff s va hn).mpr bad]

theorem writeWhole_denied {s : State} {va : Word} {n : Nat} (hn : 0 < n) (v : Nat) (bad : BadAccess s va n) :
    writeWhole va n v s = .trap .storeAmoAccessFault va s := by
  rw [writeWhole, (accessCheck_denied_iff s va hn).mpr bad]

theorem writeWhole_ram {s : State} {va : Word} {n : Nat} (hn : 0 < n) (v : Nat) (ram : RamAccess s va n) :
    writeWhole va n v s = .done () { s with mem := writeLe s.mem va.toNat n v } := by
  rw [writeWhole, (accessCheck_ram_iff s va hn).mpr ram]

/-- A read from a device is one host event and answers some `n`-byte value (R220, R231). -/
theorem readWhole_io {s : State} {va : Word} {n d : Nat} (hn : 0 < n) (device : IoAccess s d va n) :
    ∃ v, v < 256 ^ n ∧ readWhole va n s = .done v { s with ioLog := .read va.toNat n :: s.ioLog } := by
  refine ⟨(Config.ioReadValue s.ioLog.length va.toNat n).toNat % 256 ^ n, Nat.mod_lt _ (Nat.pow_pos (by omega)), ?_⟩
  rw [readWhole, (accessCheck_io_iff s d va hn).mpr device]

theorem writeWhole_io {s : State} {va : Word} {n d : Nat} (hn : 0 < n) (v : Nat) (device : IoAccess s d va n) :
    writeWhole va n v s = .done () { s with ioLog := .write va.toNat n (v % 256 ^ n) :: s.ioLog } := by
  rw [writeWhole, (accessCheck_io_iff s d va hn).mpr device]

/-! ## Misaligned accesses that trap (R210, R211) -/

theorem memRead_misaligned {s : State} {va : Word} {n : Nat} (hn : 0 < n) (misaligned : va.toNat % n ≠ 0)
    (atomic : ¬ Atomic s va n) (traps : s.cfg.misalignedLdst = false) :
    memRead va n s = .trap (if s.cfg.misalignedPriority = .low ∧ accessCheck s.cfg va.toNat n = .denied then
      .loadAccessFault else .loadAddressMisaligned) va s := by
  rw [memRead, if_neg (by simpa [aligned] using misaligned), if_neg (by rwa [misalignedAtomic_iff s va hn]), traps,
    if_neg Bool.false_ne_true]
  split <;> rfl

theorem memWrite_misaligned {s : State} {va : Word} {n : Nat} (hn : 0 < n) (v : Nat) (misaligned : va.toNat % n ≠ 0)
    (atomic : ¬ Atomic s va n) (traps : s.cfg.misalignedLdst = false) :
    memWrite va n v s = .trap (if s.cfg.misalignedPriority = .low ∧ accessCheck s.cfg va.toNat n = .denied then
      .storeAmoAccessFault else .storeAmoAddressMisaligned) va s := by
  rw [memWrite, if_neg (by simpa [aligned] using misaligned), if_neg (by rwa [misalignedAtomic_iff s va hn]), traps,
    if_neg Bool.false_ne_true]
  split <;> rfl

/-! ## From `MemRead` and `MemWrite` to the loads and the stores -/

section
variable {i : Instr} {s : State} {va : Word} {n : Nat} (acc : i.access s = some (va, n))
include acc

theorem exec_load_done {xd : Reg} {v : Nat} {u : State} (load : i.isStore = false) (dest : i.dest = some xd)
    (read : memRead va n s = .done v u) : exec i s = .next (retire i.len (writeReg xd (i.loaded n v) u)) := by
  obtain ⟨xd', dest', e⟩ := exec_load acc load
  obtain rfl : xd' = xd := Option.some.inj (dest'.symm.trans dest)
  rw [e, read]
  rfl

theorem exec_load_trap {e : Exc} {tval : Word} {u : State} (load : i.isStore = false)
    (read : memRead va n s = .trap e tval u) : exec i s = .next (trapEntry e tval u) := by
  obtain ⟨xd, -, h⟩ := exec_load acc load
  rw [h, read]
  rfl

theorem exec_store_done {u : State} (isStore : i.isStore = true)
    (write : memWrite va n (readReg i.storeSource s).toNat s = .done () u) : exec i s = .next (retire i.len u) := by
  rw [exec_store acc isStore, store, write]
  rfl

theorem exec_store_trap {e : Exc} {tval : Word} {u : State} (isStore : i.isStore = true)
    (write : memWrite va n (readReg i.storeSource s).toNat s = .trap e tval u) :
    exec i s = .next (trapEntry e tval u) := by
  rw [exec_store acc isStore, store, write]
  rfl

end

/-! ## What the end of an access leaves -/

/-- After an access that moved memory and the host's log alone, taking its exception is `TookTrap` from the start. -/
theorem tookTrap_of_onlyMemory {s u : State} {e : Exc} {code : BitVec 63} (only : OnlyMemory s u) (same : e.code = code)
    (tval : Word) {report : Bool} (filter : mtvalFor s.cfg e tval = if report then tval else 0) :
    TookTrap code (mtvalAfter s report tval) s (trapEntry e tval u) := by
  unfold OnlyMemory at only
  rw [only]
  exact (trapped_of same tval { s with mem := u.mem, ioLog := u.ioLog } filter).1

/-- After a write that moved memory and the host's log alone, retiring counts, moves the pc and keeps the rest. -/
theorem frame_retire_of_onlyMemory {s u : State} (only : OnlyMemory s u) (len : Word) :
    (retire len u).pc = s.pc + len ∧ Counted s (retire len u) ∧ SameRegs s (retire len u)
      ∧ SameTrapCsrs s (retire len u) ∧ SameRun s (retire len u) := by
  unfold OnlyMemory at only
  rw [only]
  exact ⟨rfl, rfl, fun _ => rfl, ⟨rfl, rfl, rfl, rfl, rfl, rfl, rfl, rfl⟩, rfl, rfl, rfl, rfl, rfl⟩

/-- After a read that moved the host's log alone, all but that log is as if nothing but the register was written. -/
theorem wroteReg_retire_of_ioLog {s u : State} (only : u = { s with ioLog := u.ioLog }) (len : Word) (xd : Reg)
    (v : Word) : WroteReg len xd v s { retire len (writeReg xd v u) with ioLog := s.ioLog } := by
  rw [only]
  exact wroteReg_retire len xd v s

/-- A store of `n` bytes that writes memory did what `Stored` says. -/
theorem stored_retire (len va : Word) (n : Nat) (v : Word) (s : State) :
    Stored len va n v s (retire len { s with mem := writeLe s.mem va.toNat n v.toNat }) := by
  refine ⟨fun a => ?_, rfl, frame_retire_of_onlyMemory (.refl _) len⟩
  rw [retire_mem, get?_writeLe, byte_of_word]

/-! ## Whole accesses -/

/-- Settles O40: the access is one checked read or write, and the check passes to memory or fails. -/
theorem wholeAccessesTransferOrFault : Obligations.WholeAccessesTransferOrFault := by
  intro i s va n acc whole
  obtain ⟨hn, -⟩ := access_size acc
  refine ⟨fun xd v load dest ram holds => ?_, fun isStore ram => ?_, fun load bad => ?_, fun isStore bad => ?_⟩
  · exact ⟨_, exec_load_done acc load dest ((memRead_whole hn whole).trans (readWhole_of_holds hn ram holds)),
      wroteReg_retire _ _ _ _⟩
  · exact ⟨_, exec_store_done acc isStore ((memWrite_whole hn _ whole).trans (writeWhole_ram hn _ ram)),
      stored_retire _ _ _ _ _⟩
  · exact ⟨_, exec_load_trap acc load ((memRead_whole hn whole).trans (readWhole_denied hn bad)),
      trapped_of rfl va s rfl⟩
  · exact ⟨_, exec_store_trap acc isStore ((memWrite_whole hn _ whole).trans (writeWhole_denied hn _ bad)),
      trapped_of rfl va s rfl⟩

/-! ## Misaligned accesses -/

/-- Settles O41: the priority and the access check alone choose between the two exceptions. -/
theorem misalignedAccessesTrap : Obligations.MisalignedAccessesTrap := by
  intro i s va n acc misaligned atomic traps
  obtain ⟨hn, -⟩ := access_size acc
  have denied := accessCheck_denied_iff s va hn
  have read := memRead_misaligned hn misaligned atomic traps
  have write := memWrite_misaligned hn (readReg i.storeSource s).toNat misaligned atomic traps
  refine ⟨fun low bad => ?_, fun other => ?_⟩
  · rw [if_pos ⟨low, denied.mpr bad⟩] at read write
    cases kind : i.isStore with
    | false => exact ⟨_, exec_load_trap acc kind read, fun _ => trapped_of rfl va s rfl, nofun⟩
    | true => exact ⟨_, exec_store_trap acc kind write, nofun, fun _ => trapped_of rfl va s rfl⟩
  · have passes : ¬ (s.cfg.misalignedPriority = .low ∧ accessCheck s.cfg va.toNat n = .denied) := by
      rintro ⟨low, fails⟩
      rcases other with high | good
      · rw [low] at high
        cases high
      · exact good (denied.mp fails)
    rw [if_neg passes] at read write
    cases kind : i.isStore with
    | false => exact ⟨_, exec_load_trap acc kind read, fun _ => trapped_of rfl va s rfl, nofun⟩
    | true => exact ⟨_, exec_store_trap acc kind write, nofun, fun _ => trapped_of rfl va s rfl⟩

/-- Settles O42: byte by byte, the split read joins what memory holds and the split write replaces it. -/
theorem splitAccessesGoByteByByte : Obligations.SplitAccessesGoByteByByte := by
  intro i s va n acc misaligned atomic split ram
  obtain ⟨hn, small⟩ := access_size acc
  refine ⟨fun xd v load dest holds => ?_, fun isStore => ?_⟩
  · have bytes := readSplit_ram n va s v.toNat ram fun k hk => by rw [holds k hk, byte_of_bytes]
    rw [mod_of_bytes, ← memRead_split hn misaligned atomic split] at bytes
    exact ⟨_, exec_load_done acc load dest bytes, wroteReg_retire _ _ _ _⟩
  · obtain ⟨m, bytes, own, others⟩ := writeSplit_ram (readReg i.storeSource s).toNat small ram
    rw [← memWrite_split hn _ misaligned atomic split] at bytes
    exact ⟨_, exec_store_done acc isStore bytes, fun k hk => (own k hk).trans (congrArg some (byte_of_word _ k)), others,
      rfl, frame_retire_of_onlyMemory (.refl _) i.len⟩

/-- Settles O43: the bytes before the first failing one are done, and its check raises. -/
theorem splitAccessesFaultAtTheFirstBadByte : Obligations.SplitAccessesFaultAtTheFirstBadByte := by
  intro i s va n j acc misaligned atomic split hj passes bad
  obtain ⟨hn, small⟩ := access_size acc
  refine ⟨fun load written => ?_, fun isStore => ?_⟩
  · obtain ⟨u, read, events, only⟩ := readSplit_bad j n va s hj passes bad written
    rw [← memRead_split hn misaligned atomic split] at read
    have memory : u.mem = s.mem := by rw [only]
    have onlyMemory : OnlyMemory s u := by rw [OnlyMemory, memory, ← only]
    exact ⟨_, exec_load_trap acc load read, tookTrap_of_onlyMemory onlyMemory rfl _ rfl, events,
      fun a => congrArg (Memory.get? · a) memory⟩
  · obtain ⟨m, log, write, bytes, events⟩ :=
      writeSplit_bad j n va (readReg i.storeSource s).toNat s small hj passes bad
    rw [← memWrite_split hn _ misaligned atomic split] at write
    exact ⟨_, exec_store_trap acc isStore write, tookTrap_of_onlyMemory (.refl _) rfl _ rfl,
      deviceWrites_of_splitEvents events, splitStored_of_bytes bytes⟩

/-! ## Devices -/

/-- A number of `n` bytes is that of a bit vector. -/
theorem toNat_ofNat_of_lt {n v : Nat} (lt : v < 256 ^ n) : (BitVec.ofNat (8 * n) v).toNat = v := by
  rw [BitVec.toNat_ofNat, pow_mul]
  exact Nat.mod_eq_of_lt lt

/-- Settles O44: a whole access is one event; a split one has those of its devices' bytes, and memory for the others. -/
theorem deviceAccessesAreHostEvents : Obligations.DeviceAccessesAreHostEvents := by
  refine ⟨fun i s va n d acc whole device => ?_, fun i s va n acc misaligned atomic split passes => ?_⟩
  · obtain ⟨hn, -⟩ := access_size acc
    refine ⟨fun xd load dest => ?_, fun isStore => ?_⟩
    · obtain ⟨v, lt, answer⟩ := readWhole_io hn device
      rw [← memRead_whole hn whole] at answer
      exact ⟨v, _, lt, exec_load_done acc load dest answer, rfl, wroteReg_retire_of_ioLog rfl _ _ _⟩
    · exact ⟨_, exec_store_done acc isStore ((memWrite_whole hn _ whole).trans (writeWhole_io hn _ device)), rfl,
        onlyPc_retireTo _ s⟩
  · obtain ⟨hn, small⟩ := access_size acc
    refine ⟨fun xd load dest written => ?_, fun isStore => ?_⟩
    · obtain ⟨v, u, lt, read, events, only, bytes⟩ := readSplit_passes n va s passes written
      rw [← memRead_split hn misaligned atomic split, ← toNat_ofNat_of_lt lt] at read
      refine ⟨BitVec.ofNat (8 * n) v, _, exec_load_done acc load dest read, events,
        wroteReg_retire_of_ioLog only _ _ _, fun k hk memory => ?_⟩
      rw [bytes k hk memory, byte_of_bytes, toNat_ofNat_of_lt lt]
    · obtain ⟨m, log, write, bytes, events⟩ := writeSplit_passes n va (readReg i.storeSource s).toNat s small passes
      rw [← memWrite_split hn _ misaligned atomic split] at write
      exact ⟨_, exec_store_done acc isStore write, deviceWrites_of_splitEvents events, splitStored_of_bytes bytes,
        frame_retire_of_onlyMemory (.refl _) i.len⟩

/-! ## What no access changes -/

theorem access_sizes {i : Instr} {s : State} {va : Word} {n : Nat} (acc : i.access s = some (va, n)) :
    n = 1 ∨ n = 2 ∨ n = 4 ∨ n = 8 := by
  cases i <;> simp [Instr.access] at acc <;> omega

/-- A whole access lies in one aligned block, so it ends at or below 2^64 and none of its addresses wraps. -/
theorem whole_fits {i : Instr} {s : State} {va : Word} {n : Nat} (acc : i.access s = some (va, n))
    (whole : va.toNat % n = 0 ∨ Atomic s va n) : va.toNat + n ≤ 2 ^ 64 := by
  have bound := va.isLt
  rcases whole with aligned | ⟨-, -, p, block, -, inside⟩
  · rcases access_sizes acc with rfl | rfl | rfl | rfl <;> omega
  · simp only [List.mem_cons, List.not_mem_nil, or_false] at block
    rcases block with rfl | rfl | rfl | rfl <;> dsimp only at inside <;> omega

/-- `a` is the address of none of the `n` bytes at `va`, modulo 2^64. -/
def Outside (va : Word) (n a : Nat) : Prop := ∀ k, k < n → a ≠ (va + BitVec.ofNat 64 k).toNat

theorem Outside.tail {va : Word} {n a : Nat} (out : Outside va (n + 1) a) : Outside (va + 1) n a := fun k hk => by
  rw [add_one_add_ofNat]
  exact out (k + 1) (by omega)

theorem Outside.head {va : Word} {n a : Nat} (out : Outside va (n + 1) a) : Outside va 1 a := fun k hk =>
  out k (by omega)

/-- `r` leaves the state `u`, with a value or an exception. -/
def Res.Leaves {α : Type} (r : Res α) (u : State) : Prop := (∃ a, r = .done a u) ∨ ∃ e tval, r = .trap e tval u

theorem Res.leaves_done {α : Type} {a : α} {s u : State} (h : (Res.done a s).Leaves u) : u = s := by
  rcases h with ⟨_, e⟩ | ⟨_, _, e⟩ <;> cases e
  rfl

theorem Res.leaves_trap {α : Type} {e : Exc} {tval : Word} {s u : State}
    (h : (Res.trap e tval s : Res α).Leaves u) : u = s := by
  rcases h with ⟨_, e⟩ | ⟨_, _, e⟩ <;> cases e
  rfl

/-- An instruction with a next state went on from what its last part left, or took an exception there. -/
theorem Res.finish_next {α : Type} {r : Res α} {k : α → State → State} {t : State} (h : r.finish k = .next t) :
    ∃ u, r.Leaves u ∧ ((∃ a, t = k a u) ∨ ∃ e tval, t = trapEntry e tval u) := by
  cases r with
  | done a u => cases h; exact ⟨u, .inl ⟨a, rfl⟩, .inl ⟨a, rfl⟩⟩
  | trap e tval u => cases h; exact ⟨u, .inr ⟨e, tval, rfl⟩, .inr ⟨e, tval, rfl⟩⟩
  | stuck f => cases h

theorem writeWhole_outside {va : Word} {n v a : Nat} {s u : State} (fits : va.toNat + n ≤ 2 ^ 64)
    (out : Outside va n a) (h : (writeWhole va n v s).Leaves u) : u.mem.get? a = s.mem.get? a := by
  unfold writeWhole at h
  split at h
  · rw [Res.leaves_done h, get?_writeLe, if_neg]
    rintro ⟨above, below⟩
    refine out (a - va.toNat) (by omega) ?_
    rw [BitVec.toNat_add, BitVec.toNat_ofNat]
    omega
  · rw [Res.leaves_done h]
  · rw [Res.leaves_trap h]

/-- A split write changes only its own bytes, also where it faults midway. -/
theorem writeSplit_outside {a : Nat} (n : Nat) : ∀ (va : Word) (v : Nat) (s u : State), Outside va n a →
    (writeSplit va n v s).Leaves u → u.mem.get? a = s.mem.get? a := by
  induction n with
  | zero => intro va v s u _ h; rw [Res.leaves_done h]
  | succ n ih =>
    intro va v s u out h
    have fits : va.toNat + 1 ≤ 2 ^ 64 := va.isLt
    unfold writeSplit at h
    split at h
    next s1 first => exact (ih _ _ _ _ out.tail h).trans (writeWhole_outside fits out.head (.inl ⟨_, first⟩))
    next e tval s1 first =>
      rw [Res.leaves_trap h]
      exact writeWhole_outside fits out.head (.inr ⟨_, _, first⟩)
    next => rcases h with ⟨_, e⟩ | ⟨_, _, e⟩ <;> cases e

/-- The write of a store, whole, split or trapping, changes only its own bytes (R215). -/
theorem memWrite_outside {i : Instr} {va : Word} {n v a : Nat} {s u : State} (acc : i.access s = some (va, n))
    (out : Outside va n a) (h : (memWrite va n v s).Leaves u) : u.mem.get? a = s.mem.get? a := by
  obtain ⟨hn, -⟩ := access_size acc
  by_cases whole : va.toNat % n = 0 ∨ Atomic s va n
  · rw [memWrite_whole hn v whole] at h
    exact writeWhole_outside (whole_fits acc whole) out h
  · obtain ⟨misaligned, atomic⟩ := not_or.mp whole
    cases ldst : s.cfg.misalignedLdst with
    | true =>
      rw [memWrite_split hn v misaligned atomic ldst] at h
      exact writeSplit_outside n va v s u out h
    | false =>
      rw [memWrite_misaligned hn v misaligned atomic ldst] at h
      rw [Res.leaves_trap h]

/-- A store changes only its own bytes, whether it completes or traps. -/
theorem exec_store_outside {i : Instr} {va : Word} {n a : Nat} {s t : State} (acc : i.access s = some (va, n))
    (isStore : i.isStore = true) (out : Outside va n a) (h : exec i s = .next t) : t.mem.get? a = s.mem.get? a := by
  rw [exec_store acc isStore] at h
  obtain ⟨u, leaves, ending⟩ := Res.finish_next h
  have kept := memWrite_outside acc out leaves
  rcases ending with ⟨_, rfl⟩ | ⟨e, tval, rfl⟩
  · exact kept
  · exact kept

theorem OnlyMemory.mip_eq {s t : State} (only : OnlyMemory s t) : t.mip = s.mip := by
  unfold OnlyMemory at only
  rw [only]

theorem OnlyCsrs.mem_mip_eq {s t : State} (only : OnlyCsrs s t) : t.mem = s.mem ∧ t.mip = s.mip := by
  unfold OnlyCsrs at only
  rw [only]
  exact ⟨rfl, rfl⟩

theorem csrRetire_mem_mip (r : Csr) (s : State) : (csrRetire r s).mem = s.mem ∧ (csrRetire r s).mip = s.mip := by
  unfold csrRetire
  split
  · exact ⟨rfl, rfl⟩
  · exact ⟨rfl, rfl⟩

theorem load_mem_mip {va : Word} {n : Nat} {len : Word} {xd : Reg} {ext : Nat → Word} {s t : State}
    (h : (memRead va n s).finish (fun v s' => retire len (writeReg xd (ext v) s')) = .next t) :
    t.mem = s.mem ∧ t.mip = s.mip := by
  rcases load_cases va n len xd ext s with ⟨v, s', e, only, m⟩ | ⟨x, tval, s', e, -, only, m⟩ | ⟨a, e⟩ <;>
    rw [e] at h <;> cases h
  · exact ⟨m, only.mip_eq⟩
  · exact ⟨m, only.mip_eq⟩

theorem store_mip {len : Word} {n : Nat} {xs2 : Reg} {va : Word} {s t : State} (h : store len n xs2 va s = .next t) :
    t.mip = s.mip := by
  rcases store_cases len n xs2 va s with ⟨s', e, only, -⟩ | ⟨x, tval, s', e, -, only, -⟩ <;> rw [e] at h <;> cases h
  · exact only.mip_eq
  · exact only.mip_eq

theorem csrAccess_mem_mip {ins : Word} {a : CsrAddr} {xd : Reg} {will : Bool} {new : Word → Word} {s t : State}
    (h : csrAccess ins a xd will new s = .next t) : t.mem = s.mem ∧ t.mip = s.mip := by
  rcases csrAccess_cases ins a xd will new s with e | e | ⟨r, -, -, e⟩ | ⟨r, s', -, -, -, write, e⟩ <;> rw [e] at h <;>
    cases h
  · exact ⟨rfl, rfl⟩
  · exact ⟨rfl, rfl⟩
  · obtain ⟨mem, mip⟩ := (csrWrite_onlyCsrs write).mem_mip_eq
    obtain ⟨mem', mip'⟩ := csrRetire_mem_mip r (writeReg xd (csrRead r s) s')
    exact ⟨mem'.trans mem, mip'.trans mip⟩

/-- No instruction changes `mip`, which only the start of a step sets (R491). -/
theorem ExecShape.mip_eq {s t : State} {o : Host.Outcome State Fault Refusal} (shape : ExecShape s o)
    (h : o = .next t) : t.mip = s.mip := by
  cases shape with
  | complete | nop | jump | branch | raise | ret => cases h; rfl
  | load => exact (load_mem_mip h).2
  | store => exact store_mip h
  | csr => exact (csrAccess_mem_mip h).2

/-- An instruction that is no store leaves memory as it was: it is a load, a CSR access, or an update of other fields. -/
theorem exec_mem_of_not_store {i : Instr} {s t : State} (other : i.isStore = false) (h : exec i s = .next t) :
    t.mem = s.mem := by
  cases i with
  | sb | sh | sw | sd | cSw | cSd | cSwsp | cSdsp => cases other
  | lb | lh | lw | ld | lbu | lhu | lwu | cLw | cLd | cLwsp | cLdsp => exact (load_mem_mip h).1
  | csrrw => rw [exec_csrrw] at h; exact (csrAccess_mem_mip h).1
  | csrrs => rw [exec_csrrs] at h; exact (csrAccess_mem_mip h).1
  | csrrc => rw [exec_csrrc] at h; exact (csrAccess_mem_mip h).1
  | csrrwi => rw [exec_csrrwi] at h; exact (csrAccess_mem_mip h).1
  | csrrsi => rw [exec_csrrsi] at h; exact (csrAccess_mem_mip h).1
  | csrrci => rw [exec_csrrci] at h; exact (csrAccess_mem_mip h).1
  | _ => cases h; rfl

/-- Settles O60: memory by the kind of the instruction, the other fields by its shape. -/
theorem onlyStoresChangeMemory : Obligations.OnlyStoresChangeMemory := by
  intro i s t h
  have launch := (exec_shape i s).sameLaunch h
  refine ⟨fun other a => ?_, fun va n isStore acc a out => exec_store_outside acc isStore out h,
    (exec_shape i s).mip_eq h, launch.cfg, launch.inputs, launch.stepNo⟩
  rw [exec_mem_of_not_store other h]

end Sys2Proof.Machine
end

section
/-! PROOFS. Family 30_encoding.md. The tables read the encoding of every well-formed instruction as that instruction
(R266, R580, R633) and read nothing else, a mask keeps the fixed fields of its row, bits without a meaning trap or stop
(R280). -/

namespace Sys2Proof

variable {w : BitVec 32} {h : BitVec 16}

/-! ## Bits are the layout of their fields, the fixed ones at their values -/

theorem rWord_fields {f7 : BitVec 7} {f3 : BitVec 3} {op : BitVec 7} (o : opcodeOf w = op)
    (h7 : funct7Of w = f7) (h3 : funct3Of w = f3) : rWord f7 (xs2Of w) (xs1Of w) f3 (xdOf w) op = w := by
  rw [← h7, ← h3, ← o, ← eq_rWord]

theorem iWord_fields {f3 : BitVec 3} {op : BitVec 7} (o : opcodeOf w = op) (h3 : funct3Of w = f3) :
    iWord (iImmOf w) (xs1Of w) f3 (xdOf w) op = w := by
  rw [← h3, ← o, ← eq_iWord]

theorem shiftWord_fields {f6 : BitVec 6} {f3 : BitVec 3} {op : BitVec 7} (o : opcodeOf w = op)
    (h6 : funct6Of w = f6) (h3 : funct3Of w = f3) : shiftWord f6 (shamt6Of w) (xs1Of w) f3 (xdOf w) op = w := by
  rw [← h3, ← h6, ← o, ← eq_shiftWord]

theorem sWord_fields {f3 : BitVec 3} {op : BitVec 7} (o : opcodeOf w = op) (h3 : funct3Of w = f3) :
    sWord (sImmOf w) (xs2Of w) (xs1Of w) f3 op = w := by
  rw [← h3, ← o, ← eq_sWord]

theorem bWord_fields {f3 : BitVec 3} {op : BitVec 7} (o : opcodeOf w = op) (h3 : funct3Of w = f3) :
    bWord (bImmOf w) (xs2Of w) (xs1Of w) f3 op = w := by
  rw [← h3, ← o, ← eq_bWord]

theorem uWord_fields {op : BitVec 7} (o : opcodeOf w = op) : uWord (uImmOf w) (xdOf w) op = w := by
  rw [← o, ← eq_uWord]

theorem jWord_fields {op : BitVec 7} (o : opcodeOf w = op) : jWord (jImmOf w) (xdOf w) op = w := by
  rw [← o, ← eq_jWord]

theorem fenceWord_fields (o : opcodeOf w = 0x0f) (h3 : funct3Of w = 0) :
    fenceWord (w.extractLsb' 28 4) (w.extractLsb' 24 4) (w.extractLsb' 20 4) (xs1Of w) (xdOf w) = w := by
  rw [fenceWord, ← h3, ← o]
  apply BitVec.eq_of_getLsbD_eq
  intro i hi
  simp only [xs1Of, funct3Of, xdOf, opcodeOf, BitVec.getLsbD_extractLsb', BitVec.getLsbD_append]
  interval_cases i <;> simp

theorem ciHalf_fields {f3 : BitVec 3} {op : BitVec 2} (o : cOpOf h = op) (h3 : cFunct3Of h = f3) :
    ciHalf f3 (cImm6Of h) (cRdOf h) op = h := by
  subst o h3
  apply BitVec.eq_of_getLsbD_eq
  intro i hi
  simp only [ciHalf, cFunct3Of, cImm6Of, cRdOf, cOpOf, BitVec.getLsbD_extractLsb', BitVec.getLsbD_append]
  interval_cases i <;> simp

theorem crHalf_fields {f3 : BitVec 3} {b : BitVec 1} {op : BitVec 2} (o : cOpOf h = op)
    (h3 : cFunct3Of h = f3) (h12 : cBit12Of h = b) : crHalf (f3 ++ b) (cRdOf h) (cRs2Of h) op = h := by
  subst o h3 h12
  apply BitVec.eq_of_getLsbD_eq
  intro i hi
  simp only [crHalf, cFunct3Of, cBit12Of, cRdOf, cRs2Of, cOpOf, BitVec.getLsbD_extractLsb', BitVec.getLsbD_append]
  interval_cases i <;> simp

theorem caHalf_fields {b : BitVec 1} {f2 : BitVec 2} (o : cOpOf h = 1) (h3 : cFunct3Of h = 4)
    (mid : h.extractLsb' 10 2 = 3) (h12 : cBit12Of h = b) (h2 : h.extractLsb' 5 2 = f2) :
    caHalf ((4 : BitVec 3) ++ b ++ (3 : BitVec 2)) (cRdPOf h) f2 (cRs2POf h) = h := by
  rw [caHalf, ← o, ← h3, ← mid]
  subst h12 h2
  apply BitVec.eq_of_getLsbD_eq
  intro i hi
  simp only [cFunct3Of, cBit12Of, cRdPOf, cRs2POf, cOpOf, BitVec.getLsbD_extractLsb', BitVec.getLsbD_append]
  interval_cases i <;> simp

theorem cbArithHalf_fields {f2 : BitVec 2} (o : cOpOf h = 1) (h3 : cFunct3Of h = 4)
    (mid : h.extractLsb' 10 2 = f2) : cbArithHalf f2 (cImm6Of h) (cRdPOf h) = h := by
  rw [cbArithHalf, ← o, ← h3, ← mid]
  apply BitVec.eq_of_getLsbD_eq
  intro i hi
  simp only [cFunct3Of, cImm6Of, cRdPOf, cOpOf, BitVec.getLsbD_extractLsb', BitVec.getLsbD_append]
  interval_cases i <;> simp

theorem cbBranchHalf_fields {f3 : BitVec 3} (o : cOpOf h = 1) (h3 : cFunct3Of h = f3) :
    cbBranchHalf f3 (cRdPOf h) (cBImmOf h) = h := by
  rw [cbBranchHalf, ← o, ← h3]
  apply BitVec.eq_of_getLsbD_eq
  intro i hi
  simp only [cFunct3Of, cBImmOf, cRdPOf, cOpOf, BitVec.getLsbD_extractLsb', BitVec.getLsbD_append]
  interval_cases i <;> simp

theorem clwHalf_fields {f3 : BitVec 3} (o : cOpOf h = 0) (h3 : cFunct3Of h = f3) :
    clwHalf f3 (cRdPOf h) (cRs2POf h) (cLwImmOf h) = h := by
  rw [clwHalf, ← o, ← h3]
  apply BitVec.eq_of_getLsbD_eq
  intro i hi
  simp only [cFunct3Of, cLwImmOf, cRdPOf, cRs2POf, cOpOf, BitVec.getLsbD_extractLsb', BitVec.getLsbD_append]
  interval_cases i <;> simp

theorem cldHalf_fields {f3 : BitVec 3} (o : cOpOf h = 0) (h3 : cFunct3Of h = f3) :
    cldHalf f3 (cRdPOf h) (cRs2POf h) (cLdImmOf h) = h := by
  rw [cldHalf, ← o, ← h3]
  apply BitVec.eq_of_getLsbD_eq
  intro i hi
  simp only [cFunct3Of, cLdImmOf, cRdPOf, cRs2POf, cOpOf, BitVec.getLsbD_extractLsb', BitVec.getLsbD_append]
  interval_cases i <;> simp

theorem cAddi4spnHalf_fields (o : cOpOf h = 0) (h3 : cFunct3Of h = 0) :
    cAddi4spnHalf (cRs2POf h) (cAddi4spnImmOf h) = h := by
  rw [cAddi4spnHalf, ← o, ← h3]
  apply BitVec.eq_of_getLsbD_eq
  intro i hi
  simp only [cFunct3Of, cAddi4spnImmOf, cRs2POf, cOpOf, BitVec.getLsbD_extractLsb', BitVec.getLsbD_append]
  interval_cases i <;> simp

theorem cAddi16spHalf_fields (o : cOpOf h = 1) (h3 : cFunct3Of h = 3) (rd : cRdOf h = 2) :
    cAddi16spHalf (cAddi16spImmOf h) = h := by
  rw [cAddi16spHalf, ← o, ← h3, ← rd]
  apply BitVec.eq_of_getLsbD_eq
  intro i hi
  simp only [cFunct3Of, cAddi16spImmOf, cRdOf, cOpOf, BitVec.getLsbD_extractLsb', BitVec.getLsbD_append]
  interval_cases i <;> simp

theorem cJHalf_fields (o : cOpOf h = 1) (h3 : cFunct3Of h = 5) : cJHalf (cJImmOf h) = h := by
  rw [cJHalf, ← o, ← h3]
  apply BitVec.eq_of_getLsbD_eq
  intro i hi
  simp only [cFunct3Of, cJImmOf, cOpOf, BitVec.getLsbD_extractLsb', BitVec.getLsbD_append]
  interval_cases i <;> simp

theorem cLwspHalf_fields (o : cOpOf h = 2) (h3 : cFunct3Of h = 2) :
    cLwspHalf (cRdOf h) (cLwspImmOf h) = h := by
  rw [cLwspHalf, ← o, ← h3]
  apply BitVec.eq_of_getLsbD_eq
  intro i hi
  simp only [cFunct3Of, cLwspImmOf, cRdOf, cOpOf, BitVec.getLsbD_extractLsb', BitVec.getLsbD_append]
  interval_cases i <;> simp

theorem cLdspHalf_fields (o : cOpOf h = 2) (h3 : cFunct3Of h = 3) :
    cLdspHalf (cRdOf h) (cLdspImmOf h) = h := by
  rw [cLdspHalf, ← o, ← h3]
  apply BitVec.eq_of_getLsbD_eq
  intro i hi
  simp only [cFunct3Of, cLdspImmOf, cRdOf, cOpOf, BitVec.getLsbD_extractLsb', BitVec.getLsbD_append]
  interval_cases i <;> simp

theorem cSwspHalf_fields (o : cOpOf h = 2) (h3 : cFunct3Of h = 6) :
    cSwspHalf (cRs2Of h) (cSwspImmOf h) = h := by
  rw [cSwspHalf, ← o, ← h3]
  apply BitVec.eq_of_getLsbD_eq
  intro i hi
  simp only [cFunct3Of, cSwspImmOf, cRs2Of, cOpOf, BitVec.getLsbD_extractLsb', BitVec.getLsbD_append]
  interval_cases i <;> simp

theorem cSdspHalf_fields (o : cOpOf h = 2) (h3 : cFunct3Of h = 7) :
    cSdspHalf (cRs2Of h) (cSdspImmOf h) = h := by
  rw [cSdspHalf, ← o, ← h3]
  apply BitVec.eq_of_getLsbD_eq
  intro i hi
  simp only [cFunct3Of, cSdspImmOf, cRs2Of, cOpOf, BitVec.getLsbD_extractLsb', BitVec.getLsbD_append]
  interval_cases i <;> simp

/-! ## What a table reads is the encoding of what it names -/

/-- Whatever instruction `o` names is well-formed, and `r` is its encoding. -/
def Reads (r : Raw) (o : Option Instr) : Prop := ∀ i, o = some i → encode i = r ∧ i.wellFormed = true

namespace Reads

theorem nothing {r : Raw} : Reads r none := nofun

theorem row {r : Raw} {i : Instr} (e : encode i = r) (wf : i.wellFormed = true) : Reads r (some i) := by
  rintro _ ⟨⟩
  exact ⟨e, wf⟩

theorem word {w v : BitVec 32} {i : Instr} (fields : v = w) (e : encode i = .word v := by rfl)
    (wf : i.wellFormed = true := by rfl) : Reads (.word w) (some i) :=
  row (e.trans (congrArg Raw.word fields)) wf

theorem half {h v : BitVec 16} {i : Instr} (fields : v = h) (e : encode i = .half v := by rfl)
    (wf : i.wellFormed = true := by rfl) : Reads (.half h) (some i) :=
  row (e.trans (congrArg Raw.half fields)) wf

theorem ite {r : Raw} {p : Prop} [Decidable p] {a b : Option Instr} (yes : p → Reads r a) (no : ¬ p → Reads r b) :
    Reads r (if p then a else b) := by
  split
  next h => exact yes h
  next h => exact no h

end Reads

theorem reads_decodeOp (op : opcodeOf w = 0x33) : Reads (.word w) (decodeOp w) := by
  refine .ite (fun f7 => ?_) fun _ => .ite (fun f7 => ?_) fun _ => .ite (fun f7 => ?_) fun _ => .nothing
  · iterate 8 refine .ite (fun f3 => .word (rWord_fields op f7 f3)) fun _ => ?_
    exact .nothing
  · iterate 2 refine .ite (fun f3 => .word (rWord_fields op f7 f3)) fun _ => ?_
    exact .nothing
  · iterate 8 refine .ite (fun f3 => .word (rWord_fields op f7 f3)) fun _ => ?_
    exact .nothing

theorem reads_decodeOp32 (op : opcodeOf w = 0x3b) : Reads (.word w) (decodeOp32 w) := by
  refine .ite (fun f7 => ?_) fun _ => .ite (fun f7 => ?_) fun _ => .ite (fun f7 => ?_) fun _ => .nothing
  · iterate 3 refine .ite (fun f3 => .word (rWord_fields op f7 f3)) fun _ => ?_
    exact .nothing
  · iterate 2 refine .ite (fun f3 => .word (rWord_fields op f7 f3)) fun _ => ?_
    exact .nothing
  · iterate 5 refine .ite (fun f3 => .word (rWord_fields op f7 f3)) fun _ => ?_
    exact .nothing

theorem reads_decodeOpImm (op : opcodeOf w = 0x13) : Reads (.word w) (decodeOpImm w) := by
  unfold decodeOpImm
  iterate 6 refine .ite (fun f3 => .word (iWord_fields op f3)) fun _ => ?_
  iterate 3 refine .ite (fun ⟨f3, f6⟩ => .word (shiftWord_fields op f6 f3)) fun _ => ?_
  exact .nothing

theorem reads_decodeLoad (op : opcodeOf w = 0x03) : Reads (.word w) (decodeLoad w) := by
  unfold decodeLoad
  iterate 7 refine .ite (fun f3 => .word (iWord_fields op f3)) fun _ => ?_
  exact .nothing

theorem reads_decodeStore (op : opcodeOf w = 0x23) : Reads (.word w) (decodeStore w) := by
  unfold decodeStore
  iterate 4 refine .ite (fun f3 => .word (sWord_fields op f3)) fun _ => ?_
  exact .nothing

theorem reads_decodeBranch (op : opcodeOf w = 0x63) : Reads (.word w) (decodeBranch w) := by
  unfold decodeBranch
  iterate 6 refine .ite (fun f3 => .word (bWord_fields op f3)) fun _ => ?_
  exact .nothing

theorem reads_decodeMiscMem (op : opcodeOf w = 0x0f) : Reads (.word w) (decodeMiscMem w) := by
  refine .ite (fun f3 => .ite (fun tso => ?_) fun other => ?_) fun _ => .nothing
  · obtain ⟨fm, pred, succ⟩ := tso
    have fields := fenceWord_fields op f3
    rw [fm, pred, succ] at fields
    exact .word fields
  · refine .word (fenceWord_fields op f3) rfl ?_
    simpa [Instr.wellFormed, imp_iff_not_or, or_assoc] using other

theorem reads_decodeSystem (op : opcodeOf w = 0x73) : Reads (.word w) (decodeSystem w) := by
  unfold decodeSystem
  iterate 6 refine .ite (fun f3 => .word (iWord_fields op f3)) fun _ => ?_
  iterate 4 refine .ite (fun all => .word all.symm) fun _ => ?_
  exact .nothing

theorem reads_decodeOpImm32 (op : opcodeOf w = 0x1b) : Reads (.word w) (decodeOpImm32 w) := by
  refine .ite (fun f3 => .word (iWord_fields op f3)) fun _ => ?_
  iterate 3 refine .ite (fun ⟨f3, f7⟩ => .word (rWord_fields op f7 f3)) fun _ => ?_
  exact .nothing

theorem reads_decodeWord (w : BitVec 32) : Reads (.word w) (decodeWord w) := by
  unfold decodeWord
  refine .ite reads_decodeOp fun _ => .ite reads_decodeOpImm fun _ => .ite reads_decodeLoad fun _ =>
    .ite reads_decodeStore fun _ => .ite reads_decodeBranch fun _ => ?_
  refine .ite (fun op => .word (uWord_fields op)) fun _ => .ite (fun op => .word (uWord_fields op)) fun _ =>
    .ite (fun op => .word (jWord_fields op)) fun _ =>
    .ite (fun op => .ite (fun f3 => .word (iWord_fields op f3)) fun _ => .nothing) fun _ => ?_
  exact .ite reads_decodeMiscMem fun _ => .ite reads_decodeSystem fun _ => .ite reads_decodeOpImm32 fun _ =>
    .ite reads_decodeOp32 fun _ => .nothing

theorem reads_decodeQ0 (o : cOpOf h = 0) : Reads (.half h) (decodeQ0 h) := by
  refine .ite (fun f3 => .ite (fun _ => .nothing) fun imm => ?_) fun _ => ?_
  · exact .half (cAddi4spnHalf_fields o f3) rfl (bne_iff_ne.mpr imm)
  refine .ite (fun f3 => .half (clwHalf_fields o f3)) fun _ => .ite (fun f3 => .half (cldHalf_fields o f3)) fun _ => ?_
  exact .ite (fun f3 => .half (clwHalf_fields o f3)) fun _ => .ite (fun f3 => .half (cldHalf_fields o f3)) fun _ =>
    .nothing

theorem reads_decodeQ1Arith (o : cOpOf h = 1) (f3 : cFunct3Of h = 4) : Reads (.half h) (decodeQ1Arith h) := by
  unfold decodeQ1Arith
  iterate 3 refine .ite (fun mid => .half (cbArithHalf_fields o f3 mid)) fun _ => ?_
  have mid : h.extractLsb' 10 2 = 3 := by bv_omega
  refine .ite (fun b12 => ?_) fun ne => ?_
  · iterate 3 refine .ite (fun f2 => .half (caHalf_fields o f3 mid b12 f2)) fun _ => ?_
    have f2 : h.extractLsb' 5 2 = 3 := by bv_omega
    exact .half (caHalf_fields o f3 mid b12 f2)
  · have b12 : cBit12Of h = 1 := by bv_omega
    iterate 2 refine .ite (fun f2 => .half (caHalf_fields o f3 mid b12 f2)) fun _ => ?_
    exact .nothing

theorem reads_decodeQ1 (o : cOpOf h = 1) : Reads (.half h) (decodeQ1 h) := by
  refine .ite (fun f3 => .ite (fun rd => ?_) fun rd => ?_) fun _ =>
    .ite (fun f3 => .ite (fun _ => .nothing) fun rd => ?_) fun _ => ?_
  · have fields := ciHalf_fields o f3
    rw [rd] at fields
    exact .half fields
  · exact .half (ciHalf_fields o f3) rfl (bne_iff_ne.mpr rd)
  · exact .half (ciHalf_fields o f3) rfl (bne_iff_ne.mpr rd)
  refine .ite (fun f3 => .half (ciHalf_fields o f3)) fun _ =>
    .ite (fun f3 => .ite (fun _ => .nothing) fun imm => .ite (fun rd => ?_) fun rd => ?_) fun _ => ?_
  · have fields := cAddi16spHalf_fields o f3 rd
    refine .half fields rfl (bne_iff_ne.mpr fun zero => imm ?_)
    rw [← fields, cImm6Of_cAddi16spHalf_eq_zero, zero]
  · exact .half (ciHalf_fields o f3) rfl (Bool.and_eq_true_iff.mpr ⟨bne_iff_ne.mpr rd, bne_iff_ne.mpr imm⟩)
  refine .ite (reads_decodeQ1Arith o) fun _ => .ite (fun f3 => .half (cJHalf_fields o f3)) fun _ =>
    .ite (fun f3 => .half (cbBranchHalf_fields o f3)) fun _ => ?_
  have f3 : cFunct3Of h = 7 := by bv_omega
  exact .half (cbBranchHalf_fields o f3)

theorem reads_decodeQ2 (o : cOpOf h = 2) : Reads (.half h) (decodeQ2 h) := by
  refine .ite (fun f3 => .half (ciHalf_fields o f3)) fun _ => ?_
  refine .ite (fun f3 => .ite (fun _ => .nothing) fun rd => ?_) fun _ => ?_
  · exact .half (cLwspHalf_fields o f3) rfl (bne_iff_ne.mpr rd)
  refine .ite (fun f3 => .ite (fun _ => .nothing) fun rd => ?_) fun _ => ?_
  · exact .half (cLdspHalf_fields o f3) rfl (bne_iff_ne.mpr rd)
  refine .ite (fun f3 => .ite (fun b12 => ?_) fun ne => ?_) fun _ => ?_
  · have fields := crHalf_fields o f3 b12
    refine .ite (fun rs2 => .ite (fun _ => .nothing) fun rd => ?_) fun rs2 => ?_
    · rw [rs2] at fields
      exact .half fields rfl (bne_iff_ne.mpr rd)
    · exact .half fields rfl (bne_iff_ne.mpr rs2)
  · have b12 : cBit12Of h = 1 := by bv_omega
    have fields := crHalf_fields o f3 b12
    refine .ite (fun rs2 => .ite (fun rd => ?_) fun rd => ?_) fun rs2 => ?_
    · rw [rs2, rd] at fields
      exact .half fields
    · rw [rs2] at fields
      exact .half fields rfl (bne_iff_ne.mpr rd)
    · exact .half fields rfl (bne_iff_ne.mpr rs2)
  exact .ite (fun f3 => .half (cSwspHalf_fields o f3)) fun _ => .ite (fun f3 => .half (cSdspHalf_fields o f3)) fun _ =>
    .nothing

theorem reads_decodeHalf (h : BitVec 16) : Reads (.half h) (decodeHalf h) :=
  .ite reads_decodeQ0 fun _ => .ite reads_decodeQ1 fun _ => .ite reads_decodeQ2 fun _ => .nothing

/-- The instruction that the tables of R266, R580 and R633 give the bits, whatever the configuration. -/
def tableInstr : Raw → Option Instr
  | .half h => decodeHalf h
  | .word w => decodeWord w

theorem decodeRow_eq_tableInstr {c : Config} {r : Raw} (b : r.byTable c = true) :
    decodeRow c.cDecode r = tableInstr r := by
  rw [decodeRow_byTable b]
  cases r <;> rfl

/-- Bits that no table reads are a halfword, whose value is a change of `C_DECODE` or nothing. -/
theorem changeAt_of_decodeRow {c : Config} {r : Raw} {i : Instr} (b : ¬ r.byTable c = true)
    (d : decodeRow c.cDecode r = some i) : ∃ h, r = .half h ∧ changeAt c.cDecode.changes h = some (some i) := by
  cases r with
  | word w => exact absurd rfl b
  | half h =>
    refine ⟨h, rfl, ?_⟩
    change c.cDecode.apply h = some i at d
    cases e : changeAt c.cDecode.changes h with
    | some v => rw [← d, CDecode.apply_of_change e]
    | none =>
      cases t : c.cDecode.table with
      | standard => exact absurd (by simp [Raw.byTable, e, t]) b
      | nothing =>
        rw [CDecode.apply_nothing e t] at d
        cases d

/-- The tables drop no bit and read no reserved encoding: each row that bits reach is rebuilt from their fields. -/
theorem reads_tableInstr : (r : Raw) → Reads r (tableInstr r)
  | .half h => reads_decodeHalf h
  | .word w => reads_decodeWord w

/-- Settles O3: where the tables read the bits, every row of them reads its own encoding; else a change of `C_DECODE`
does. -/
theorem onlyEncodingsDecode : Obligations.OnlyEncodingsDecode := by
  intro c r i d
  obtain ⟨row, enabled⟩ := decode_eq_ok_iff.mp d
  refine ⟨enabled, ?_⟩
  by_cases b : r.byTable c = true
  · rw [decodeRow_eq_tableInstr b] at row
    exact .inl ⟨b, reads_tableInstr r i row⟩
  · exact .inr (changeAt_of_decodeRow b row)

/-! ## The tables read every encoding -/

/-- The tables read the encoding of a well-formed instruction as that instruction, by the fields of its layout. -/
theorem tableInstr_encode {i : Instr} (wf : i.wellFormed = true) : tableInstr (encode i) = some i := by
  cases i with
  | add | sub | sll | slt | sltu | xor | srl | sra | or | and | mul | mulh | mulhsu | mulhu | div | divu | rem | remu =>
    simp [encode, tableInstr, decodeWord, decodeOp]
  | addi | slti | sltiu | xori | ori | andi | slli | srli | srai => simp [encode, tableInstr, decodeWord, decodeOpImm]
  | lui | auipc | jal | jalr => simp [encode, tableInstr, decodeWord]
  | beq | bne | blt | bge | bltu | bgeu => simp [encode, tableInstr, decodeWord, decodeBranch]
  | lb | lh | lw | ld | lbu | lhu | lwu => simp [encode, tableInstr, decodeWord, decodeLoad]
  | sb | sh | sw | sd => simp [encode, tableInstr, decodeWord, decodeStore]
  | fence =>
    simpa [encode, tableInstr, decodeWord, decodeMiscMem, Instr.wellFormed, imp_iff_not_or, or_assoc] using wf
  | fenceTso => simp [encode, tableInstr, decodeWord, decodeMiscMem]
  | ecall | ebreak | mret | wfi | cEbreak => rfl
  | csrrw | csrrs | csrrc | csrrwi | csrrsi | csrrci => simp [encode, tableInstr, decodeWord, decodeSystem]
  | addiw | slliw | srliw | sraiw => simp [encode, tableInstr, decodeWord, decodeOpImm32]
  | addw | subw | sllw | srlw | sraw | mulw | divw | divuw | remw | remuw =>
    simp [encode, tableInstr, decodeWord, decodeOp32]
  | cLw | cLd | cSw | cSd => simp [encode, tableInstr, decodeHalf, decodeQ0]
  | cNop | cLi | cJ | cBeqz | cBnez => simp [encode, tableInstr, decodeHalf, decodeQ1]
  | cSrli | cSrai | cAndi | cSub | cXor | cOr | cAnd | cSubw | cAddw =>
    simp [encode, tableInstr, decodeHalf, decodeQ1, decodeQ1Arith]
  | cSlli | cSwsp | cSdsp => simp [encode, tableInstr, decodeHalf, decodeQ2]
  | cAddi4spn => simpa [encode, tableInstr, decodeHalf, decodeQ0, Instr.wellFormed] using wf
  | cAddi | cAddiw => simpa [encode, tableInstr, decodeHalf, decodeQ1, Instr.wellFormed] using wf
  | cLui => simpa [encode, tableInstr, decodeHalf, decodeQ1, Instr.wellFormed, and_comm] using wf
  | cAddi16sp imm =>
    have ne : cImm6Of (cAddi16spHalf imm) ≠ 0 := mt (cImm6Of_cAddi16spHalf_eq_zero imm).mp (bne_iff_ne.mp wf)
    simpa [encode, tableInstr, decodeHalf, decodeQ1] using ne
  | cAdd xd xs2 =>
    have ne : xs2 ≠ 0#5 := bne_iff_ne.mp wf
    simp [encode, tableInstr, decodeHalf, decodeQ2, ne]
  | cLwsp | cLdsp | cJr | cMv | cJalr =>
    simpa [encode, tableInstr, decodeHalf, decodeQ2, Instr.wellFormed] using wf

/-! ## Bytes -/

/-- A halfword that begins a 32-bit instruction is none of R633 (R252). -/
theorem isWordHalf_of_decodeHalf {h : BitVec 16} {i : Instr} (d : decodeHalf h = some i) : isWordHalf h = false := by
  by_contra long
  have quadrant : cOpOf h = 3 := by simpa [isWordHalf] using long
  simp [decodeHalf, quadrant] at d

/-- A word whose low bits announce a halfword is no row of R266 or R580 (R252). -/
theorem decodeWord_of_short {w : BitVec 32} (short : (opcodeOf w).extractLsb' 0 2 ≠ 3) : decodeWord w = none := by
  have other (op : BitVec 7) (long : op.extractLsb' 0 2 = 3) : opcodeOf w ≠ op := fun h => short (h ▸ long)
  unfold decodeWord
  iterate 13 rw [if_neg (other _ rfl)]

/-- The bytes of bits that the tables read are read back as those bits. -/
theorem rawOfBytes_bytes {r : Raw} {i : Instr} (d : tableInstr r = some i) (rest : List Byte) :
    rawOfBytes (r.bytes ++ rest) = .ok (r, rest) := by
  cases r with
  | half h => exact rawOfBytes_half (isWordHalf_of_decodeHalf d) rest
  | word w =>
    refine rawOfBytes_word ?_ rest
    have opcode : (opcodeOf w).extractLsb' 0 2 = 3 := by
      by_contra short
      cases (decodeWord_of_short short).symm.trans d
    have low : cOpOf (w.extractLsb' 0 16) = (opcodeOf w).extractLsb' 0 2 := Laws.cOpOf_firstHalf_word w
    rw [isWordHalf, low, opcode]
    rfl

theorem decodeBytes_of_rawOfBytes {c : Config} {bs rest : List Byte} {r : Raw} {i : Instr}
    (bytes : rawOfBytes bs = .ok (r, rest)) (d : decode c r = .ok i) : decodeBytes c bs = .ok (i, rest) := by
  simp only [decodeBytes, bytes, d]

/-- Settles O2: the bytes are read back as the encoding, which the tables read as the instruction. -/
theorem decodingInvertsEncoding : Obligations.DecodingInvertsEncoding := by
  intro c i rest wf enabled b
  have table := tableInstr_encode wf
  have row : decodeRow c.cDecode (encode i) = some i := (decodeRow_eq_tableInstr b).trans table
  exact decodeBytes_of_rawOfBytes (rawOfBytes_bytes table rest) (decode_eq_ok_iff.mpr ⟨row, enabled⟩)

/-- Where the bytes of an opcode-table row are those of a well-formed instruction, the row decodes to it. -/
theorem decodeTableWord_of_bytes {n v : Nat} {i : Instr} (rest : List Byte) (wf : i.wellFormed = true)
    (bytes : tableBytes n v = encodeBytes i ++ rest) : decodeTableWord n v = some i := by
  have enabled : i.enabled Config.standard = true := by simp [Instr.enabled, Config.standard]
  have b : (encode i).byTable Config.standard = true := by cases encode i <;> rfl
  simp only [decodeTableWord, bytes, decodingInvertsEncoding _ i rest wf enabled b]

/-- Settles O1: each word is the encoding of its instruction, ten of 32 bits and three of 16, so O2 decodes it. -/
theorem wordsFromTheSpecDecode : Obligations.WordsFromTheSpecDecode := by
  refine ⟨?_, ?_, ?_, ?_, ?_, ?_, ?_, ?_, ?_, ?_, ?_, ?_, ?_⟩
  iterate 10 exact decodeTableWord_of_bytes [] rfl (by decide)
  iterate 3 exact decodeTableWord_of_bytes [0, 0] rfl (by decide)

/-! ## Masks -/

/-- A word that agrees with a row's match on the bits of its mask meets the row. -/
theorem and_row_word {i : Instr} {mask v : BitVec 32} (e : encode i = .word w) (a : w &&& mask = v)
    (row : i.row = (v.toNat, mask.toNat)) : (insOf i).toNat &&& i.row.2 = i.row.1 := by
  rw [row, insOf, e, ← a, BitVec.toNat_and, Raw.toWord, BitVec.toNat_setWidth_of_le (by decide)]

/-- A halfword that agrees with a row's match on the bits of its mask meets the row; the bits above it are 0 (R451). -/
theorem and_row_half {i : Instr} {mask v : BitVec 16} (e : encode i = .half h) (a : h &&& mask = v)
    (row : i.row = (v.toNat, mask.toNat)) : (insOf i).toNat &&& i.row.2 = i.row.1 := by
  rw [row, insOf, e, ← a, BitVec.toNat_and, Raw.toWord, BitVec.toNat_setWidth_of_le (by decide)]

section
variable {op : BitVec 7} {f3 : BitVec 3}

theorem and_mask_opcode (o : opcodeOf w = op) : w &&& 0x0000007f = uWord 0 0 op := by
  subst o
  apply BitVec.eq_of_getLsbD_eq
  intro i hi
  simp only [uWord, opcodeOf, BitVec.getLsbD_and, BitVec.getLsbD_extractLsb', BitVec.getLsbD_append]
  interval_cases i <;> simp

theorem and_mask_funct3 (h3 : funct3Of w = f3) (o : opcodeOf w = op) : w &&& 0x0000707f = iWord 0 0 f3 0 op := by
  subst h3 o
  apply BitVec.eq_of_getLsbD_eq
  intro i hi
  simp only [iWord, funct3Of, opcodeOf, BitVec.getLsbD_and, BitVec.getLsbD_extractLsb', BitVec.getLsbD_append]
  interval_cases i <;> simp

theorem and_mask_shiftWord (f6 shamt : BitVec 6) (xs1 : Reg) (f3 : BitVec 3) (xd : Reg) (op : BitVec 7) :
    shiftWord f6 shamt xs1 f3 xd op &&& 0xfc00707f = shiftWord f6 0 0 f3 0 op := by
  apply BitVec.eq_of_getLsbD_eq
  intro i hi
  simp only [shiftWord, BitVec.getLsbD_and, BitVec.getLsbD_append]
  interval_cases i <;> simp

theorem and_mask_rWord (f7 : BitVec 7) (xs2 xs1 : Reg) (f3 : BitVec 3) (xd : Reg) (op : BitVec 7) :
    rWord f7 xs2 xs1 f3 xd op &&& 0xfe00707f = rWord f7 0 0 f3 0 op := by
  apply BitVec.eq_of_getLsbD_eq
  intro i hi
  simp only [rWord, BitVec.getLsbD_and, BitVec.getLsbD_append]
  interval_cases i <;> simp

theorem and_mask_fenceWord (fm pred succ : BitVec 4) (xs1 xd : Reg) :
    fenceWord fm pred succ xs1 xd &&& 0xfff0707f = fenceWord fm pred succ 0 0 := by
  apply BitVec.eq_of_getLsbD_eq
  intro i hi
  simp only [fenceWord, BitVec.getLsbD_and, BitVec.getLsbD_append]
  interval_cases i <;> simp
end

section
variable {f3 : BitVec 3} {rd : Reg} {op : BitVec 2}

theorem and_mask_cFunct3 (h3 : cFunct3Of h = f3) (o : cOpOf h = op) : h &&& 0xe003 = ciHalf f3 0 0 op := by
  subst h3 o
  apply BitVec.eq_of_getLsbD_eq
  intro i hi
  simp only [ciHalf, cFunct3Of, cOpOf, BitVec.getLsbD_and, BitVec.getLsbD_extractLsb', BitVec.getLsbD_append]
  interval_cases i <;> simp

theorem and_mask_cRd (h3 : cFunct3Of h = f3) (d : cRdOf h = rd) (o : cOpOf h = op) :
    h &&& 0xef83 = ciHalf f3 0 rd op := by
  subst h3 d o
  apply BitVec.eq_of_getLsbD_eq
  intro i hi
  simp only [ciHalf, cFunct3Of, cRdOf, cOpOf, BitVec.getLsbD_and, BitVec.getLsbD_extractLsb', BitVec.getLsbD_append]
  interval_cases i <;> simp

theorem and_mask_cbArithHalf (f2 : BitVec 2) (imm : BitVec 6) (rd : CReg) :
    cbArithHalf f2 imm rd &&& 0xec03 = cbArithHalf f2 0 0 := by
  apply BitVec.eq_of_getLsbD_eq
  intro i hi
  simp only [cbArithHalf, BitVec.getLsbD_and, BitVec.getLsbD_extractLsb', BitVec.getLsbD_append]
  interval_cases i <;> simp

theorem and_mask_caHalf (f6 : BitVec 6) (rd : CReg) (f2 : BitVec 2) (rs2 : CReg) :
    caHalf f6 rd f2 rs2 &&& 0xfc63 = caHalf f6 0 f2 0 := by
  apply BitVec.eq_of_getLsbD_eq
  intro i hi
  simp only [caHalf, BitVec.getLsbD_and, BitVec.getLsbD_append]
  interval_cases i <;> simp

theorem and_mask_crHalf (f4 : BitVec 4) (rd rs2 : Reg) (op : BitVec 2) :
    crHalf f4 rd rs2 op &&& 0xf003 = crHalf f4 0 0 op := by
  apply BitVec.eq_of_getLsbD_eq
  intro i hi
  simp only [crHalf, BitVec.getLsbD_and, BitVec.getLsbD_append]
  interval_cases i <;> simp

theorem and_mask_crHalf_rs2 (f4 : BitVec 4) (rd rs2 : Reg) (op : BitVec 2) :
    crHalf f4 rd rs2 op &&& 0xf07f = crHalf f4 0 rs2 op := by
  apply BitVec.eq_of_getLsbD_eq
  intro i hi
  simp only [crHalf, BitVec.getLsbD_and, BitVec.getLsbD_append]
  interval_cases i <;> simp
end

/-- Settles O5: the mask of a row keeps the fixed fields of the layout, and with the operand fields 0 the layout is the
match. -/
theorem encodingsMatchTheTable : Obligations.EncodingsMatchTheTable := by
  intro i _
  cases i with
  | lui | auipc => exact and_row_word rfl (and_mask_opcode (opcodeOf_uWord ..)) rfl
  | jal => exact and_row_word rfl (and_mask_opcode (opcodeOf_jWord ..)) rfl
  | addi | slti | sltiu | xori | ori | andi | jalr | lb | lh | lw | ld | lbu | lhu | lwu | csrrw | csrrs | csrrc
  | csrrwi | csrrsi | csrrci | addiw =>
    exact and_row_word rfl (and_mask_funct3 (funct3Of_iWord ..) (opcodeOf_iWord ..)) rfl
  | sb | sh | sw | sd => exact and_row_word rfl (and_mask_funct3 (funct3Of_sWord ..) (opcodeOf_sWord ..)) rfl
  | beq | bne | blt | bge | bltu | bgeu =>
    exact and_row_word rfl (and_mask_funct3 (funct3Of_bWord ..) (opcodeOf_bWord ..)) rfl
  | fence => exact and_row_word rfl (and_mask_funct3 (funct3Of_fenceWord ..) (opcodeOf_fenceWord ..)) rfl
  | fenceTso => exact and_row_word rfl (and_mask_fenceWord ..) rfl
  | slli | srli | srai => exact and_row_word rfl (and_mask_shiftWord ..) rfl
  | add | sub | sll | slt | sltu | xor | srl | sra | or | and | mul | mulh | mulhsu | mulhu | div | divu | rem | remu
  | slliw | srliw | sraiw | addw | subw | sllw | srlw | sraw | mulw | divw | divuw | remw | remuw =>
    exact and_row_word rfl (and_mask_rWord ..) rfl
  | ecall | ebreak | mret | wfi | cEbreak => rfl
  | cAddi4spn => exact and_row_half rfl (and_mask_cFunct3 (cFunct3Of_cAddi4spnHalf ..) (cOpOf_cAddi4spnHalf ..)) rfl
  | cLw | cSw => exact and_row_half rfl (and_mask_cFunct3 (cFunct3Of_clwHalf ..) (cOpOf_clwHalf ..)) rfl
  | cLd | cSd => exact and_row_half rfl (and_mask_cFunct3 (cFunct3Of_cldHalf ..) (cOpOf_cldHalf ..)) rfl
  | cAddi | cAddiw | cLi | cLui | cSlli =>
    exact and_row_half rfl (and_mask_cFunct3 (cFunct3Of_ciHalf ..) (cOpOf_ciHalf ..)) rfl
  | cNop => exact and_row_half rfl (and_mask_cRd (cFunct3Of_ciHalf ..) (cRdOf_ciHalf ..) (cOpOf_ciHalf ..)) rfl
  | cAddi16sp =>
    exact and_row_half rfl
      (and_mask_cRd (cFunct3Of_cAddi16spHalf ..) (cRdOf_cAddi16spHalf ..) (cOpOf_cAddi16spHalf ..)) rfl
  | cSrli | cSrai | cAndi => exact and_row_half rfl (and_mask_cbArithHalf ..) rfl
  | cSub | cXor | cOr | cAnd | cSubw | cAddw => exact and_row_half rfl (and_mask_caHalf ..) rfl
  | cJ => exact and_row_half rfl (and_mask_cFunct3 (cFunct3Of_cJHalf ..) (cOpOf_cJHalf ..)) rfl
  | cBeqz | cBnez => exact and_row_half rfl (and_mask_cFunct3 (cFunct3Of_cbBranchHalf ..) (cOpOf_cbBranchHalf ..)) rfl
  | cLwsp => exact and_row_half rfl (and_mask_cFunct3 (cFunct3Of_cLwspHalf ..) (cOpOf_cLwspHalf ..)) rfl
  | cLdsp => exact and_row_half rfl (and_mask_cFunct3 (cFunct3Of_cLdspHalf ..) (cOpOf_cLdspHalf ..)) rfl
  | cSwsp => exact and_row_half rfl (and_mask_cFunct3 (cFunct3Of_cSwspHalf ..) (cOpOf_cSwspHalf ..)) rfl
  | cSdsp => exact and_row_half rfl (and_mask_cFunct3 (cFunct3Of_cSdspHalf ..) (cOpOf_cSdspHalf ..)) rfl
  | cMv | cAdd => exact and_row_half rfl (and_mask_crHalf ..) rfl
  | cJr | cJalr => exact and_row_half rfl (and_mask_crHalf_rs2 ..) rfl

end Sys2Proof

namespace Sys2Proof.Machine

/-! ## Bits that decode to nothing -/

/-- The four custom major opcodes, as numbers (R280). -/
theorem customOpcode_iff (r : Raw) : customOpcode r = true ↔ ∃ w : BitVec 32, r = .word w
    ∧ (w.toNat % 128 = 0x0b ∨ w.toNat % 128 = 0x2b ∨ w.toNat % 128 = 0x5b ∨ w.toNat % 128 = 0x7b) := by
  cases r with
  | half h => simp [customOpcode]
  | word w =>
    simp only [Raw.word.injEq, exists_eq_left']
    simp [customOpcode, opcodeOf, ← BitVec.toNat_inj, BitVec.extractLsb'_toNat]

/-- Steps 4 and 5 of R550 for bits that decode to nothing (R280). -/
theorem runRaw_of_undecoded {r : Raw} {s : State} (h : ∀ i, decode s.cfg r ≠ .ok i) :
    runRaw r s = undecodable r s := by
  unfold runRaw
  split
  next i d => exact absurd d (h i)
  next => rfl

/-- Settles O16: bits that decode to nothing reach `undecodable`, whose two branches are the two cases. -/
theorem undecodableBitsTrap : Obligations.UndecodableBitsTrap := by
  intro r s undecoded
  rw [runRaw_of_undecoded undecoded, undecodable, ← customOpcode_iff]
  refine ⟨fun traps => ?_, fun stops => ?_⟩
  · refine ⟨_, if_pos ?_, trapped_of rfl _ s rfl⟩
    simpa [or_comm] using traps
  · refine if_neg ?_
    simpa [or_comm] using stops

end Sys2Proof.Machine
end

section
/-! PROOFS. Family 40_integer_computational.md. The sums, logic, shifts and comparisons of R301 to R324, and that no
instruction writes a register other than its destination (R300). -/

namespace Sys2Proof.Machine

/-! ## Immediates and register values as numbers and bits -/

theorem sub_eq_ofInt (a b : Word) : a - b = BitVec.ofInt 64 (a.toNat - b.toNat) := by
  apply BitVec.eq_of_toInt_eq
  rw [BitVec.toInt_ofInt, BitVec.toInt_sub, BitVec.toInt_eq_toNat_bmod, BitVec.toInt_eq_toNat_bmod, Int.bmod_sub_bmod,
    Int.sub_bmod_bmod]

theorem add_ofInt (a : Word) (z : Int) : a + BitVec.ofInt 64 z = BitVec.ofInt 64 (a.toNat + z) := by
  rw [BitVec.ofInt_add, BitVec.ofInt_natCast, BitVec.ofNat_toNat, BitVec.setWidth_eq]

theorem imm12_eq_ofInt (imm : BitVec 12) : imm12 imm = BitVec.ofInt 64 imm.toInt := rfl

theorem upperImm_eq_ofInt (imm : BitVec 20) : upperImm imm = BitVec.ofInt 64 (4096 * imm.toInt) :=
  congrArg (BitVec.ofInt 64) BitVec.toInt_append_zero

/-- The sign extension repeats bit 11 of the field (R255). -/
theorem getLsbD_imm12 (imm : BitVec 12) {k : Nat} (hk : k < 64) : (imm12 imm).getLsbD k = imm.getLsbD (min k 11) := by
  rw [imm12, sext, BitVec.getLsbD_signExtend, decide_eq_true hk, Bool.true_and]
  split
  next low => rw [min_eq_left (by omega)]
  next high => rw [min_eq_right (by omega)]; rfl

theorem toInt_imm12 (imm : BitVec 12) : (imm12 imm).toInt = imm.toInt := BitVec.toInt_signExtend_of_le (by decide)

theorem natCast_toNat_imm12 (imm : BitVec 12) : ((imm12 imm).toNat : Int) = imm.toInt % 2 ^ 64 := by
  rw [imm12_eq_ofInt, BitVec.toNat_ofInt, Int.toNat_of_nonneg (Int.emod_nonneg _ (by decide))]
  rfl

theorem toNat_shiftLeft_eq_mul {w : Nat} (v : BitVec w) (n : Nat) : (v <<< n).toNat = v.toNat * 2 ^ n % 2 ^ w := by
  rw [BitVec.toNat_shiftLeft, Nat.shiftLeft_eq]

theorem toNat_ushiftRight_eq_div {w : Nat} (v : BitVec w) (n : Nat) : (v >>> n).toNat = v.toNat / 2 ^ n := by
  rw [BitVec.toNat_ushiftRight, Nat.shiftRight_eq_div_pow]

/-- An arithmetic shift is the floor quotient of the signed value (R308). -/
theorem toInt_sshiftRight_eq_div {w : Nat} (v : BitVec w) (n : Nat) : (v.sshiftRight n).toInt = v.toInt / 2 ^ n := by
  rw [BitVec.toInt_sshiftRight, Int.shiftRight_eq_div_pow]
  norm_cast

/-- A comparison in the model's terms as the word that a rule states in others. -/
theorem boolWord_decide_eq {p q : Prop} [Decidable p] [Decidable q] (same : p ↔ q) :
    boolWord (decide p) = if q then 1 else 0 := by
  simp only [boolWord, decide_eq_true_eq, same]

/-! ## An instruction that computes a value -/

/-- An instruction that computes `v` has a next state, in which it has written `v` and nothing else (R300). -/
theorem complete_wroteReg {len : Word} {xd : Reg} {v w : Word} {s : State} (value : v = w) :
    ∃ t, complete len xd v s = .next t ∧ WroteReg len xd w s t :=
  ⟨_, rfl, value ▸ wroteReg_retire len xd v s⟩

/-- Settles O18: each sum in the numbers of its rule. -/
theorem sumsAreModulo64Bits : Obligations.SumsAreModulo64Bits := by
  intro xd xs1 xs2 imm imm20 s
  refine ⟨rfl, rfl, rfl, rfl, rfl, ?add, ?sub, ?addi, ?lui, ?auipc⟩
  case add => exact complete_wroteReg (BitVec.add_def _ _)
  case sub => exact complete_wroteReg (sub_eq_ofInt _ _)
  case addi => exact complete_wroteReg (add_ofInt _ _)
  case lui => exact complete_wroteReg (upperImm_eq_ofInt imm20)
  case auipc => exact complete_wroteReg ((congrArg _ (upperImm_eq_ofInt imm20)).trans (add_ofInt _ _))

/-- Settles O19: the operations of `BitVec` act bit by bit, and so does the sign extension. -/
theorem logicIsBitwise : Obligations.LogicIsBitwise := by
  intro xd xs1 xs2 imm s
  refine ⟨rfl, rfl, rfl, rfl, rfl, rfl, ?and, ?or, ?xor, ?andi, ?ori, ?xori⟩
  case and => exact ⟨_, _, rfl, wroteReg_retire .., fun k _ => BitVec.getLsbD_and⟩
  case or => exact ⟨_, _, rfl, wroteReg_retire .., fun k _ => BitVec.getLsbD_or⟩
  case xor => exact ⟨_, _, rfl, wroteReg_retire .., fun k _ => BitVec.getLsbD_xor⟩
  case andi => exact ⟨_, _, rfl, wroteReg_retire .., fun k hk => by rw [BitVec.getLsbD_and, getLsbD_imm12 imm hk]⟩
  case ori => exact ⟨_, _, rfl, wroteReg_retire .., fun k hk => by rw [BitVec.getLsbD_or, getLsbD_imm12 imm hk]⟩
  case xori => exact ⟨_, _, rfl, wroteReg_retire .., fun k hk => by rw [BitVec.getLsbD_xor, getLsbD_imm12 imm hk]⟩

/-- Settles O20: each shift as a product or a quotient by a power of two. -/
theorem shiftsOf64Bits : Obligations.ShiftsOf64Bits := by
  intro xd xs1 xs2 shamt s
  refine ⟨rfl, rfl, rfl, rfl, rfl, rfl, ?sll, ?srl, ?sra, ?slli, ?srli, ?srai⟩
  case sll | slli => exact ⟨_, _, rfl, wroteReg_retire .., toNat_shiftLeft_eq_mul _ _⟩
  case srl | srli => exact ⟨_, _, rfl, wroteReg_retire .., toNat_ushiftRight_eq_div _ _⟩
  case sra | srai => exact ⟨_, _, rfl, wroteReg_retire .., toInt_sshiftRight_eq_div _ _⟩

/-- Settles O21: the flag of each comparison is the word 1 or 0, and the immediate stands for its sign extension. -/
theorem comparisonsWriteOneOrZero : Obligations.ComparisonsWriteOneOrZero := by
  intro xd xs1 xs2 imm s
  refine ⟨rfl, rfl, rfl, rfl, ?slt, ?sltu, ?slti, ?sltiu⟩
  case slt => exact complete_wroteReg (boolWord_decide_eq Iff.rfl)
  case sltu => exact complete_wroteReg (boolWord_decide_eq Iff.rfl)
  case slti => exact complete_wroteReg (boolWord_decide_eq (by rw [toInt_imm12]))
  case sltiu => exact complete_wroteReg (boolWord_decide_eq (by rw [← natCast_toNat_imm12, Int.ofNat_lt]))

/-! ## The registers that an instruction leaves -/

theorem SameRegs.except {s t : State} (same : SameRegs s t) (xd : Reg) : SameRegsExcept xd s t := fun r _ => same r

theorem sameRegs_of_onlyMemory {s t : State} (only : OnlyMemory s t) : SameRegs s t := by
  unfold OnlyMemory at only
  exact readReg_congr (by rw [only])

theorem sameRegs_of_onlyCsrs {s t : State} (only : OnlyCsrs s t) : SameRegs s t := by
  unfold OnlyCsrs at only
  exact readReg_congr (by rw [only])

theorem sameRegs_csrRetire (r : Csr) (s : State) : SameRegs s (csrRetire r s) :=
  readReg_congr (by rw [csrRetire_eq])

theorem sameRegsExcept_writeReg_of {s u : State} (same : SameRegs s u) (xd : Reg) (v : Word) :
    SameRegsExcept xd s (writeReg xd v u) := fun r other => (readReg_writeReg_of_ne other v u).trans (same r)

theorem sameRegsExcept_complete {len : Word} {xd : Reg} {v : Word} {s t : State} (h : complete len xd v s = .next t) :
    SameRegsExcept xd s t := by
  cases h
  exact sameRegsExcept_writeReg xd v s

theorem sameRegsExcept_jumpLink {len : Word} {xd : Reg} {target : Word} {s t : State}
    (h : jumpLink len xd target s = .next t) : SameRegsExcept xd s t := by
  cases h
  exact sameRegsExcept_writeReg xd _ s

/-- A load writes its destination alone, and a load that traps writes no register (R214). -/
theorem sameRegsExcept_load {va : Word} {n : Nat} {len : Word} {xd : Reg} {ext : Nat → Word} {s t : State}
    (h : (memRead va n s).finish (fun v s' => retire len (writeReg xd (ext v) s')) = .next t) :
    SameRegsExcept xd s t := by
  rcases load_cases va n len xd ext s with ⟨v, u, e, only, -⟩ | ⟨x, tval, u, e, -, only, -⟩ | ⟨a, e⟩
  · rw [e] at h; cases h
    exact sameRegsExcept_writeReg_of (sameRegs_of_onlyMemory only) xd _
  · rw [e] at h; cases h
    exact (sameRegs_of_onlyMemory only).except xd
  · rw [e] at h; cases h

theorem sameRegs_store {len : Word} {n : Nat} {xs2 : Reg} {va : Word} {s t : State}
    (h : store len n xs2 va s = .next t) : SameRegs s t := by
  rcases store_cases len n xs2 va s with ⟨u, e, only, -⟩ | ⟨x, tval, u, e, -, only, -⟩
  · rw [e] at h; cases h
    exact fun r => sameRegs_of_onlyMemory only r
  · rw [e] at h; cases h
    exact fun r => sameRegs_of_onlyMemory only r

/-- A CSR access writes its destination alone, also where the CSR is written, and no register where it traps. -/
theorem sameRegsExcept_csrAccess {ins : Word} {a : CsrAddr} {xd : Reg} {will : Bool} {new : Word → Word} {s t : State}
    (h : csrAccess ins a xd will new s = .next t) : SameRegsExcept xd s t := by
  rcases csrAccess_cases ins a xd will new s with e | e | ⟨r, -, -, e⟩ | ⟨r, u, -, -, -, write, e⟩
  · rw [e] at h; cases h
    exact fun _ _ => rfl
  · rw [e] at h; cases h
  · rw [e] at h; cases h
    exact sameRegsExcept_writeReg xd _ s
  · rw [e] at h; cases h
    have written := sameRegsExcept_writeReg_of (sameRegs_of_onlyCsrs (csrWrite_onlyCsrs write)) xd (csrRead r s)
    exact fun x other => (sameRegs_csrRetire r _ x).trans (written x other)

/-- An instruction with a destination changes no other register: it computes a value, jumps, loads or reads a CSR. -/
theorem exec_sameRegsExcept {i : Instr} {s t : State} {xd : Reg} (dest : i.dest = some xd) (h : exec i s = .next t) :
    SameRegsExcept xd s t := by
  cases i with
  | add | sub | sll | slt | sltu | xor | srl | sra | or | and | addi | slti | sltiu | xori | ori | andi | slli | srli
  | srai | lui | auipc | mul | mulh | mulhsu | mulhu | div | divu | rem | remu | addiw | slliw | srliw | sraiw | addw
  | subw | sllw | srlw | sraw | mulw | divw | divuw | remw | remuw | cAddi4spn | cAddi | cAddiw | cLi | cAddi16sp
  | cLui | cSrli | cSrai | cAndi | cSub | cXor | cOr | cAnd | cSubw | cAddw | cSlli | cMv | cAdd =>
    cases dest; exact sameRegsExcept_complete h
  | jal | jalr | cJalr => cases dest; exact sameRegsExcept_jumpLink h
  | lb | lh | lw | ld | lbu | lhu | lwu | cLw | cLd | cLwsp | cLdsp => cases dest; exact sameRegsExcept_load h
  | csrrw => cases dest; rw [exec_csrrw] at h; exact sameRegsExcept_csrAccess h
  | csrrs => cases dest; rw [exec_csrrs] at h; exact sameRegsExcept_csrAccess h
  | csrrc => cases dest; rw [exec_csrrc] at h; exact sameRegsExcept_csrAccess h
  | csrrwi => cases dest; rw [exec_csrrwi] at h; exact sameRegsExcept_csrAccess h
  | csrrsi => cases dest; rw [exec_csrrsi] at h; exact sameRegsExcept_csrAccess h
  | csrrci => cases dest; rw [exec_csrrci] at h; exact sameRegsExcept_csrAccess h
  | _ => cases dest

/-- An instruction without a destination changes no register: it stores, branches, traps, returns or writes `x0`. -/
theorem exec_sameRegs {i : Instr} {s t : State} (dest : i.dest = none) (h : exec i s = .next t) : SameRegs s t := by
  cases i with
  | sb | sh | sw | sd | cSw | cSd | cSwsp | cSdsp => exact sameRegs_store h
  | fence | fenceTso | wfi | beq | bne | blt | bge | bltu | bgeu | cBeqz | cBnez | ecall | ebreak | cEbreak | mret
  | cNop | cJ | cJr => cases h; exact fun _ => rfl
  | _ => cases dest

/-- Settles O59: every register is another than the destination, or there is no destination. -/
theorem onlyTheDestinationRegisterChanges : Obligations.OnlyTheDestinationRegisterChanges := by
  intro i s t r h other
  cases dest : i.dest with
  | none => exact exec_sameRegs dest h r
  | some xd => exact exec_sameRegsExcept dest h r fun same => other (dest.trans (congrArg some same.symm))

end Sys2Proof.Machine
end

section
/-! PROOFS. Family 41_control_transfer.md. Where `jal` and `jalr` land and what they link (R340, R341), and when each of
the six branches is taken (R342 to R348). -/

namespace Sys2Proof.Machine

/-! ## Targets as numbers -/

/-- The zero bit that the encodings of jumps and branches leave out doubles the field (R257, R259, R620, R621). -/
theorem sext_append_zero_eq_ofInt {n : Nat} (field : BitVec n) :
    (sext (field ++ (0 : BitVec 1)) : Word) = BitVec.ofInt 64 (2 * field.toInt) :=
  congrArg (BitVec.ofInt 64) BitVec.toInt_append_zero

/-- A relative target is the address of the instruction plus twice its field (R340, R342). -/
theorem add_sext_append_zero {n : Nat} (pc : Word) (field : BitVec n) :
    pc + sext (field ++ (0 : BitVec 1)) = BitVec.ofInt 64 (pc.toNat + 2 * field.toInt) := by
  rw [sext_append_zero_eq_ofInt, add_ofInt]

/-- The target of `jalr`: the sum modulo 2^64, then the largest even number not above it (R341). -/
theorem toNat_clearBit0_add_imm12 (base : Word) (imm : BitVec 12) :
    (clearBit0 (base + imm12 imm)).toNat = (BitVec.ofInt 64 (base.toNat + imm.toInt)).toNat / 2 * 2 := by
  rw [toNat_clearBit0, imm12_eq_ofInt, add_ofInt]

/-! ## Conditions of the branches (R345 to R348) -/

theorem ltSigned_iff {a b : Word} : ltSigned a b = true ↔ a.toInt < b.toInt := decide_eq_true_iff

theorem not_ltSigned_iff {a b : Word} : (!ltSigned a b) = true ↔ a.toInt ≥ b.toInt := by
  rw [Bool.not_eq_true', ← Bool.not_eq_true, ltSigned_iff, not_lt]

theorem ltUnsigned_iff {a b : Word} : ltUnsigned a b = true ↔ a.toNat < b.toNat := decide_eq_true_iff

theorem not_ltUnsigned_iff {a b : Word} : (!ltUnsigned a b) = true ↔ a.toNat ≥ b.toNat := by
  rw [Bool.not_eq_true', ← Bool.not_eq_true, ltUnsigned_iff, not_lt]

/-! ## Jumps and branches of any length -/

/-- A jump that links has a next state, at its target, with the address after its `len` bytes as the link. -/
theorem jumpLink_jumped {len : Word} {xd : Reg} {target dest : Word} {s : State} (lands : target = dest) :
    ∃ t, jumpLink len xd target s = .next t ∧ Jumped dest xd (s.pc + len) s t := by
  obtain ⟨link, -, counted, regs, csrs, run, memory⟩ := wroteReg_retire len xd (s.pc + len) s
  exact ⟨_, rfl, lands, link, counted, regs, csrs, run, memory⟩

/-- A branch whose flag says `p` has a next state, at its target or after its `len` bytes, and nothing else changed. -/
theorem branch_onlyPc {len offset target : Word} {taken : Bool} {p : Prop} [Decidable p] {s : State}
    (condition : taken = true ↔ p) (lands : s.pc + offset = target) :
    ∃ t, branch len taken offset s = .next t ∧ OnlyPc (if p then target else s.pc + len) s t := by
  have npc : (if taken then s.pc + offset else s.pc + len) = if p then target else s.pc + len := by
    simp only [condition, lands]
  exact ⟨_, rfl, npc ▸ onlyPc_retireTo _ s⟩

/-- Settles O22: both are `jumpLink`, and their targets are the numbers of R340 and R341. -/
theorem jumpsLinkAndLand : Obligations.JumpsLinkAndLand := by
  intro xd xs1 imm20 imm s
  refine ⟨rfl, rfl, ?jal, ?jalr⟩
  case jal => exact jumpLink_jumped (add_sext_append_zero s.pc imm20)
  case jalr =>
    obtain ⟨t, next, jumped⟩ := jumpLink_jumped (len := 4) (xd := xd) (s := s) rfl
    exact ⟨_, t, next, jumped, toNat_clearBit0_add_imm12 (readReg xs1 s) imm⟩

/-- Settles O23: all six are `branch` with one target, and differ in their condition. -/
theorem branchesTakeOrFallThrough : Obligations.BranchesTakeOrFallThrough := by
  intro xs1 xs2 imm s
  have lands := add_sext_append_zero s.pc imm
  refine ⟨rfl, rfl, rfl, rfl, rfl, rfl, ?beq, ?bne, ?blt, ?bge, ?bltu, ?bgeu⟩
  case beq => exact branch_onlyPc beq_iff_eq lands
  case bne => exact branch_onlyPc bne_iff_ne lands
  case blt => exact branch_onlyPc ltSigned_iff lands
  case bge => exact branch_onlyPc not_ltSigned_iff lands
  case bltu => exact branch_onlyPc ltUnsigned_iff lands
  case bgeu => exact branch_onlyPc not_ltUnsigned_iff lands

end Sys2Proof.Machine
end

section
/-! PROOFS. Family 42_load_store.md. The aligned loads and stores of R360 to R370 and R590, as the whole accesses of
R209: the effective address as a number, and what a load makes of the bytes it read. -/

namespace Sys2Proof.Machine

/-- The effective address is the sum of the base and the sign-extended offset modulo 2^64 (R360). -/
theorem effAddr_imm12 (xs1 : Reg) (imm : BitVec 12) (s : State) :
    effAddr xs1 (imm12 imm) s = BitVec.ofInt 64 ((readReg xs1 s).toNat + imm.toInt) := by
  rw [effAddr, imm12_eq_ofInt, add_ofInt]

/-! ## What a load makes of the bytes it read -/

/-- Sign extension of the number of some bytes is their signed value (R361, R363, R365). -/
theorem ofInt_bmod_toNat {w : Nat} (v : BitVec w) :
    BitVec.ofInt 64 (Int.bmod v.toNat (2 ^ w)) = BitVec.ofInt 64 v.toInt := by
  rw [BitVec.toInt_eq_toNat_bmod]

/-- Zero extension of the number of some bytes is that number (R362, R364, R590). -/
theorem ofNat_toNat_mod {w : Nat} (v : BitVec w) : BitVec.ofNat 64 (v.toNat % 2 ^ w) = BitVec.ofNat 64 v.toNat := by
  rw [Nat.mod_eq_of_lt v.isLt]

/-- A doubleword fills the register, so that its sign extension is itself (R366). -/
theorem ofInt_bmod_toNat_doubleword (v : BitVec 64) : BitVec.ofInt 64 (Int.bmod v.toNat (2 ^ 64)) = v := by
  rw [ofInt_bmod_toNat, BitVec.ofInt_toInt]

/-! ## An aligned access of any load or store -/

section
variable {i : Instr} {s : State} {va : Word} {n : Nat} (acc : i.access s = some (va, n)) (aligned : va.toNat % n = 0)
  (ram : RamAccess s va n)
include acc aligned ram

/-- An aligned load of the bytes `v` whose extension is `x` has a next state, in which it has written `x` alone. -/
theorem alignedLoad_wroteReg {xd : Reg} {v : BitVec (8 * n)} {x : Word} (load : i.isStore = false)
    (dest : i.dest = some xd) (holds : HoldsLe s va n v) (extended : i.loaded n v.toNat = x) :
    ∃ t, exec i s = .next t ∧ WroteReg i.len xd x s t :=
  extended ▸ (wholeAccessesTransferOrFault i s va n acc (.inl aligned)).1 xd v load dest ram holds

/-- An aligned store has a next state, in which it has stored the low bytes of its register alone. -/
theorem alignedStore_stored (isStore : i.isStore = true) :
    ∃ t, exec i s = .next t ∧ Stored i.len va n (readReg i.storeSource s) s t :=
  (wholeAccessesTransferOrFault i s va n acc (.inl aligned)).2.1 isStore ram

end

/-- Settles O38: each load is aligned at the address of R360, and differs in its size and its extension. -/
theorem loadsExtendWhatMemoryHolds : Obligations.LoadsExtendWhatMemoryHolds := by
  intro xd xs1 imm s b h w d va
  have address (n : Nat) : some (effAddr xs1 (imm12 imm) s, n) = some (va, n) := by rw [effAddr_imm12]
  refine ⟨fun ram holds => ⟨?lb, ?lbu⟩, fun aligned ram holds => ⟨?lh, ?lhu⟩, fun aligned ram holds => ⟨?lw, ?lwu⟩,
    fun aligned ram holds => ?ld⟩
  case lb =>
    exact alignedLoad_wroteReg (i := .lb xd xs1 imm) (address 1) (Nat.mod_one _) ram rfl rfl holds (ofInt_bmod_toNat b)
  case lbu =>
    exact alignedLoad_wroteReg (i := .lbu xd xs1 imm) (address 1) (Nat.mod_one _) ram rfl rfl holds (ofNat_toNat_mod b)
  case lh =>
    exact alignedLoad_wroteReg (i := .lh xd xs1 imm) (address 2) aligned ram rfl rfl holds (ofInt_bmod_toNat h)
  case lhu =>
    exact alignedLoad_wroteReg (i := .lhu xd xs1 imm) (address 2) aligned ram rfl rfl holds (ofNat_toNat_mod h)
  case lw =>
    exact alignedLoad_wroteReg (i := .lw xd xs1 imm) (address 4) aligned ram rfl rfl holds (ofInt_bmod_toNat w)
  case lwu =>
    exact alignedLoad_wroteReg (i := .lwu xd xs1 imm) (address 4) aligned ram rfl rfl holds (ofNat_toNat_mod w)
  case ld =>
    exact alignedLoad_wroteReg (i := .ld xd xs1 imm) (address 8) aligned ram rfl rfl holds
      (ofInt_bmod_toNat_doubleword d)

/-- Settles O39: each store is aligned at the address of R360, and differs in its size. -/
theorem storesWriteTheLowBytes : Obligations.StoresWriteTheLowBytes := by
  intro xs1 xs2 imm s va
  have address (n : Nat) : some (effAddr xs1 (imm12 imm) s, n) = some (va, n) := by rw [effAddr_imm12]
  refine ⟨fun ram => ?sb, fun aligned ram => ?sh, fun aligned ram => ?sw, fun aligned ram => ?sd⟩
  case sb => exact alignedStore_stored (i := .sb xs1 xs2 imm) (address 1) (Nat.mod_one _) ram rfl
  case sh => exact alignedStore_stored (i := .sh xs1 xs2 imm) (address 2) aligned ram rfl
  case sw => exact alignedStore_stored (i := .sw xs1 xs2 imm) (address 4) aligned ram rfl
  case sd => exact alignedStore_stored (i := .sd xs1 xs2 imm) (address 8) aligned ram rfl

end Sys2Proof.Machine
end

section
/-! PROOFS. Family 43_fence.md. The ordering instructions and `wfi`, which one hart in program order executes as no-ops
(R381, R382, R433). -/

namespace Sys2Proof.Machine

/-- A no-op of any length has a next state, after its `len` bytes, with nothing else changed. -/
theorem completeNop_onlyPc (len : Word) (s : State) :
    ∃ t, completeNop len s = .next t ∧ OnlyPc (s.pc + len) s t :=
  ⟨_, completeNop_eq len s, onlyPc_retireTo (s.pc + len) s⟩

/-- Settles O30: each of the three is the no-op of four bytes, whatever its fields are. -/
theorem fencesAndWfiOnlyMoveThePc : Obligations.FencesAndWfiOnlyMoveThePc := by
  intro fm pred succ xs1 xd s
  refine ⟨?fence, ?fenceTso, ?wfi⟩
  case fence | fenceTso | wfi => exact completeNop_onlyPc 4 s

end Sys2Proof.Machine
end

section
/-! PROOFS. Family 44_muldiv.md. The products of R391 to R394 and the divisions of R395 to R398 as numbers, with the
corners of R400, and that quotient and remainder agree at every width. -/

namespace Sys2Proof.Machine

/-! ## Products -/

/-- The lower half of a product is the same for both readings of the operands (R391). -/
theorem mul_eq_ofNat (a b : Word) : a * b = BitVec.ofNat 64 (a.toNat * b.toNat) :=
  BitVec.eq_of_toNat_eq (BitVec.toNat_mul a b)

/-- The upper half of a product is its floor quotient by 2^64, for a negative product too (R392, R393). -/
theorem upperHalf_eq_ofInt (p : Int) : upperHalf p = BitVec.ofInt 64 (p / 2 ^ 64) := by
  apply BitVec.eq_of_toNat_eq
  rw [upperHalf, BitVec.extractLsb'_toNat, BitVec.toNat_ofInt, BitVec.toNat_ofInt, Nat.shiftRight_eq_div_pow]
  omega

theorem upperHalf_natCast (p : Nat) : upperHalf p = BitVec.ofNat 64 (p / 2 ^ 64) := by
  rw [upperHalf_eq_ofInt, ← BitVec.ofInt_natCast]
  norm_cast

/-- Settles O24: the lower half as the product modulo 2^64, each upper half as the quotient of the product by 2^64. -/
theorem productsGiveTheirHalves : Obligations.ProductsGiveTheirHalves := by
  intro xd xs1 xs2 s a b
  refine ⟨rfl, rfl, rfl, rfl, ?mul, ?mulh, ?mulhsu, ?mulhu⟩
  case mul => exact complete_wroteReg (mul_eq_ofNat a b)
  case mulh => exact complete_wroteReg (upperHalf_eq_ofInt (a.toInt * b.toInt))
  case mulhsu => exact complete_wroteReg (upperHalf_eq_ofInt (a.toInt * b.toNat))
  case mulhu => exact complete_wroteReg (upperHalf_natCast (a.toNat * b.toNat))

/-! ## Divisions of doublewords, with the corners written out -/

theorem eq_zero_iff_toNat (b : Word) : b = 0 ↔ b.toNat = 0 := BitVec.toNat_eq

theorem divSigned_word (a b : Word) : divSigned a b =
    if b.toNat = 0 then 0xFFFFFFFFFFFFFFFF
    else if a = 0x8000000000000000 ∧ b = 0xFFFFFFFFFFFFFFFF then 0x8000000000000000
    else BitVec.ofInt 64 (a.toInt.tdiv b.toInt) :=
  if_congr (eq_zero_iff_toNat b) rfl rfl

theorem divUnsigned_word (a b : Word) : divUnsigned a b =
    if b.toNat = 0 then 0xFFFFFFFFFFFFFFFF else BitVec.ofNat 64 (a.toNat / b.toNat) :=
  if_congr (eq_zero_iff_toNat b) rfl rfl

/-- What R397 subtracts from the dividend leaves the remainder of the division towards zero. -/
theorem remSigned_word (a b : Word) : remSigned a b =
    if b.toNat = 0 then a
    else if a = 0x8000000000000000 ∧ b = 0xFFFFFFFFFFFFFFFF then 0
    else BitVec.ofInt 64 (a.toInt.tmod b.toInt) := by
  rw [Int.tmod_def]
  exact if_congr (eq_zero_iff_toNat b) rfl rfl

theorem remUnsigned_word (a b : Word) : remUnsigned a b =
    if b.toNat = 0 then a else BitVec.ofNat 64 (a.toNat % b.toNat) :=
  if_congr (eq_zero_iff_toNat b) rfl rfl

/-- Settles O25: each division completes with its value, in the corners as elsewhere. -/
theorem divisionsAndTheirCorners : Obligations.DivisionsAndTheirCorners := by
  intro xd xs1 xs2 s a b
  refine ⟨rfl, rfl, rfl, rfl, ?div, ?divu, ?rem, ?remu⟩
  case div => exact complete_wroteReg (divSigned_word a b)
  case divu => exact complete_wroteReg (divUnsigned_word a b)
  case rem => exact complete_wroteReg (remSigned_word a b)
  case remu => exact complete_wroteReg (remUnsigned_word a b)

/-! ## Quotient times divisor plus remainder -/

/-- A zero divisor leaves the dividend as the remainder, and on overflow the quotient is its own negation (R400). -/
theorem divSigned_mul_add_remSigned {n : Nat} (a b : BitVec n) : divSigned a b * b + remSigned a b = a := by
  rw [divSigned, remSigned]
  split_ifs with zero overflow
  · rw [zero, mul_zero, zero_add]
  · obtain ⟨rfl, rfl⟩ := overflow
    rw [← BitVec.neg_one_eq_allOnes, mul_neg, BitVec.mul_one, BitVec.neg_intMin, add_zero]
  · calc BitVec.ofInt n (a.toInt.tdiv b.toInt) * b + BitVec.ofInt n (a.toInt - b.toInt * a.toInt.tdiv b.toInt)
      _ = BitVec.ofInt n (b.toInt * a.toInt.tdiv b.toInt + (a.toInt - b.toInt * a.toInt.tdiv b.toInt)) := by
        rw [BitVec.ofInt_add, BitVec.ofInt_mul, BitVec.ofInt_toInt, mul_comm]
      _ = a := by rw [add_sub_cancel, BitVec.ofInt_toInt]

theorem divUnsigned_mul_add_remUnsigned {n : Nat} (a b : BitVec n) : divUnsigned a b * b + remUnsigned a b = a := by
  rw [divUnsigned, remUnsigned]
  split_ifs with zero
  · rw [zero, mul_zero, zero_add]
  · calc BitVec.ofNat n (a.toNat / b.toNat) * b + BitVec.ofNat n (a.toNat % b.toNat)
      _ = BitVec.ofNat n (a.toNat / b.toNat * b.toNat + a.toNat % b.toNat) := by
        rw [BitVec.ofNat_add, BitVec.ofNat_mul, BitVec.ofNat_toNat, BitVec.setWidth_eq]
      _ = a := by rw [Nat.div_add_mod', BitVec.ofNat_toNat, BitVec.setWidth_eq]

/-- Where an instruction that computes `v` has gone on, its destination holds `v`, unless it is `x0`. -/
theorem readReg_of_complete {len : Word} {xd : Reg} {v : Word} {s t : State} (written : xd ≠ 0)
    (h : complete len xd v s = .next t) : readReg xd t = v := by
  obtain ⟨u, next, wrote, -⟩ := complete_wroteReg (len := len) (xd := xd) (s := s) (rfl : v = v)
  cases h.symm.trans next
  exact wrote written

/-- Settles O26: the registers hold the quotient and the remainder of the old operands, which agree at every width. -/
theorem quotientAndRemainderAgree : Obligations.QuotientAndRemainderAgree := by
  intro xs1 xs2 xd s t u written
  refine ⟨fun div rem => ?signed, fun divu remu => ?unsigned⟩
  case signed =>
    rw [readReg_of_complete written div, readReg_of_complete written rem]
    exact divSigned_mul_add_remSigned (readReg xs1 s) (readReg xs2 s)
  case unsigned =>
    rw [readReg_of_complete written divu, readReg_of_complete written remu]
    exact divUnsigned_mul_add_remUnsigned (readReg xs1 s) (readReg xs2 s)

end Sys2Proof.Machine
end

section
/-! PROOFS. Family 45_zicsr.md. The CSR forms that only read (R412, R414). -/

namespace Sys2Proof.Machine

/-- Where a form does not write, the access path puts the value of an existing CSR in the destination, be the CSR
read-only or not (R412, R414). -/
theorem csrAccess_reads {r : Csr} {s : State} (has : r.exists? s.cfg = true) (ins : Word) (xd : Reg) {will : Bool}
    (reads : will = false) (new : Word → Word) :
    ∃ t, csrAccess ins r.address xd will new s = .next t ∧ WroteReg 4 xd (csrRead r s) s t := by
  refine ⟨_, ?_, wroteReg_retire 4 xd (csrRead r s) s⟩
  rw [csrAccess, csrLookup_address has, reads]
  rfl

/-- Settles O52: in each of the four forms a source of 0 makes `will_write` false. -/
theorem readingFormsReadAlone : Obligations.ReadingFormsReadAlone := by
  intro r xd s has
  simp only [exec_csrrs, exec_csrrc, exec_csrrsi, exec_csrrci]
  refine ⟨?csrrs, ?csrrc, ?csrrsi, ?csrrci⟩
  case csrrs | csrrc | csrrsi | csrrci => exact csrAccess_reads has _ xd rfl _

end Sys2Proof.Machine
end

section
/-! PROOFS. Family 46_system.md. The environment call and the breakpoints raise at their own address (R430, R431), and
`mret` returns from the trap that was taken last (R432, R477, R495). -/

namespace Sys2Proof.Machine

/-- An instruction that only raises has a next state, in which its exception was taken, the parameter `report` filtering
its trap value (R477, R478). -/
theorem raiseExc_trapped {e : Exc} {code : BitVec 63} (same : e.code = code) {tval : Word} {s : State} {report : Bool}
    (filter : mtvalFor s.cfg e tval = if report then tval else 0) :
    ∃ t, raiseExc e tval s = .next t ∧ Trapped code (mtvalAfter s report tval) s t :=
  ⟨_, raiseExc_eq e tval s, trapped_of same tval s filter⟩

/-- Settles O31: `ecall` only raises, and its trap value is 0 already. -/
theorem environmentCallTraps : Obligations.EnvironmentCallTraps := fun _ =>
  ⟨rfl, raiseExc_trapped (e := .mcall) rfl rfl⟩

/-- Settles O32: both breakpoints only raise, with their own address. -/
theorem breakpointsTrap : Obligations.BreakpointsTrap := by
  intro s
  refine ⟨rfl, rfl, ?ebreak, ?cEbreak⟩
  case ebreak | cEbreak => exact raiseExc_trapped (e := .breakpoint) rfl rfl

/-- `mret` always has a next state: it returns from the trap and is counted (R178, R432). -/
theorem exec_mret (s : State) : exec .mret s = .next (retireTo s.mepc (trapReturn s)) := rfl

/-- Settles O33: field by field, `trapReturn` sets `mstatus` and the end of the instruction the pc and `minstret`. -/
theorem mretRestoresTheInterruptEnable : Obligations.MretRestoresTheInterruptEnable := fun s =>
  ⟨rfl, _, exec_mret s, rfl, rfl, rfl, rfl, rfl, rfl, rfl, rfl, rfl, rfl, fun _ => rfl, ⟨rfl, rfl, rfl, rfl, rfl⟩,
    fun _ => rfl, rfl⟩

/-- Settles O35: both kinds of trap save the pc in `mepc` and `MIE` in `MPIE`, from where `mret` takes them. -/
theorem returnUndoesTrapEntry : Obligations.ReturnUndoesTrapEntry := by
  intro e tval c s t returned
  rcases returned with exception | interrupt
  · rw [exec_mret] at exception
    cases exception
    exact ⟨rfl, rfl, rfl, fun _ => rfl, fun _ => rfl, rfl⟩
  · rw [exec_mret] at interrupt
    cases interrupt
    exact ⟨rfl, rfl, rfl, fun _ => rfl, fun _ => rfl, rfl⟩

end Sys2Proof.Machine
end

section
/-! PROOFS. Family 48_rv64_word_ops.md. The word instructions in numbers: each works on the low 32 bits of its operands
and sign-extends the result (R581 to R595). -/

namespace Sys2Proof.Machine

/-! ## The low word, and sign extension as a number -/

theorem toNat_low32 (v : Word) : (low32 v).toNat = v.toNat % 2 ^ 32 := BitVec.toNat_setWidth 32 v

/-- The signed reading of the low 32 bits. -/
theorem toInt_low32 (v : Word) : (low32 v).toInt = Int.bmod (v.toNat % 2 ^ 32 : Nat) (2 ^ 32) := by
  rw [BitVec.toInt_eq_toNat_bmod, toNat_low32]

theorem sext_eq_ofInt_toInt {n : Nat} (v : BitVec n) : (sext v : Word) = BitVec.ofInt 64 v.toInt := rfl

/-- The sign extension of the low 32 bits of a number modulo 2^64 is that of the number itself: 2^32 divides 2^64. -/
theorem sext_low32_of_eq_ofInt {v : Word} {z : Int} (value : v = BitVec.ofInt 64 z) :
    sext (low32 v) = BitVec.ofInt 64 (Int.bmod z (2 ^ 32)) := by
  have low : (v.toNat : Int) % (2 ^ 32 : Nat) = z % (2 ^ 32 : Nat) := by
    rw [value, BitVec.toNat_ofInt]
    omega
  rw [sext_eq_ofInt_toInt, toInt_low32, Int.natCast_emod, low, Int.emod_bmod]

/-! ## Sums and products -/

theorem add_eq_ofInt (a b : Word) : a + b = BitVec.ofInt 64 (a.toNat + b.toNat) := by
  rw [← add_ofInt, BitVec.ofInt_natCast, BitVec.ofNat_toNat, BitVec.setWidth_eq]

theorem mul_eq_ofInt (a b : Word) : a * b = BitVec.ofInt 64 (a.toNat * b.toNat) := by
  rw [mul_eq_ofNat, ← BitVec.ofInt_natCast, Nat.cast_mul]

/-- Settles O27: each is the low 32 bits of a number, sign-extended. -/
theorem wordSumsAndProducts : Obligations.WordSumsAndProducts := by
  intro xd xs1 xs2 imm s a b
  refine ⟨?addiw, ?addw, ?subw, ?mulw⟩
  case addiw => exact complete_wroteReg (sext_low32_of_eq_ofInt (add_ofInt a imm.toInt))
  case addw => exact complete_wroteReg (sext_low32_of_eq_ofInt (add_eq_ofInt a b))
  case subw => exact complete_wroteReg (sext_low32_of_eq_ofInt (sub_eq_ofInt a b))
  case mulw => exact complete_wroteReg (sext_low32_of_eq_ofInt (mul_eq_ofInt a b))

/-! ## Shifts -/

theorem sext_low32_shiftLeft (v : Word) (n : Nat) :
    sext (low32 v <<< n) = BitVec.ofInt 64 (Int.bmod (v.toNat % 2 ^ 32 * 2 ^ n : Nat) (2 ^ 32)) := by
  rw [sext_eq_ofInt_toInt, BitVec.toInt_eq_toNat_bmod, toNat_shiftLeft_eq_mul, toNat_low32, Int.natCast_emod,
    Int.emod_bmod]

theorem sext_low32_ushiftRight (v : Word) (n : Nat) :
    sext (low32 v >>> n) = BitVec.ofInt 64 (Int.bmod (v.toNat % 2 ^ 32 / 2 ^ n : Nat) (2 ^ 32)) := by
  rw [sext_eq_ofInt_toInt, BitVec.toInt_eq_toNat_bmod, toNat_ushiftRight_eq_div, toNat_low32]

theorem sext_low32_sshiftRight (v : Word) (n : Nat) :
    sext ((low32 v).sshiftRight n) = BitVec.ofInt 64 (Int.bmod (v.toNat % 2 ^ 32 : Nat) (2 ^ 32) / 2 ^ n) := by
  rw [sext_eq_ofInt_toInt, toInt_sshiftRight_eq_div, toInt_low32]

/-- Settles O28: the amount is a field or the low five bits of a register, and the shift the same. -/
theorem wordShifts : Obligations.WordShifts := by
  intro xd xs1 xs2 shamt s a n
  refine ⟨?slliw, ?srliw, ?sraiw, ?sllw, ?srlw, ?sraw⟩
  case slliw | sllw => exact complete_wroteReg (sext_low32_shiftLeft _ _)
  case srliw | srlw => exact complete_wroteReg (sext_low32_ushiftRight _ _)
  case sraiw | sraw => exact complete_wroteReg (sext_low32_sshiftRight _ _)

/-! ## Divisions of words, with the corners written out -/

theorem low32_eq_zero_iff (v : Word) : low32 v = 0 ↔ v.toNat % 2 ^ 32 = 0 := by
  rw [BitVec.toNat_eq, toNat_low32]
  rfl

/-- The overflow of a signed division: the smallest word by -1 (R592). -/
theorem overflow_iff (a b : BitVec 32) :
    a = BitVec.intMin 32 ∧ b = BitVec.allOnes 32 ↔ a.toInt = -2 ^ 31 ∧ b.toInt = -1 := by
  rw [← BitVec.toInt_inj, ← BitVec.toInt_inj]
  rfl

/-- Without overflow the quotient of two words is a word, so its sign extension is the quotient. -/
theorem toInt_ofInt_tdiv {a b : BitVec 32} (fits : ¬ (a = BitVec.intMin 32 ∧ b = BitVec.allOnes 32)) :
    (BitVec.ofInt 32 (a.toInt.tdiv b.toInt)).toInt = a.toInt.tdiv b.toInt := by
  rw [BitVec.toInt_ofInt, ← BitVec.toInt_sdiv]
  exact BitVec.toInt_sdiv_of_ne_or_ne a b (not_and_or.mp fits)

/-- A remainder is no larger than the dividend, so that of two words is a word. -/
theorem toInt_ofInt_tmod (a b : BitVec 32) :
    (BitVec.ofInt 32 (a.toInt.tmod b.toInt)).toInt = a.toInt.tmod b.toInt := by
  rw [← BitVec.toInt_srem, BitVec.ofInt_toInt]

theorem sext_divSigned (a b : BitVec 32) : sext (divSigned a b) =
    if b = 0 then 0xFFFFFFFFFFFFFFFF
    else if a.toInt = -2 ^ 31 ∧ b.toInt = -1 then 0xFFFFFFFF80000000
    else BitVec.ofInt 64 (a.toInt.tdiv b.toInt) := by
  rw [divSigned]
  simp only [← overflow_iff]
  split_ifs with zero overflow
  · rfl
  · rfl
  · rw [sext_eq_ofInt_toInt, toInt_ofInt_tdiv overflow]

theorem sext_divUnsigned (a b : BitVec 32) : sext (divUnsigned a b) =
    if b = 0 then 0xFFFFFFFFFFFFFFFF else BitVec.ofInt 64 (Int.bmod (a.toNat / b.toNat : Nat) (2 ^ 32)) := by
  rw [divUnsigned]
  split_ifs with zero
  · rfl
  · exact sext_ofNat 4 (a.toNat / b.toNat)

/-- On overflow the remainder is 0, which is also the remainder of the division towards zero. -/
theorem sext_remSigned (a b : BitVec 32) : sext (remSigned a b) =
    if b = 0 then BitVec.ofInt 64 a.toInt else BitVec.ofInt 64 (a.toInt.tmod b.toInt) := by
  rw [remSigned, ← Int.tmod_def]
  split_ifs with zero overflow
  · rfl
  · obtain ⟨rfl, rfl⟩ := overflow
    rfl
  · rw [sext_eq_ofInt_toInt, toInt_ofInt_tmod]

theorem sext_remUnsigned (a b : BitVec 32) : sext (remUnsigned a b) =
    if b = 0 then BitVec.ofInt 64 a.toInt else BitVec.ofInt 64 (Int.bmod (a.toNat % b.toNat : Nat) (2 ^ 32)) := by
  rw [remUnsigned]
  split_ifs with zero
  · rfl
  · exact sext_ofNat 4 (a.toNat % b.toNat)

/-- Settles O29: each division is that of the low words, whose readings are the numbers of the rules. -/
theorem wordDivisionsAndTheirCorners : Obligations.WordDivisionsAndTheirCorners := by
  intro xd xs1 xs2 s a b x y
  have zero : low32 (readReg xs2 s) = 0 ↔ b = 0 := low32_eq_zero_iff _
  have dividend : (low32 (readReg xs1 s)).toNat = a := toNat_low32 _
  have divisor : (low32 (readReg xs2 s)).toNat = b := toNat_low32 _
  have signedDividend : (low32 (readReg xs1 s)).toInt = x := toInt_low32 _
  have signedDivisor : (low32 (readReg xs2 s)).toInt = y := toInt_low32 _
  refine ⟨?divw, ?divuw, ?remw, ?remuw⟩
  case divw =>
    refine complete_wroteReg ?_
    simp only [sext_divSigned, zero, signedDividend, signedDivisor]
  case divuw =>
    refine complete_wroteReg ?_
    simp only [sext_divUnsigned, zero, dividend, divisor]
  case remw =>
    refine complete_wroteReg ?_
    simp only [sext_remSigned, zero, signedDividend, signedDivisor]
  case remuw =>
    refine complete_wroteReg ?_
    simp only [sext_remUnsigned, zero, dividend, divisor, signedDividend]

end Sys2Proof.Machine
end

section
/-! PROOFS. Family 47_compressed.md. `C_DECODE` is any function (R450), and the compressed instructions in numbers:
their scaled immediates, the registers `x8` to `x15` of three-bit fields (R454), and the length 2 (R452). -/

namespace Sys2Proof

/-! ## `C_DECODE` as a function -/

/-- All values of `n` bits. Irreducible, so that nothing evaluates the list of all halfwords. -/
@[irreducible] def allBits (n : Nat) : List (BitVec n) := (List.range (2 ^ n)).map (BitVec.ofNat n)

theorem mem_allBits {n : Nat} (v : BitVec n) : v ∈ allBits n := by
  rw [allBits]
  exact List.mem_map.mpr ⟨v.toNat, List.mem_range.mpr v.isLt, (BitVec.ofNat_toNat n v).trans (BitVec.setWidth_eq v)⟩

/-- The halfwords that begin no 32-bit instruction (R252). -/
def shortHalves : List (BitVec 16) := (allBits 16).filter fun h => !isWordHalf h

theorem mem_shortHalves_iff {h : BitVec 16} : h ∈ shortHalves ↔ isWordHalf h = false := by
  rw [shortHalves, List.mem_filter, Bool.not_eq_true']
  exact and_iff_right (mem_allBits h)

theorem isWordHalf_eq_false_iff {h : BitVec 16} : isWordHalf h = false ↔ h.toNat % 4 ≠ 3 := by
  rw [← Bool.not_eq_true, isWordHalf_iff]

/-- The `C_DECODE` whose changes list every value of a function, so that its table is never asked (R450). -/
def CDecode.ofFunction (f : BitVec 16 → Option Instr) : CDecode :=
  { table := .nothing, changes := shortHalves.map fun h => (h, f h) }

theorem CDecode.apply_ofFunction (f : BitVec 16 → Option Instr) {h : BitVec 16} (short : isWordHalf h = false) :
    (CDecode.ofFunction f).apply h = f h :=
  CDecode.apply_of_change (changeAt_map f (mem_shortHalves_iff.mpr short))

/-- Where the values of the function are 16-bit instructions with legal operands, the launch check accepts its table. -/
theorem cDecodeOk_ofFunction {f : BitVec 16 → Option Instr}
    (values : ∀ h i, h.toNat % 4 ≠ 3 → f h = some i → (encode i).length = 2 ∧ i.wellFormed = true) :
    Machine.cDecodeOk (CDecode.ofFunction f) = true := by
  refine List.all_eq_true.mpr fun p listed => ?_
  obtain ⟨h, member, rfl⟩ := List.mem_map.mp listed
  have short := mem_shortHalves_iff.mp member
  rw [Bool.and_eq_true, Bool.not_eq_true']
  refine ⟨short, ?_⟩
  cases e : f h with
  | none => rfl
  | some i => simpa using values h i (isWordHalf_eq_false_iff.mp short) e

/-- The bytes of a halfword that begins no 32-bit instruction decode to what `C_DECODE` and the configuration say. -/
theorem decodeBytes_half {h : BitVec 16} (short : isWordHalf h = false) (c : Config) (rest : List Byte) :
    decodeBytes c ((Raw.half h).bytes ++ rest) = (decode c (.half h)).map (·, rest) := by
  simp only [decodeBytes, rawOfBytes_half short]
  cases decode c (.half h) <;> rfl

/-- Settles O4: one halfword is read as its value, and every function has a table that lists its values. -/
theorem compressedDecodingIsAnyFunction : Obligations.CompressedDecodingIsAnyFunction := by
  refine ⟨fun c h rest short => ?_, fun f => ⟨.ofFunction f, fun h short => ?_, cDecodeOk_ofFunction⟩⟩
  · rw [decodeBytes_half (isWordHalf_eq_false_iff.mpr short), decode, decodeRow]
    cases c.cDecode.apply h with
    | none => rfl
    | some i => exact apply_ite (Except.map (·, rest)) _ _ _
  · exact CDecode.apply_ofFunction f (isWordHalf_eq_false_iff.mpr short)

end Sys2Proof

namespace Sys2Proof.Machine

/-! ## Fields of compressed instructions as numbers -/

/-- A three-bit field names one of `x8` to `x15` (R454). -/
theorem cReg_eq_ofNat (f : CReg) : cReg f = BitVec.ofNat 5 (8 + f.toNat) := by
  revert f
  decide

/-- An unsigned field scaled by the zeros below it (R600 to R604, R624, R626, R631, R632). -/
theorem zext_append_zero_eq_ofNat {n m : Nat} (field : BitVec n) :
    (zext (field ++ (0 : BitVec m)) : Word) = BitVec.ofNat 64 (2 ^ m * field.toNat) := by
  apply BitVec.eq_of_toNat_eq
  rw [zext, BitVec.toNat_setWidth, toNat_append_eq, BitVec.toNat_ofNat, BitVec.ofNat_eq_ofNat, BitVec.toNat_zero,
    Nat.add_zero]

/-- A signed field scaled by the zeros below it (R609, R610). -/
theorem sext_append_zeros_eq_ofInt {n m : Nat} (field : BitVec n) :
    (sext (field ++ (0 : BitVec m)) : Word) = BitVec.ofInt 64 (2 ^ m * field.toInt) :=
  congrArg (BitVec.ofInt 64) BitVec.toInt_append_zero

theorem add_ofNat (a : Word) (n : Nat) : a + BitVec.ofNat 64 n = BitVec.ofNat 64 (a.toNat + n) := by
  rw [BitVec.ofNat_add, BitVec.ofNat_toNat, BitVec.setWidth_eq]

/-- The access of a compressed load or store of `k` bytes is at its base plus its scaled unsigned offset. -/
theorem scaledAccess {n m k : Nat} {base : Reg} {field : BitVec n} {s : State} {va : Word}
    (address : va = BitVec.ofNat 64 ((readReg base s).toNat + 2 ^ m * field.toNat)) :
    some (effAddr base (zext (field ++ (0 : BitVec m))) s, k) = some (va, k) := by
  rw [address, effAddr, zext_append_zero_eq_ofNat, add_ofNat]

/-- The sign extension repeats bit 5 of the field (R613). -/
theorem getLsbD_cImm6 (imm : BitVec 6) {k : Nat} (hk : k < 64) : (cImm6 imm).getLsbD k = imm.getLsbD (min k 5) := by
  rw [cImm6, sext, BitVec.getLsbD_signExtend, decide_eq_true hk, Bool.true_and]
  split
  next low => rw [min_eq_left (by omega)]
  next high => rw [min_eq_right (by omega)]; rfl

/-! ## Sums and moves -/

/-- Settles O46: each is the sum of its 32-bit expansion, with its immediate as a number. -/
theorem compressedSums : Obligations.CompressedSums := by
  intro xd xs2 c c2 imm imm8 s r x
  simp only [r, ← cReg_eq_ofNat]
  refine ⟨?cAddi4spn, ?cNop, ?cAddi, ?cAddiw, ?cLi, ?cAddi16sp, ?cLui, ?cSub, ?cSubw, ?cAddw, ?cMv, ?cAdd⟩
  case cAddi4spn =>
    exact complete_wroteReg ((congrArg _ (zext_append_zero_eq_ofNat imm8)).trans
      ((add_ofNat _ _).trans (BitVec.ofInt_natCast 64 _).symm))
  case cNop => exact completeNop_onlyPc 2 s
  case cAddi => exact complete_wroteReg (add_ofInt _ imm.toInt)
  case cAddiw => exact complete_wroteReg (sext_low32_of_eq_ofInt (add_ofInt _ imm.toInt))
  case cLi => exact complete_wroteReg rfl
  case cAddi16sp =>
    exact complete_wroteReg ((congrArg _ (sext_append_zeros_eq_ofInt imm)).trans (add_ofInt _ _))
  case cLui => exact complete_wroteReg (sext_append_zeros_eq_ofInt imm)
  case cSub => exact complete_wroteReg (sub_eq_ofInt _ _)
  case cSubw => exact complete_wroteReg (sext_low32_of_eq_ofInt (sub_eq_ofInt _ _))
  case cAddw => exact complete_wroteReg (sext_low32_of_eq_ofInt (add_eq_ofInt _ _))
  case cMv => exact complete_wroteReg rfl
  case cAdd => exact complete_wroteReg (add_eq_ofInt _ _)

/-! ## Logic and shifts -/

/-- Settles O47: the operations of `BitVec` act bit by bit, and the shifts multiply and divide. -/
theorem compressedLogicAndShifts : Obligations.CompressedLogicAndShifts := by
  intro xd c c2 imm s r
  simp only [r, ← cReg_eq_ofNat]
  refine ⟨?cSrli, ?cSrai, ?cSlli, ?cAndi, ?cXor, ?cOr, ?cAnd⟩
  case cSrli => exact ⟨_, _, rfl, wroteReg_retire .., toNat_ushiftRight_eq_div _ _⟩
  case cSrai => exact ⟨_, _, rfl, wroteReg_retire .., toInt_sshiftRight_eq_div _ _⟩
  case cSlli => exact ⟨_, _, rfl, wroteReg_retire .., toNat_shiftLeft_eq_mul _ _⟩
  case cAndi => exact ⟨_, _, rfl, wroteReg_retire .., fun k hk => by rw [BitVec.getLsbD_and, getLsbD_cImm6 imm hk]⟩
  case cXor => exact ⟨_, _, rfl, wroteReg_retire .., fun k _ => BitVec.getLsbD_xor⟩
  case cOr => exact ⟨_, _, rfl, wroteReg_retire .., fun k _ => BitVec.getLsbD_or⟩
  case cAnd => exact ⟨_, _, rfl, wroteReg_retire .., fun k _ => BitVec.getLsbD_and⟩

/-! ## Loads and stores -/

/-- Settles O48: each is an aligned load at its scaled offset. -/
theorem compressedLoads : Obligations.CompressedLoads := by
  intro xd c c1 imm imm6 s va w d r
  simp only [r, ← cReg_eq_ofNat]
  refine ⟨fun aligned ram holds => ⟨fun address => ?cLw, fun address => ?cLwsp⟩,
    fun aligned ram holds => ⟨fun address => ?cLd, fun address => ?cLdsp⟩⟩
  case cLw =>
    exact alignedLoad_wroteReg (i := .cLw c c1 imm) (scaledAccess address) aligned ram rfl rfl holds
      (ofInt_bmod_toNat w)
  case cLwsp =>
    exact alignedLoad_wroteReg (i := .cLwsp xd imm6) (scaledAccess address) aligned ram rfl rfl holds
      (ofInt_bmod_toNat w)
  case cLd =>
    exact alignedLoad_wroteReg (i := .cLd c c1 imm) (scaledAccess address) aligned ram rfl rfl holds
      (ofInt_bmod_toNat_doubleword d)
  case cLdsp =>
    exact alignedLoad_wroteReg (i := .cLdsp xd imm6) (scaledAccess address) aligned ram rfl rfl holds
      (ofInt_bmod_toNat_doubleword d)

/-- Settles O49: each is an aligned store at its scaled offset. -/
theorem compressedStores : Obligations.CompressedStores := by
  intro xs2 c1 c2 imm imm6 s va r
  simp only [r, ← cReg_eq_ofNat]
  refine ⟨fun aligned ram => ⟨fun address => ?cSw, fun address => ?cSwsp⟩,
    fun aligned ram => ⟨fun address => ?cSd, fun address => ?cSdsp⟩⟩
  case cSw => exact alignedStore_stored (i := .cSw c1 c2 imm) (scaledAccess address) aligned ram rfl
  case cSwsp => exact alignedStore_stored (i := .cSwsp xs2 imm6) (scaledAccess address) aligned ram rfl
  case cSd => exact alignedStore_stored (i := .cSd c1 c2 imm) (scaledAccess address) aligned ram rfl
  case cSdsp => exact alignedStore_stored (i := .cSdsp xs2 imm6) (scaledAccess address) aligned ram rfl

/-! ## Jumps and branches -/

/-- A jump that links to `x0` has a next state, at its target, with nothing else changed. -/
theorem jumpLink_zero_onlyPc {len target dest : Word} {s : State} (lands : target = dest) :
    ∃ t, jumpLink len 0 target s = .next t ∧ OnlyPc dest s t :=
  ⟨_, rfl, lands ▸ onlyPc_retireTo target s⟩

/-- Settles O50: the offsets count from the own address, and the link is that of an instruction of two bytes. -/
theorem compressedControlTransfer : Obligations.CompressedControlTransfer := by
  intro xs1 c imm11 imm8 s r target
  simp only [r, ← cReg_eq_ofNat]
  have lands : s.pc + cBranchOffset imm8 = target := add_sext_append_zero s.pc imm8
  refine ⟨?cJ, ?cJr, ?cJalr, ?cBeqz, ?cBnez⟩
  case cJ => exact jumpLink_zero_onlyPc (add_sext_append_zero s.pc imm11)
  case cJr =>
    obtain ⟨t, next, only⟩ := jumpLink_zero_onlyPc (len := 2) (s := s) rfl
    exact ⟨_, t, next, only, toNat_clearBit0 (readReg xs1 s)⟩
  case cJalr =>
    obtain ⟨t, next, jumped⟩ := jumpLink_jumped (len := 2) (xd := 1) (s := s) rfl
    exact ⟨_, t, next, jumped, toNat_clearBit0 (readReg xs1 s)⟩
  case cBeqz => exact branch_onlyPc (beq_iff_eq.trans (eq_zero_iff_toNat _)) lands
  case cBnez => exact branch_onlyPc (bne_iff_ne.trans (not_congr (eq_zero_iff_toNat _))) lands

end Sys2Proof.Machine
end

section
/-! PROOFS. Family 60_exceptions.md. What taking an exception leaves (R477, R478), which exceptions and faults each
class of instruction can come to (R471 to R475, R544), and where a load stops at a byte without a value. -/

namespace Sys2Proof.Machine

/-! ## Taking an exception -/

/-- Settles O34: the parameter that filters the trap value is the one of the exception, and none for `ecall`. -/
theorem takingAnExceptionSavesAndVectors : Obligations.TakingAnExceptionSavesAndVectors := fun tval s =>
  ⟨trapped_of rfl tval s rfl, trapped_of rfl tval s rfl, trapped_of rfl tval s rfl, trapped_of rfl tval s rfl,
    trapped_of rfl tval s rfl, trapped_of rfl tval s rfl, trapped_of rfl tval s rfl, trapped_of rfl tval s rfl⟩

/-! ## Which exceptions an instruction can raise -/

/-- From `s` to `t` an instruction was counted, and left the trap CSRs, the configuration and `mcycle` alone. -/
def Retired (s t : State) : Prop := SameTrapCsrs s t ∧ Counted s t ∧ SameRun s t

/-- An instruction that moved memory and the host's log, wrote a register and set the pc, and no more, retired. -/
theorem retired_retireTo {s u : State} (only : OnlyMemory s u) (npc : Word) (xd : Reg) (v : Word) :
    Retired s (retireTo npc (writeReg xd v u)) := by
  unfold OnlyMemory at only
  rw [only]
  exact ⟨⟨rfl, rfl, rfl, rfl, rfl, rfl, rfl, rfl⟩, rfl, rfl, rfl, rfl, rfl, rfl⟩

/-- Taking an exception after an access that moved memory and the host's log alone. -/
theorem tookTrap_trapEntry {s u : State} (only : OnlyMemory s u) (e : Exc) (tval : Word) :
    TookTrap e.code (trapEntry e tval u).mtval s (trapEntry e tval u) := by
  unfold OnlyMemory at only
  rw [only]
  exact (trapped_trapEntry e tval { s with mem := u.mem, ioLog := u.ioLog }).1

/-- A load retires or raises one of the two load exceptions (R474). -/
theorem load_retires_or_raises {va : Word} {n : Nat} {len : Word} {xd : Reg} {ext : Nat → Word} {s t : State}
    (h : (memRead va n s).finish (fun v s' => retire len (writeReg xd (ext v) s')) = .next t) :
    Retired s t ∨ ∃ code tval, TookTrap code tval s t ∧ (code = 4 ∨ code = 5) := by
  rcases load_cases va n len xd ext s with ⟨v, u, e, only, -⟩ | ⟨x, tval, u, e, raised, only, -⟩ | ⟨a, e⟩
  · rw [e] at h; cases h
    exact .inl (retired_retireTo only _ xd _)
  · rw [e] at h; cases h
    refine .inr ⟨_, _, tookTrap_trapEntry only x tval, ?_⟩
    rcases raised with rfl | rfl
    · exact .inr rfl
    · exact .inl rfl
  · rw [e] at h; cases h

/-- A store retires or raises one of the two store exceptions (R475). -/
theorem store_retires_or_raises {len : Word} {n : Nat} {xs2 : Reg} {va : Word} {s t : State}
    (h : store len n xs2 va s = .next t) :
    Retired s t ∨ ∃ code tval, TookTrap code tval s t ∧ (code = 6 ∨ code = 7) := by
  rcases store_cases len n xs2 va s with ⟨u, e, only, -⟩ | ⟨x, tval, u, e, raised, only, -⟩
  · rw [e] at h; cases h
    exact .inl (retired_retireTo only _ 0 0)
  · rw [e] at h; cases h
    refine .inr ⟨_, _, tookTrap_trapEntry only x tval, ?_⟩
    rcases raised with rfl | rfl
    · exact .inr rfl
    · exact .inl rfl

/-- Settles O36: the loads, the stores and the three that only raise; every other instruction retires. -/
theorem onlyTheseExceptionsAreRaised : Obligations.OnlyTheseExceptionsAreRaised := by
  intro i s t h notCsr notMret
  cases i with
  | csrrw | csrrs | csrrc | csrrwi | csrrsi | csrrci => cases notCsr
  | mret => exact absurd rfl notMret
  | lb | lh | lw | ld | lbu | lhu | lwu | cLw | cLd | cLwsp | cLdsp =>
    refine (load_retires_or_raises h).imp_right ?_
    rintro ⟨code, tval, took, codes⟩
    exact ⟨code, tval, took, .inr (.inr (.inl ⟨rfl, rfl, codes⟩))⟩
  | sb | sh | sw | sd | cSw | cSd | cSwsp | cSdsp =>
    refine (store_retires_or_raises h).imp_right ?_
    rintro ⟨code, tval, took, codes⟩
    exact ⟨code, tval, took, .inr (.inr (.inr ⟨rfl, codes⟩))⟩
  | ebreak =>
    cases h
    exact .inr ⟨_, _, tookTrap_trapEntry (.refl s) .breakpoint s.pc, .inl ⟨.inl rfl, rfl⟩⟩
  | cEbreak =>
    cases h
    exact .inr ⟨_, _, tookTrap_trapEntry (.refl s) .breakpoint s.pc, .inl ⟨.inr rfl, rfl⟩⟩
  | ecall =>
    cases h
    exact .inr ⟨_, _, tookTrap_trapEntry (.refl s) .mcall 0, .inr (.inl ⟨rfl, rfl⟩)⟩
  | fence | fenceTso | wfi | beq | bne | blt | bge | bltu | bgeu | cBeqz | cBnez =>
    cases h
    exact .inl (retired_retireTo (.refl s) _ 0 0)
  | _ =>
    cases h
    exact .inl (retired_retireTo (.refl s) _ _ _)

/-! ## What can stop a run inside an instruction -/

/-- A number that cannot be read names an address without a value. -/
theorem get?_of_readLe_error {m : Memory} {b : Nat} (n : Nat) : ∀ a, readLe m a n = .error b → m.get? b = none := by
  induction n with
  | zero => nofun
  | succ n ih =>
    intro a h
    unfold readLe at h
    split at h
    next unwritten => cases h; exact unwritten
    next =>
      split at h
      next e rest => cases h; exact ih (a + 1) rest
      next => cases h

/-- `f` is the fault of a byte of memory that nothing has written (R544). -/
def Unwritten (m : Memory) (f : Fault) : Prop := ∃ a, f = .unwrittenByte a ∧ m.get? a = none

theorem readWhole_stuck {va : Word} {n : Nat} {s : State} {f : Fault} (h : readWhole va n s = .stuck f) :
    Unwritten s.mem f := by
  unfold readWhole at h
  split at h
  · split at h
    next => cases h
    next a e => cases h; exact ⟨a, rfl, get?_of_readLe_error n _ e⟩
  · cases h
  · cases h

/-- The bytes read before do not change memory, so the byte that stops a split read had no value from the start. -/
theorem readSplit_stuck {f : Fault} (n : Nat) : ∀ (va : Word) (s : State), readSplit va n s = .stuck f →
    Unwritten s.mem f := by
  induction n with
  | zero => intro va s h; rw [readSplit] at h; cases h
  | succ n ih =>
    intro va s h
    unfold readSplit at h
    split at h
    next b u first =>
      split at h
      next => cases h
      next => cases h
      next rest =>
        cases h
        have memory : u.mem = s.mem := by
          rcases readWhole_cases va 1 s with ⟨_, _, e, -, m⟩ | e | ⟨_, e⟩ <;> rw [e] at first <;> cases first
          exact m
        exact memory ▸ ih (va + 1) u rest
    next => cases h
    next first => cases h; exact readWhole_stuck first

theorem memRead_stuck {va : Word} {n : Nat} {s : State} {f : Fault} (h : memRead va n s = .stuck f) :
    Unwritten s.mem f := by
  unfold memRead at h
  split at h
  · exact readWhole_stuck h
  · split at h
    · exact readWhole_stuck h
    · split at h
      · exact readSplit_stuck n va s h
      · split at h <;> cases h

theorem Res.finish_fault {α : Type} {r : Res α} {k : α → State → State} {f : Fault} (h : r.finish k = .fault f) :
    r = .stuck f := by
  cases r <;> cases h
  rfl

theorem Res.finish_ne_refused {α : Type} (r : Res α) (k : α → State → State) (x : Refusal) :
    r.finish k ≠ .refused x := by
  cases r <;> nofun

theorem store_ne_fault (len : Word) (n : Nat) (xs2 : Reg) (va : Word) (s : State) (f : Fault) :
    store len n xs2 va s ≠ .fault f := by
  rcases store_cases len n xs2 va s with ⟨u, e, -⟩ | ⟨x, tval, u, e, -⟩ <;> rw [e] <;> nofun

/-- The six CSR instructions are calls of the access path. -/
theorem exec_of_isCsr {i : Instr} (csr : i.isCsr = true) (s : State) :
    ∃ ins a xd will new, exec i s = csrAccess ins a xd will new s := by
  cases i with
  | csrrw xd a xs1 => exact ⟨_, _, _, _, _, exec_csrrw xd a xs1 s⟩
  | csrrs xd a xs1 => exact ⟨_, _, _, _, _, exec_csrrs xd a xs1 s⟩
  | csrrc xd a xs1 => exact ⟨_, _, _, _, _, exec_csrrc xd a xs1 s⟩
  | csrrwi xd a uimm => exact ⟨_, _, _, _, _, exec_csrrwi xd a uimm s⟩
  | csrrsi xd a uimm => exact ⟨_, _, _, _, _, exec_csrrsi xd a uimm s⟩
  | csrrci xd a uimm => exact ⟨_, _, _, _, _, exec_csrrci xd a uimm s⟩
  | _ => cases csr

/-- A CSR access stops only on an absent CSR, and only where `TRAP_ON_UNIMPLEMENTED_CSR` is false (R411). -/
theorem csrAccess_fault {ins : Word} {a : CsrAddr} {xd : Reg} {will : Bool} {new : Word → Word} {s : State}
    {f : Fault} (h : csrAccess ins a xd will new s = .fault f) :
    (∃ a, f = .unpredictableCsr a) ∧ s.cfg.trapOnUnimplementedCsr = false := by
  cases found : csrLookup s.cfg a with
  | none =>
    rw [csrAccess_absent found] at h
    split at h <;> cases h
    next silent => exact ⟨⟨a, rfl⟩, Bool.not_eq_true _ ▸ silent⟩
  | some r =>
    simp only [csrAccess, found] at h
    split at h
    · cases h
    · split at h
      · split at h <;> cases h
      · cases h

/-- No shape of instruction is refused. -/
theorem ExecShape.ne_refused {s : State} {o : Host.Outcome State Fault Refusal} (shape : ExecShape s o) (x : Refusal) :
    o ≠ .refused x := by
  cases shape with
  | complete | nop | jump | branch | raise | ret => nofun
  | load | store => exact Res.finish_ne_refused _ _ x
  | csr ins a xd will new =>
    rcases csrAccess_cases ins a xd will new s with e | e | ⟨r, -, -, e⟩ | ⟨r, u, -, -, -, -, e⟩ <;>
      rw [e] <;> nofun

/-- Settles O37: only the read of a load and the access path of the CSR instructions can stop. -/
theorem onlyLoadsAndCsrAccessesCanStop : Obligations.OnlyLoadsAndCsrAccessesCanStop := by
  refine fun i s => ⟨(exec_shape i s).ne_refused, fun f h => ?_⟩
  by_cases csr : i.isCsr = true
  · obtain ⟨ins, a, xd, will, new, e⟩ := exec_of_isCsr csr s
    rw [e] at h
    obtain ⟨absent, silent⟩ := csrAccess_fault h
    exact .inr ⟨absent, csr, silent⟩
  cases i with
  | lb | lh | lw | ld | lbu | lhu | lwu | cLw | cLd | cLwsp | cLdsp =>
    exact .inl ⟨memRead_stuck (Res.finish_fault h), rfl, rfl⟩
  | sb | sh | sw | sd | cSw | cSd | cSwsp | cSdsp => exact absurd h (store_ne_fault _ _ _ _ s f)
  | csrrw | csrrs | csrrc | csrrwi | csrrsi | csrrci => exact absurd rfl csr
  | _ => cases h

/-! ## The byte at which a load stops -/

theorem readWhole_unwritten {s : State} {va : Word} {n j : Nat} (ram : RamAccess s va n) (hj : j < n)
    (written : ∀ k, k < j → (s.mem.get? (va.toNat + k)).isSome = true)
    (unwritten : s.mem.get? (va.toNat + j) = none) :
    readWhole va n s = .stuck (.unwrittenByte (va.toNat + j)) := by
  simp only [readWhole, (accessCheck_ram_iff s va (Nat.zero_lt_of_lt hj)).mpr ram,
    readLe_unwritten n s.mem va.toNat j hj written unwritten]

theorem exec_load_stuck {i : Instr} {s : State} {va : Word} {n : Nat} {f : Fault} (acc : i.access s = some (va, n))
    (load : i.isStore = false) (read : memRead va n s = .stuck f) : exec i s = .fault f := by
  obtain ⟨xd, -, e⟩ := exec_load acc load
  rw [e, read]
  rfl

/-- Settles O45: the read of the load stops there, be it one access or byte by byte. -/
theorem unwrittenBytesStopALoad : Obligations.UnwrittenBytesStopALoad := by
  intro i s va n j acc load hj
  obtain ⟨hn, -⟩ := access_size acc
  refine ⟨fun whole ram written unwritten => exec_load_stuck acc load ?_,
    fun misaligned atomic split passes written ram unwritten => exec_load_stuck acc load ?_⟩
  · rw [memRead_whole hn whole, readWhole_unwritten ram hj written unwritten]
  · rw [memRead_split hn misaligned atomic split, readSplit_unwritten j n va s hj passes written ram unwritten]

end Sys2Proof.Machine
end

section
/-! PROOFS. Family 70_reset_and_hazards.md. The step where no interrupt is taken (R492, R550): the fetch reads the bytes
at the pc as the bits they are, the instruction they decode to runs, and a run ends where its halt rule says (R560). -/

namespace Sys2Proof

/-! ## The bits of an instruction as its halfwords and bytes -/

/-- A halfword is the number of its two bytes, the lower one less significant (R201). -/
theorem ofNat_bytes_half (h : BitVec 16) :
    BitVec.ofNat 16 ((h.extractLsb' 0 8).toNat + 256 * (h.extractLsb' 8 8).toNat) = h := by
  apply BitVec.eq_of_toNat_eq
  simp only [BitVec.toNat_ofNat, BitVec.extractLsb'_toNat, Nat.shiftRight_eq_div_pow]
  have bound := h.isLt
  omega

/-- A byte of a halfword of a word is a byte of the word. -/
theorem extractLsb'_half (w : BitVec 32) (start k : Nat) (inside : k + 8 ≤ 16) :
    (w.extractLsb' start 16).extractLsb' k 8 = w.extractLsb' (start + k) 8 := by
  refine BitVec.eq_of_getLsbD_eq fun i hi => ?_
  simp only [BitVec.getLsbD_extractLsb', Nat.add_assoc, hi, decide_true, Bool.true_and,
    decide_eq_true (show k + i < 16 by omega)]

theorem wordOfHalves_extractLsb' (w : BitVec 32) : wordOfHalves (w.extractLsb' 0 16) (w.extractLsb' 16 16) = w := by
  have joined : w.extractLsb' 16 16 ++ w.extractLsb' 0 16 = w.extractLsb' 0 32 :=
    BitVec.extractLsb'_append_extractLsb'_eq_extractLsb' rfl
  exact joined.trans BitVec.extractLsb'_eq_self

/-- Under a configuration that a launch accepts, bits that decode are those of a well-formed instruction, and their
first halfword announces their length (R252, R450). -/
theorem wellFormed_and_length_of_decode {c : Config} {r : Raw} {i : Instr} (legal : Machine.cDecodeOk c.cDecode = true)
    (d : decode c r = .ok i) : i.wellFormed = true ∧ isWordHalf (Laws.firstHalf r) = (r.length == 4) := by
  obtain ⟨row, -⟩ := decode_eq_ok_iff.mp d
  rcases (onlyEncodingsDecode c r i d).2 with ⟨byTable, -, wf⟩ | ⟨h, rfl, change⟩
  · refine ⟨wf, ?_⟩
    rw [decodeRow_eq_tableInstr byTable] at row
    cases r with
    | half h => exact isWordHalf_of_decodeHalf row
    | word w =>
      refine Laws.lengthRule_word w (not_not.mp fun short => ?_)
      cases (decodeWord_of_short short).symm.trans row
  · obtain ⟨short, value⟩ := Machine.cDecodeOk_change legal change
    exact ⟨(value i rfl).2, isWordHalf_eq_false_iff.mpr short⟩

end Sys2Proof

namespace Sys2Proof.Machine

/-! ## The fetch of bits that stand in `ram` (R216) -/

theorem physAddrWidth_le {c : Config} (legal : legalConfig c = true) : c.physAddrWidth ≤ 64 := by
  simp only [legalConfig, rangesOk, Bool.and_eq_true, decide_eq_true_eq] at legal
  omega

/-- Two bytes that pass the access check do not wrap (R206). -/
theorem toNat_add_one_of_ramAccess {s : State} {va : Word} (width : s.cfg.physAddrWidth ≤ 64)
    (ram : RamAccess s va 2) : (va + 1).toNat = va.toNat + 1 := by
  have bound := ram.1
  have space : 2 ^ s.cfg.physAddrWidth ≤ 2 ^ 64 := Nat.pow_le_pow_right (by decide) width
  rw [BitVec.toNat_add]
  split at bound <;> simp <;> omega

/-- The two bytes of a halfword in `ram` are fetched as the halfword. -/
theorem fetchHalf_bytes {s : State} {va : Word} {h : BitVec 16} (width : s.cfg.physAddrWidth ≤ 64)
    (ram : RamAccess s va 2) (low : s.mem.get? va.toNat = some (h.extractLsb' 0 8))
    (high : s.mem.get? (va + 1).toNat = some (h.extractLsb' 8 8)) : fetchHalf va s = .done h s := by
  rw [toNat_add_one_of_ramAccess width ram] at high
  rw [fetchHalf_ram ram low high, ofNat_bytes_half]

/-- The memory of `s` holds the bytes of `r` at the pc, at addresses modulo 2^64, all of them in `ram`. -/
structure Fetchable (r : Raw) (s : State) : Prop where
  bytes : ∀ (k : Nat) (b : Byte), r.bytes[k]? = some b → s.mem.get? (s.pc + BitVec.ofNat 64 k).toNat = some b
  first : RamAccess s s.pc 2
  second : r.length = 4 → RamAccess s (s.pc + 2) 2

/-- Bits that stand at the pc, and whose first halfword announces their length, are what is fetched (R216, R252). -/
theorem fetch_of_fetchable {r : Raw} {s : State} (width : s.cfg.physAddrWidth ≤ 64)
    (announced : isWordHalf (Laws.firstHalf r) = (r.length == 4)) (there : Fetchable r s) : fetch s = .done r s := by
  obtain ⟨bytes, first, second⟩ := there
  have low := bytes 0
  rw [BitVec.add_zero] at low
  cases r with
  | half h =>
    have short : isWordHalf h = false := announced
    have fetched : fetchHalf s.pc s = .done h s := fetchHalf_bytes width first (low _ rfl) (bytes 1 _ rfl)
    simp only [fetch, fetched, short, Bool.false_eq_true, if_false]
  | word w =>
    have long : isWordHalf (w.extractLsb' 0 16) = true := announced
    have firstHalf : fetchHalf s.pc s = .done (w.extractLsb' 0 16) s := by
      refine fetchHalf_bytes width first ?_ ?_
      · rw [extractLsb'_half w 0 0 (by decide)]
        exact low _ rfl
      · rw [extractLsb'_half w 0 8 (by decide)]
        exact bytes 1 _ rfl
    have secondHalf : fetchHalf (s.pc + 2) s = .done (w.extractLsb' 16 16) s := by
      refine fetchHalf_bytes width (second rfl) ?_ ?_
      · rw [extractLsb'_half w 16 0 (by decide)]
        exact bytes 2 _ rfl
      · rw [extractLsb'_half w 16 8 (by decide), BitVec.add_assoc]
        exact bytes 3 _ rfl
    simp only [fetch, firstHalf, long, if_true, secondHalf, wordOfHalves_extractLsb']

/-- Under a legal configuration, bits that stand at the pc and decode are what is fetched. -/
theorem fetch_of_decode {r : Raw} {i : Instr} {s : State} (legal : legalConfig s.cfg = true)
    (d : decode s.cfg r = .ok i) (there : Fetchable r s) : fetch s = .done r s :=
  fetch_of_fetchable (physAddrWidth_le legal)
    (wellFormed_and_length_of_decode (cDecodeOk_of_legalConfig legal) d).2 there

/-! ## The outcomes of a step -/

/-- Where a run goes on, the step is an interrupt or an instruction, and then the end of the step (R550). -/
theorem step_of_not_halted {s : State} (legal : legalConfig s.cfg = true) (goes : halted (applyInputs s) = false) :
    step s = closeStep (interruptOrRun (applyInputs s)) := by
  change cycle s = _
  rw [cycle, if_pos legal, goes]
  rfl

theorem step_of_halted {s : State} (legal : legalConfig s.cfg = true) (ended : halted (applyInputs s) = true) :
    step s = .fault .runEnded := by
  change cycle s = _
  rw [cycle, if_pos legal, ended]
  rfl

theorem step_of_illegal {s : State} (illegal : legalConfig s.cfg = false) :
    step s = .refused .illegalConfiguration := by
  change cycle s = _
  rw [cycle, illegal]
  rfl

/-- Where interrupts are disabled, or none is pending and enabled, no code has priority (R492, R496). -/
theorem highestPriority_of_masked {s : State} (masked : s.mstatus.mie = false
      ∨ ((currentIrq s).mei && s.mie.mei) = false ∧ ((currentIrq s).msi && s.mie.msi) = false
        ∧ ((currentIrq s).mti && s.mie.mti) = false) :
    highestPriority (pendingAndEnabled (applyInputs s)) = none := by
  rcases masked with disabled | ⟨mei, msi, mti⟩
  · simp [pendingAndEnabled, highestPriority, disabled]
  · simp [pendingAndEnabled, highestPriority, Bool.and_assoc, mei, msi, mti]

/-- Settles O14: no code has priority, so the step fetches. -/
theorem maskedInterruptIsNotTaken : Obligations.MaskedInterruptIsNotTaken := by
  intro s legal goes masked
  rw [step_of_not_halted legal goes, interruptOrRun_none (highestPriority_of_masked masked)]
  rfl

/-- Settles O9: the bytes are fetched as the bits, and the bits decoded as the instruction. -/
theorem stepRunsTheDecodedInstruction : Obligations.StepRunsTheDecodedInstruction := by
  intro s r i legal goes idle d bytes first second
  have fetched : fetch (applyInputs s) = .done r (applyInputs s) :=
    fetch_of_decode (s := applyInputs s) legal d ⟨bytes, first, second⟩
  have runs : fetchRun (applyInputs s) = exec i (applyInputs s) := by
    simp only [fetchRun, fetched, runRaw, applyInputs_cfg, d]
  refine ⟨(wellFormed_and_length_of_decode (cDecodeOk_of_legalConfig legal) d).1, ?_⟩
  rw [step_of_not_halted legal goes, interruptOrRun_none idle, runs]
  rfl

/-- A jump to itself that no interrupt leaves meets the default halt predicate (R560). -/
theorem selfLoop_of_fetch {s : State} {r : Raw} (idle : highestPriority (pendingAndEnabled s) = none)
    (fetched : fetch s = .done r s) (d : decode s.cfg r = .ok (.jal 0 0) ∨ decode s.cfg r = .ok (.cJ 0)) :
    selfLoop s = true := by
  rcases d with d | d <;> simp [selfLoop, idle, fetched, d]

/-- Settles O17: one clause per branch of the step before the interrupt. -/
theorem refusedAndEndedRuns : Obligations.RefusedAndEndedRuns := by
  refine ⟨fun s illegal => step_of_illegal illegal, fun s r legal rule idle d bytes first second => ?selfLoop,
    fun s n legal rule => ?other⟩
  case selfLoop =>
    have fetched : fetch (applyInputs s) = .done r (applyInputs s) := by
      rcases d with d | d <;> exact fetch_of_decode (s := applyInputs s) legal d ⟨bytes, first, second⟩
    refine step_of_halted legal ?_
    rw [halted_selfLoop (s := applyInputs s) rule]
    exact selfLoop_of_fetch idle fetched d
  case other =>
    have meets : halted (applyInputs s) = Config.haltPredicate n (applyInputs s) := halted_other rule
    cases ended : Config.haltPredicate n (applyInputs s) with
    | true => exact .inl ⟨rfl, step_of_halted legal (meets.trans ended)⟩
    | false => exact .inr ⟨rfl, step_of_not_halted legal (meets.trans ended)⟩

end Sys2Proof.Machine
end
